-- ==== Sys2Proof/Word.lean ====
section
/-! DEFINITION. The plainest types of the model: the host's words, bytes and addresses, the trit, the
symbol index, and the fixed sizes of `00_scope.md` R5. -/

namespace Sys2Proof

/-- An 8-bit cell of TX or DIGEST (`10_state.md` R37, R38). -/
abbrev Byte := BitVec 8

/-- The 32-bit value of one host location (`20_memory.md` R50). -/
abbrev HostWord := BitVec 32

/-- A 16-bit host word address (`20_memory.md` R50). -/
abbrev HostAddr := BitVec 16

/-- A trit: -1, 0 or 1 (`00_scope.md` R13). Its storage code is not observable (`30_encoding.md` R73). -/
inductive Trit where
  | neg
  | zero
  | pos
  deriving DecidableEq, Repr, Inhabited

/-- The integer a trit is (`00_scope.md` R13). -/
def Trit.toInt : Trit → Int
  | .neg => -1
  | .zero => 0
  | .pos => 1

/-- A symbol, by its index: `9` is 0 and `A` to `Z` are 1 to 26 (`30_encoding.md` R70). -/
abbrev SymIdx := Fin 27

/-- A bit-sliced word: an unsigned integer of W bits (`00_scope.md` R15). W is a build parameter, so the
width is a bound that the operations keep, not a part of the type (log 9). -/
abbrev LaneWord := Nat

end Sys2Proof
end

