-- ==== Sys2Proof/Syntax.lean ====
section
/-! DEFINITION. The commands: one constructor per row of `spec/opcode_table.json` (`30_encoding.md` R80). -/

namespace Sys2Proof

/-- The twelve commands of `30_encoding.md` R80, the complete set. A length operand is counted in symbols
and a difficulty operand in trits (R78). -/
inductive Instr where
  /-- NOP (`40_commands.md` R103). -/
  | nop
  /-- SRESET (`40_commands.md` R104). -/
  | sreset
  /-- ABORT (`40_commands.md` R105). -/
  | abort
  /-- S_CLEAR (`42_sponge.md` R150). -/
  | sClear
  /-- S_ABSORB len (`42_sponge.md` R151). -/
  | sAbsorb (len : Nat)
  /-- S_PERMUTE (`42_sponge.md` R152). -/
  | sPermute
  /-- S_FINALIZE (`42_sponge.md` R153). -/
  | sFinalize
  /-- HASH len (`42_sponge.md` R154). -/
  | hash (len : Nat)
  /-- POW_INIT m (`44_pow.md` R201). -/
  | powInit (m : Nat)
  /-- POW_STEP (`44_pow.md` R210). -/
  | powStep
  /-- POW_RUN (`44_pow.md` R211). -/
  | powRun
  /-- POW_FINAL (`44_pow.md` R213). -/
  | powFinal
  deriving DecidableEq, Repr

/-- Why a command word is illegal (`30_encoding.md` R81). Both raise ILLEGAL_CMD. -/
inductive IllegalWord where
  /-- OPC is none of the twelve assigned values. -/
  | unassignedOpcode (opc : Byte)
  /-- OPC is assigned, and a field that its format requires to be zero is not. -/
  | nonzeroField (opc : Byte)
  deriving DecidableEq, Repr

end Sys2Proof
end

