-- ==== Sys2Proof/WellFormed.lean ====
section
/-! DEFINITION. Which instructions an encoding can carry: the operand must fit its field. -/

namespace Sys2Proof

/-- The operand fits its field of the command word: LEN is 12 bits and MWM is 8 (`30_encoding.md` R76, R78).
The ranges a command accepts (LENGTH, PARAM) are checks of the machine, not of the encoding. -/
def Instr.wellFormed : Instr → Bool
  | .sAbsorb len => decide (len < 4096)
  | .hash len => decide (len < 4096)
  | .powInit m => decide (m < 256)
  | .nop => true
  | .sreset => true
  | .abort => true
  | .sClear => true
  | .sPermute => true
  | .sFinalize => true
  | .powStep => true
  | .powRun => true
  | .powFinal => true

end Sys2Proof
end

