-- ==== Sys2Proof/Decode.lean ====
section
/-! DEFINITION. The decoder of a command word and the encoder (`30_encoding.md` R76 to R82). -/

namespace Sys2Proof

/-- OPC, bits 7:0 of the command word (`30_encoding.md` R76). -/
def opcField (v : HostWord) : Byte := v.extractLsb' 0 8
/-- MWM, bits 15:8, zero-extended: an integer counted in trits (`30_encoding.md` R76, R78). -/
def mwmField (v : HostWord) : Nat := (v.extractLsb' 8 8).toNat
/-- LEN, bits 27:16, zero-extended: an integer counted in symbols (`30_encoding.md` R76, R78). -/
def lenField (v : HostWord) : Nat := (v.extractLsb' 16 12).toNat
/-- RSV, bits 31:28 (`30_encoding.md` R76). -/
def rsvField (v : HostWord) : Nat := (v.extractLsb' 28 4).toNat

/-- Format C0: MWM, LEN and RSV must be 0 (`30_encoding.md` R77). -/
def decodeC0 (v : HostWord) (i : Instr) : Except IllegalWord Instr :=
  if mwmField v = 0 ∧ lenField v = 0 ∧ rsvField v = 0 then .ok i else .error (.nonzeroField (opcField v))

/-- Format CL: LEN is the operand, and MWM and RSV must be 0 (`30_encoding.md` R77). -/
def decodeCL (v : HostWord) (row : Nat → Instr) : Except IllegalWord Instr :=
  if mwmField v = 0 ∧ rsvField v = 0 then .ok (row (lenField v)) else .error (.nonzeroField (opcField v))

/-- Format CM: MWM is the operand, and LEN and RSV must be 0 (`30_encoding.md` R77). -/
def decodeCM (v : HostWord) (row : Nat → Instr) : Except IllegalWord Instr :=
  if lenField v = 0 ∧ rsvField v = 0 then .ok (row (mwmField v)) else .error (.nonzeroField (opcField v))

/-- The decoder: OPC chooses the row, and the row's format checks its must-be-zero fields
(`30_encoding.md` R80 to R82). Total on every word; a word of no row is rejected by name (R81). -/
def decode (v : HostWord) : Except IllegalWord Instr :=
  if opcField v = 0x00 then decodeC0 v .nop
  else if opcField v = 0x01 then decodeC0 v .sreset
  else if opcField v = 0x02 then decodeC0 v .abort
  else if opcField v = 0x10 then decodeC0 v .sClear
  else if opcField v = 0x11 then decodeCL v .sAbsorb
  else if opcField v = 0x12 then decodeC0 v .sPermute
  else if opcField v = 0x13 then decodeC0 v .sFinalize
  else if opcField v = 0x14 then decodeCL v .hash
  else if opcField v = 0x20 then decodeCM v .powInit
  else if opcField v = 0x21 then decodeC0 v .powStep
  else if opcField v = 0x22 then decodeC0 v .powRun
  else if opcField v = 0x23 then decodeC0 v .powFinal
  else .error (.unassignedOpcode (opcField v))

/-- OPC of each command (`30_encoding.md` R80). -/
def Instr.opcode : Instr → Nat
  | .nop => 0x00
  | .sreset => 0x01
  | .abort => 0x02
  | .sClear => 0x10
  | .sAbsorb _ => 0x11
  | .sPermute => 0x12
  | .sFinalize => 0x13
  | .hash _ => 0x14
  | .powInit _ => 0x20
  | .powStep => 0x21
  | .powRun => 0x22
  | .powFinal => 0x23

/-- The length operand that is encoded: 0 for the formats C0 and CM (`30_encoding.md` R79). -/
def Instr.lenOperand : Instr → Nat
  | .sAbsorb len => len
  | .hash len => len
  | .nop | .sreset | .abort | .sClear | .sPermute | .sFinalize | .powInit _ | .powStep | .powRun | .powFinal => 0

/-- The difficulty operand that is encoded: 0 for the formats C0 and CL (`30_encoding.md` R79). -/
def Instr.mwmOperand : Instr → Nat
  | .powInit m => m
  | .nop | .sreset | .abort | .sClear | .sAbsorb _ | .sPermute | .sFinalize | .hash _ | .powStep | .powRun
  | .powFinal => 0

/-- `encode(opc, len, m) = (len << 16) | (m << 8) | opc` (`30_encoding.md` R79). -/
def encode (i : Instr) : HostWord :=
  BitVec.ofNat 32 ((i.lenOperand <<< 16) ||| (i.mwmOperand <<< 8) ||| i.opcode)

/-- The row's match word (`30_encoding.md` R80). -/
def Instr.rowMatch (i : Instr) : HostWord := BitVec.ofNat 32 i.opcode

/-- The row's mask (`30_encoding.md` R80). -/
def Instr.rowMask : Instr → HostWord
  | .sAbsorb _ | .hash _ => 0xF000FFFF
  | .powInit _ => 0xFFFF00FF
  | .nop | .sreset | .abort | .sClear | .sPermute | .sFinalize | .powStep | .powRun | .powFinal => 0xFFFFFFFF

/-- The instruction the decoder reads from a table row's bits: a command is one 32-bit word
(`30_encoding.md` R82), so the bits are laid out as one word, those above `nbits` zero. -/
def decodeTableWord (nbits w : Nat) : Option Instr :=
  (decode (BitVec.ofNat 32 (w % 2 ^ nbits))).toOption

end Sys2Proof
end

