-- ==== Sys2Proof/Config.lean ====
section
/-! DEFINITION. What an implementation fixes: the constants of `00_scope.md` R5, the build parameters W and
LANES with their limits (R6, R7), and the free values, which the spec leaves unspecified. -/

namespace Sys2Proof

namespace Config

/-- Trits in the sponge state (`00_scope.md` R5). -/
abbrev stateLen : Nat := 729
/-- Trits in the input slot and in the digest (`00_scope.md` R5). -/
abbrev hashLen : Nat := 243
/-- Symbols per absorbed chunk and per digest (`00_scope.md` R5). -/
abbrev hashSyms : Nat := 81
/-- Rounds per permutation (`00_scope.md` R5). -/
abbrev rounds : Nat := 27
/-- Symbols in a transaction (`00_scope.md` R5). -/
abbrev txLen : Nat := 2673
/-- The length of the header field, which starts at symbol 0 (`00_scope.md` R5). -/
abbrev headerLen : Nat := 2430
/-- The nonce field (`00_scope.md` R5). -/
abbrev nonceOff : Nat := 2430
/-- The trunk field (`00_scope.md` R5). -/
abbrev trunkOff : Nat := 2511
/-- The branch field (`00_scope.md` R5). -/
abbrev branchOff : Nat := 2592

/-- A trit of lane `lane` of word `word` of MID, as draw number `draw` leaves it: the spec gives MID no
reset value (`10_state.md` R24, `70_reset_and_hazards.md` R273). A free value (log 4). -/
opaque freeMid : (draw word lane : Nat) → Trit
/-- As `freeMid`, for WORK (`10_state.md` R25). A free value (log 4). -/
opaque freeWork : (draw word lane : Nat) → Trit
/-- Trit `k` of NONCE, as draw number `draw` leaves it (`10_state.md` R27). A free value (log 4). -/
opaque freeNonce : (draw k : Nat) → Trit
/-- As `freeNonce`, for TRUNK (`10_state.md` R27). A free value (log 4). -/
opaque freeTrunk : (draw k : Nat) → Trit
/-- As `freeNonce`, for BRANCH (`10_state.md` R27). A free value (log 4). -/
opaque freeBranch : (draw k : Nat) → Trit
/-- What the codec reads from a cell that holds no symbol code: `41_codec.md` R120 leaves it undefined.
No command ever uses it, because each checks its cells first (R242). A free value (log 10). -/
opaque freeSymbol : Byte → SymIdx

end Config

/-- The build parameters, readable in PARAMS (`20_memory.md` R52), with the limits of `00_scope.md` R6
(W even, 2 ≤ W ≤ 65534) and R7 (1 ≤ LANES ≤ W/2). -/
structure Params where
  /-- W, the width of a bit-sliced word in bits. -/
  wordBits : Nat
  /-- LANES, the candidates of one search batch. -/
  lanes : Nat
  wordBits_even : wordBits % 2 = 0
  wordBits_ge : 2 ≤ wordBits
  wordBits_le : wordBits ≤ 65534
  lanes_ge : 1 ≤ lanes
  lanes_le : lanes ≤ wordBits / 2
  deriving DecidableEq, Repr

/-- The default build: W = 64, LANES = 32 (`00_scope.md` R6, R7). -/
def Params.default : Params where
  wordBits := 64
  lanes := 32
  wordBits_even := by decide
  wordBits_ge := by decide
  wordBits_le := by decide
  lanes_ge := by decide
  lanes_le := by decide

end Sys2Proof
end

