-- ==== Sys2Proof/Machine/Codec.lean ====
section
/-! DEFINITION. The ternary codec: symbols, the tryte table, the conversions between symbols and trits, and
balanced-ternary `add` and `increment` (`30_encoding.md` R70 to R73, `41_codec.md` R120 to R126,
`00_scope.md` R13, R14). -/

namespace Sys2Proof.Machine

open Sys2Proof

/-! ### Symbols and their storage codes -/

/-- The storage code of a symbol: `9` is 0x39, and the letter of index j is 0x40 + j (`30_encoding.md` R71). -/
def symbolCode (j : SymIdx) : Byte :=
  if j.val = 0 then 0x39 else BitVec.ofNat 8 (0x40 + j.val)

/-- `valid(b)`: b is one of the 27 codes, 0x39 or 0x41 to 0x5A (`30_encoding.md` R71). -/
def validSymbol (b : Byte) : Bool :=
  b.toNat == 0x39 || (0x41 ≤ b.toNat && b.toNat ≤ 0x5A)

/-- `symOf(b)`: the symbol of a valid code (`30_encoding.md` R71). On a byte that is no code the spec leaves
the codec undefined (`41_codec.md` R120), and the value is free (log 10). -/
def symbolOf (b : Byte) : SymIdx :=
  if validSymbol b then (if b.toNat = 0x39 then 0 else Fin.ofNat 27 (b.toNat - 0x40)) else Config.freeSymbol b

/-! ### The tryte table -/

/-- TRYTE, row by row as the table of `30_encoding.md` R72 has it: (t0, t1, t2) of the symbols `9`, `A` to `Z`. -/
def tryteTable : List (List Trit) :=
  [[.zero, .zero, .zero], [.pos, .zero, .zero], [.neg, .pos, .zero], [.zero, .pos, .zero], [.pos, .pos, .zero],
   [.neg, .neg, .pos], [.zero, .neg, .pos], [.pos, .neg, .pos], [.neg, .zero, .pos]] ++
  [[.zero, .zero, .pos], [.pos, .zero, .pos], [.neg, .pos, .pos], [.zero, .pos, .pos], [.pos, .pos, .pos],
   [.neg, .neg, .neg], [.zero, .neg, .neg], [.pos, .neg, .neg], [.neg, .zero, .neg]] ++
  [[.zero, .zero, .neg], [.pos, .zero, .neg], [.neg, .pos, .neg], [.zero, .pos, .neg], [.pos, .pos, .neg],
   [.neg, .neg, .zero], [.zero, .neg, .zero], [.pos, .neg, .zero], [.neg, .zero, .zero]]

/-- TRYTE[j] (`30_encoding.md` R72). -/
def tryte (j : SymIdx) : List Trit := tryteTable.getD j.val []

/-- `symbolsToTrits`: the trit triples of the symbols, in order (`41_codec.md` R120). -/
def symbolsToTrits (s : List SymIdx) : List Trit := s.flatMap tryte

/-- The symbol of one group: `j = t0 + 3·t1 + 9·t2`, and 27 more if that is negative (`41_codec.md` R121). -/
def groupSymbol (t0 t1 t2 : Trit) : SymIdx :=
  let j := t0.toInt + 3 * t1.toInt + 9 * t2.toInt
  Fin.ofNat 27 (if j < 0 then j + 27 else j).toNat

/-- `tritsToSymbols`: groups of three, missing trailing trits treated as 0 (`41_codec.md` R121). -/
def tritsToSymbols : List Trit → List SymIdx
  | [] => []
  | [t0] => [groupSymbol t0 .zero .zero]
  | [t0, t1] => [groupSymbol t0 t1 .zero]
  | t0 :: t1 :: t2 :: rest => groupSymbol t0 t1 t2 :: tritsToSymbols rest

/-! ### Balanced-ternary numbers -/

/-- `val(t)`, least significant trit first (`00_scope.md` R13). -/
def tritsVal : List Trit → Int
  | [] => 0
  | t :: ts => t.toInt + 3 * tritsVal ts

/-- The trit that is congruent to v modulo 3. -/
def tritOfInt (v : Int) : Trit :=
  if v % 3 = 0 then .zero else if v % 3 = 1 then .pos else .neg

/-- `bal_L(v)`, the trit sequence of length L that represents v modulo 3^L (`00_scope.md` R14). -/
def balanced : (len : Nat) → (v : Int) → List Trit
  | 0, _ => []
  | len + 1, v => tritOfInt v :: balanced len ((v - (tritOfInt v).toInt) / 3)

/-- The digit loop of `add`: the new trits, and the unconsumed part of n plus the last carry
(`41_codec.md` R123). `c` is the carry into the first digit. -/
def addDigits : (t : List Trit) → (n c : Nat) → List Trit × Nat
  | [], n, c => ([], n + c)
  | t :: ts, n, c =>
    let d := t.toInt + ((n % 3 + c : Nat) : Int)
    let carry := if 1 < d then 1 else 0
    let rest := addDigits ts (n / 3) carry
    (tritOfInt d :: rest.1, rest.2)

/-- `add(t, L, n)`: the new trits and the carry-out, which no command records (`41_codec.md` R123). -/
def addTrits (t : List Trit) (n : Nat) : List Trit × Nat := addDigits t n 0

/-- `increment(t, L)`: a digit 1 rolls over to -1 and carries on; the first other digit takes one and the
rest stays (`41_codec.md` R124). -/
def incrementTrits : List Trit → List Trit
  | [] => []
  | .pos :: ts => .neg :: incrementTrits ts
  | .zero :: ts => .pos :: ts
  | .neg :: ts => .zero :: ts

/-! ### Sequences of a fixed length -/

/-- A list as a sequence of exactly n elements: longer lists are cut, shorter ones filled with `fill`.
Every use gives it a list of the right length. -/
def fitLength {α : Type} (n : Nat) (fill : α) (l : List α) : Vector α n :=
  ⟨⟨l.take n ++ List.replicate (n - l.length) fill⟩, by simp; omega⟩

theorem addDigits_length (t : List Trit) (n c : Nat) : (addDigits t n c).1.length = t.length := by
  induction t generalizing n c with
  | nil => rfl
  | cons t ts ih => simp [addDigits, ih]

theorem incrementTrits_length (t : List Trit) : (incrementTrits t).length = t.length := by
  fun_induction incrementTrits t <;> simp_all

/-- `add` on a 243-trit register, the carry discarded (`44_pow.md` R203, R213). -/
def addField (t : Vector Trit Config.hashLen) (n : Nat) : Vector Trit Config.hashLen :=
  ⟨⟨(addTrits t.toList n).1⟩, by simp [addTrits, addDigits_length]⟩

/-- `increment` on a 243-trit register (`44_pow.md` R203). -/
def incrementField (t : Vector Trit Config.hashLen) : Vector Trit Config.hashLen :=
  ⟨⟨incrementTrits t.toList⟩, by simp [incrementTrits_length]⟩

/-! ### Cells and trits -/

/-- The trits of a list of cells: `symbolsToTrits` of their symbols (`41_codec.md` R126). -/
def cellsToTrits (cells : List Byte) : List Trit := symbolsToTrits (cells.map symbolOf)

/-- `storeSyms(t)`: the codes of the symbols of a trit sequence (`41_codec.md` R126). -/
def tritsToCells (t : List Trit) : List Byte := (tritsToSymbols t).map symbolCode

end Sys2Proof.Machine
end

