-- ==== Sys2Proof/Machine/Sponge.lean ====
section
/-! DEFINITION. The Curl-P-27 permutation and the sponge over it, as pure functions (`42_sponge.md` R140 to R147).
The index pattern of a round and the input slot are shared with the bit-sliced transform
(`43_bitsliced.md` R179). -/

namespace Sys2Proof.Machine

open Sys2Proof

/-- TT, the 11-entry truth table (`00_scope.md` R5, `42_sponge.md` R140). -/
def truthTable : List Trit :=
  [.pos, .zero, .neg, .zero, .pos, .neg, .zero, .zero, .neg, .pos, .zero]

/-- `T(x, y)`, the nine entries as the table of `42_sponge.md` R140 has them: TT[x + 4y + 5]. -/
def mixTrit : (x y : Trit) → Trit
  | .neg, .neg => .pos
  | .zero, .neg => .zero
  | .pos, .neg => .neg
  | .neg, .zero => .pos
  | .zero, .zero => .neg
  | .pos, .zero => .zero
  | .neg, .pos => .neg
  | .zero, .pos => .pos
  | .pos, .pos => .zero

/-! ### One round, over trits or words -/

/-- One element of the first list, one of the second, and so on. -/
def interleave {α : Type} : List α → List α → List α
  | [], ys => ys
  | x :: xs, [] => x :: xs
  | x :: xs, y :: ys => x :: y :: interleave xs ys

/-- The walk 364, 728, 363, 727, …, 1, 365, 0 over the old state: positions 364 down to 0, and 728 down
to 365 between them (`42_sponge.md` R141, the equivalent form). -/
def walk {α : Type} (old : List α) : List α :=
  interleave (old.take 365).reverse (old.drop 365).reverse

/-- One round: `new[k] = f(old[p k], old[p (k+1)])` along the walk 0, 364, 728, …, 365, 0
(`42_sponge.md` R141). Every new element is computed from the old state alone (R142). -/
def roundList {α : Type} (f : α → α → α) (old : List α) : List α :=
  List.zipWith f (old.take 1 ++ walk old) (walk old)

theorem interleave_length {α : Type} (xs ys : List α) :
    (interleave xs ys).length = xs.length + ys.length := by
  fun_induction interleave xs ys with
  | case1 => simp
  | case2 => simp
  | case3 _ _ _ _ ih => simp [ih]; omega

theorem roundList_length {α : Type} (f : α → α → α) (old : List α) (h : old.length = Config.stateLen) :
    (roundList f old).length = Config.stateLen := by
  simp only [roundList, walk, List.length_zipWith, List.length_append, List.length_take, List.length_reverse,
    List.length_drop, interleave_length, h, Config.stateLen]
  omega

/-- One round on 729 elements (`42_sponge.md` R141, `43_bitsliced.md` R179). -/
def roundWith {α : Type} (f : α → α → α) (old : Vector α Config.stateLen) : Vector α Config.stateLen :=
  ⟨⟨roundList f old.toList⟩, roundList_length f old.toList (Vector.length_toList)⟩

/-- `n` rounds, one after the other. -/
def iterate {α : Type} (f : α → α) : (n : Nat) → α → α
  | 0, a => a
  | n + 1, a => iterate f n (f a)

/-- 27 rounds (`42_sponge.md` R143, `43_bitsliced.md` R180). -/
def permuteWith {α : Type} (f : α → α → α) (s : Vector α Config.stateLen) : Vector α Config.stateLen :=
  iterate (roundWith f) Config.rounds s

/-- Overwrite the input slot, keep the upper state: `t ++ s[243..729)` (`42_sponge.md` R144). -/
def overwriteSlot {α : Type} (s : Vector α Config.stateLen) (t : Vector α Config.hashLen) :
    Vector α Config.stateLen :=
  ⟨⟨t.toList ++ s.toList.drop Config.hashLen⟩, by simp [Config.stateLen, Config.hashLen]⟩

/-! ### The scalar sponge -/

/-- `round(old)` (`42_sponge.md` R141). -/
def spongeRound (s : Vector Trit Config.stateLen) : Vector Trit Config.stateLen := roundWith mixTrit s

/-- `permute(s)`, the Curl-P-27 permutation (`42_sponge.md` R143). -/
def permute (s : Vector Trit Config.stateLen) : Vector Trit Config.stateLen := permuteWith mixTrit s

/-- One chunk: overwrite the input slot, then permute (`42_sponge.md` R144). -/
def absorbChunk (s : Vector Trit Config.stateLen) (t : Vector Trit Config.hashLen) : Vector Trit Config.stateLen :=
  permute (overwriteSlot s t)

/-- `absorb(s, t, nchunks)`, the input given as its chunks of 243 trits (`42_sponge.md` R144). -/
def absorb (s : Vector Trit Config.stateLen) (chunks : List (Vector Trit Config.hashLen)) :
    Vector Trit Config.stateLen :=
  chunks.foldl absorbChunk s

/-- The first 243 trits of the state, which finalize converts (`42_sponge.md` R145). -/
def digestTrits (s : Vector Trit Config.stateLen) : List Trit := s.toList.take Config.hashLen

/-- `finalize(s)`: 81 symbols (`42_sponge.md` R145). -/
def finalize (s : Vector Trit Config.stateLen) : List SymIdx := tritsToSymbols (digestTrits s)

/-- The 81 cells S_FINALIZE and HASH write to DIGEST: `code(finalize(S)[j])` (`42_sponge.md` R153, R154). -/
def digestCells (s : Vector Trit Config.stateLen) : Vector Byte Config.hashSyms :=
  fitLength Config.hashSyms 0 ((finalize s).map symbolCode)

/-- `zeros(729)` (`00_scope.md` R13). -/
def zeroSponge : Vector Trit Config.stateLen := Vector.replicate Config.stateLen .zero

/-- The chunks of a trit sequence: 243 trits each, in order (`42_sponge.md` R144). -/
def tritChunks (n : Nat) (t : List Trit) : List (Vector Trit Config.hashLen) :=
  (List.range n).map fun c => fitLength Config.hashLen .zero (t.drop (Config.hashLen * c))

/-- `hash(input, length)` of a symbol sequence whose length is a positive multiple of 81 (`42_sponge.md` R146). -/
def hashSymbols (input : List SymIdx) : List SymIdx :=
  finalize (absorb zeroSponge (tritChunks (input.length / Config.hashSyms) (symbolsToTrits input)))

end Sys2Proof.Machine
end

