-- ==== Sys2Proof/Machine/Lanes.lean ====
section
/-! DEFINITION. Bit-sliced words and lanes, the boolean formulas c and d, and the bit-sliced permutation
(`30_encoding.md` R74, R75; `43_bitsliced.md` R170 to R180). A word is a number below 2^W (`00_scope.md` R15). -/

namespace Sys2Proof.Machine

open Sys2Proof

/-! ### Words of W bits -/

/-- `~w`, the complement within W bits (`00_scope.md` R15). -/
def wordNot (W : Nat) (w : LaneWord) : LaneWord := (2 ^ W - 1) - w

/-- `w << k` within W bits: a bit shifted beyond bit W-1 is lost (`00_scope.md` R15). -/
def wordShl (W : Nat) (w : LaneWord) (k : Nat) : LaneWord := (w <<< k) % 2 ^ W

/-- `w >> k`, zeros shifted in (`00_scope.md` R15). -/
def wordShr (w : LaneWord) (k : Nat) : LaneWord := w >>> k

/-- `Σ 2^(2i)` over the first `lanes` lanes. -/
def evenBits : (lanes : Nat) → Nat
  | 0 => 0
  | n + 1 => evenBits n + 2 ^ (2 * n)

/-- LOW_MASK: every even bit (`30_encoding.md` R75). -/
def lowMask (W : Nat) : LaneWord := evenBits (W / 2)

/-- HIGH_MASK = LOW_MASK << 1: every odd bit (`30_encoding.md` R75). -/
def highMask (W : Nat) : LaneWord := wordShl W (lowMask W) 1

/-! ### Lane codes -/

/-- `enc(t)`: the lane code h·2 + l of a trit (`30_encoding.md` R74). -/
def laneCode : Trit → Nat
  | .neg => 3
  | .zero => 1
  | .pos => 2

/-- `dec(c)`: the trit of a code; 0b00 is no trit (`30_encoding.md` R74, log 8). -/
def laneTrit : Nat → Option Trit
  | 1 => some .zero
  | 2 => some .pos
  | 3 => some .neg
  | _ => none

/-- `lane(w, i)`: bits 2i+1 and 2i (`43_bitsliced.md` R170, `20_memory.md` R60). -/
def laneOf (w : LaneWord) (i : Nat) : Nat := wordShr w (2 * i) % 4

/-- `decLane(w, i)` (`43_bitsliced.md` R170). -/
def laneTritOf (w : LaneWord) (i : Nat) : Option Trit := laneTrit (laneOf w i)

/-- `setlane(w, i, t)`: replace lane i, keep every other lane (`43_bitsliced.md` R172). -/
def setLane (W : Nat) (w : LaneWord) (i : Nat) (t : Trit) : LaneWord :=
  (w &&& wordNot W (wordShl W 3 (2 * i))) ||| wordShl W (laneCode t) (2 * i)

/-- `bc(t)`: the code of t in every lane (`43_bitsliced.md` R173). -/
def broadcast (W : Nat) (t : Trit) : LaneWord := lowMask W * laneCode t

/-- The word whose lane i holds the trit `f i`, for the first `lanes` lanes. -/
def wordOfLanes (f : Nat → Trit) : (lanes : Nat) → LaneWord
  | 0 => 0
  | n + 1 => wordOfLanes f n + laneCode (f n) * 2 ^ (2 * n)

/-! ### The boolean formulas -/

/-- `c(a)` (`43_bitsliced.md` R174, `90_conflicts.md` C2). -/
def mixC (W : Nat) (a : LaneWord) : LaneWord :=
  ((a ^^^ wordShr a 1) &&& lowMask W) ||| (wordShl W a 1 &&& highMask W)

/-- `d(b, c)` (`43_bitsliced.md` R175). -/
def mixD (W : Nat) (b c : LaneWord) : LaneWord :=
  c ^^^ (highMask W &&& b &&& wordShl W (b &&& c) 1) ^^^ (lowMask W &&& wordNot W b &&& wordShr (b &&& c) 1)

/-- `Tbs(x, y) = d(y, c(x))` (`43_bitsliced.md` R176). -/
def mixWord (W : Nat) (x y : LaneWord) : LaneWord := mixD W y (mixC W x)

/-! ### The bit-sliced permutation -/

/-- `bsRound(old)` (`43_bitsliced.md` R179). -/
def slicedRound (W : Nat) (ws : Vector LaneWord Config.stateLen) : Vector LaneWord Config.stateLen :=
  roundWith (mixWord W) ws

/-- `bsPermute(Ws)` (`43_bitsliced.md` R180). -/
def slicedPermute (W : Nat) (ws : Vector LaneWord Config.stateLen) : Vector LaneWord Config.stateLen :=
  permuteWith (mixWord W) ws

/-- `proj_i(Ws)`, the trits of lane i (`43_bitsliced.md` R171): none where a code is 0b00. -/
def projectLane (i : Nat) (ws : Vector LaneWord Config.stateLen) : Vector (Option Trit) Config.stateLen :=
  ws.map fun w => laneTritOf w i

end Sys2Proof.Machine
end

