-- ==== Sys2Proof/Machine/State.lean ====
section
/-! DEFINITION. The state of the core (`10_state.md` R20 to R42), the reasons a step can stop, and the state right
after a hard reset (`70_reset_and_hazards.md` R270). -/

namespace Sys2Proof.Machine

open Sys2Proof

/-- PHASE, a 2-bit register with four named values (`10_state.md` R31). -/
inductive Phase where
  /-- 0: no search context. -/
  | idle
  /-- 1: context built, not searching. -/
  | ready
  /-- 2: the engine takes search steps. -/
  | searching
  /-- 3: a winning lane is recorded. -/
  | found
  deriving DecidableEq, Repr

/-- The causes of an error (`60_exceptions.md` R241). Codes 8 to 15 are reserved and never written. -/
inductive ErrorCode where
  /-- The CMD word matches no row. -/
  | illegalCmd
  /-- SEARCHING, and the command is not NOP, SRESET or ABORT. -/
  | busy
  /-- len = 0, len mod 81 ≠ 0 or len > 2673. -/
  | length
  /-- m = 0 or m > 243. -/
  | param
  /-- The command's phase is not the present one. -/
  | sequence
  /-- A TX cell the command reads is no symbol code. -/
  | symbol
  /-- OFFSET + LANES > 2^64 - 1 before a batch. -/
  | offset
  deriving DecidableEq, Repr

/-- The two agents that take steps (`10_state.md` R20). -/
inductive Agent where
  | host
  | engine
  deriving DecidableEq, Repr

/-- One pending operation of the world outside the core, the model's own (log 1). The host's program is not
state of the core (`10_state.md` R40); its accesses wait here so that the step is one function of the state. -/
inductive HostOp where
  /-- `MemRead(addr, size)` (`20_memory.md` R51). -/
  | read (addr : HostAddr) (size : Nat)
  /-- `MemWrite(addr, size, value)` (`20_memory.md` R51). -/
  | write (addr : HostAddr) (size : Nat) (value : HostWord)
  /-- POLL: `RD addr` again and again until `(result & mask) == value` (`30_encoding.md` R84). -/
  | poll (addr : HostAddr) (mask value : HostWord)
  /-- WAITPOW: `RD 0x0001` until PHASE ≠ 2 or ERR = 1 (`30_encoding.md` R84). -/
  | waitPow
  /-- The last step of POW: POW_FINAL is written only if STATUS reads PHASE = 3 and ERR = 0 (`30_encoding.md` R84).
  The rule does not say which read of STATUS that is: here a `RD 0x0001` of its own, after the last one of
  WAITPOW (DESIGN CHOICE, log 11). -/
  | finalIfFound
  /-- Assertion of the reset input; `cells` is what TX, unspecified after a hard reset, then holds
  (`70_reset_and_hazards.md` R270, log 2). -/
  | hardReset (cells : List Host.Cell)
  deriving DecidableEq, Repr

/-- What the machine stops on: nothing. Every error of the spec is recorded in the error latch and the
machine goes on (`60_exceptions.md` R240, R243), and an unmapped address reads 0 and ignores writes
(`20_memory.md` R53), so this type has no constructor. Safe: no rule of the spec stops the core. -/
inductive Fault where
  deriving DecidableEq, Repr

/-- What the model gives no meaning to. -/
inductive Refusal where
  /-- Raised by `exec` for an instruction without a meaning; no arm of this model raises it. Safe. -/
  | notModelled (mnemonic : String)
  /-- Raised by a host access of a size other than 4: "such an access is refused, not given a meaning"
  (`20_memory.md` R51). Safe: the interface has no such access. -/
  | accessSize (size : Nat)
  deriving DecidableEq, Repr

/-- The machine's state. The fields down to `digest` are the spec's; the last four are the model's own. -/
structure State where
  /-- W and LANES: configuration, which no step changes (`10_state.md` R40, log 6). -/
  params : Params
  /-- S, 729 trits (R23). -/
  sponge : Vector Trit Config.stateLen
  /-- MID, 729 words of W bits (R24). -/
  mid : Vector LaneWord Config.stateLen
  /-- WORK, 729 words of W bits (R25). -/
  work : Vector LaneWord Config.stateLen
  /-- NONCE, 243 trits (R27). -/
  nonce : Vector Trit Config.hashLen
  /-- TRUNK, 243 trits (R27). -/
  trunk : Vector Trit Config.hashLen
  /-- BRANCH, 243 trits (R27). -/
  branch : Vector Trit Config.hashLen
  /-- MWM (R28). -/
  mwm : BitVec 8
  /-- OFFSET (R29). -/
  offset : BitVec 64
  /-- WIN_OFFSET (R30). -/
  winOffset : BitVec 64
  /-- WIN_LANE (R30). -/
  winLane : BitVec 16
  /-- PHASE (R31). -/
  phase : Phase
  /-- ERR, sticky (R33). -/
  err : Bool
  /-- ERRCODE (R34). -/
  errCode : BitVec 4
  /-- ERR_CMD (R35). -/
  errCmd : HostWord
  /-- ERR_INDEX (R36). -/
  errIndex : BitVec 12
  /-- TX (R37): cell j at host address 0x1000 + j, in canonical form (`Memory.wf`). -/
  tx : List Host.Cell
  /-- DIGEST (R38). -/
  digest : Vector Byte Config.hashSyms
  /-- The host's pending operations, in program order (log 1). -/
  host : List HostOp
  /-- Who takes the next turns (log 1). -/
  schedule : List Agent
  /-- The value the last host read returned (log 7). -/
  readData : HostWord
  /-- How many draws of free values have been made (log 4). -/
  draws : Nat
  deriving DecidableEq, Repr

/-- The state right after a hard reset of a build p whose TX then holds `tx` (`70_reset_and_hazards.md` R270).
MID, WORK, NONCE, TRUNK and BRANCH are unspecified there, and no host can observe them (R273): zero trits, in
every lane of MID and WORK (DESIGN CHOICE, log 3). -/
def State.powerOn (p : Params) (tx : List Host.Cell) : State where
  params := p
  sponge := zeroSponge
  mid := Vector.replicate Config.stateLen (broadcast p.wordBits .zero)
  work := Vector.replicate Config.stateLen (broadcast p.wordBits .zero)
  nonce := Vector.replicate Config.hashLen .zero
  trunk := Vector.replicate Config.hashLen .zero
  branch := Vector.replicate Config.hashLen .zero
  mwm := 0
  offset := 0
  winOffset := 0
  winLane := 0
  phase := .idle
  err := false
  errCode := 0
  errCmd := 0
  errIndex := 0
  tx := tx
  digest := Vector.replicate Config.hashSyms 0x00
  host := []
  schedule := []
  readData := 0
  draws := 0

/-- The default build right after a hard reset, no TX cell written yet (`70_reset_and_hazards.md` R270, R271). -/
def State.reset : State := State.powerOn Params.default []

end Sys2Proof.Machine
end

