-- ==== Sys2Proof/Machine/Flags.lean ====
section
/-! DEFINITION. The codes of PHASE and ERRCODE and the words the status registers read as (`20_memory.md` R52). The
core has no condition codes and no arithmetic flags (`10_state.md` R39): PHASE and ERR are its only flags. -/

namespace Sys2Proof.Machine

open Sys2Proof

/-- The 2-bit value of PHASE (`10_state.md` R31). -/
def Phase.toBits : Phase → BitVec 2
  | .idle => 0
  | .ready => 1
  | .searching => 2
  | .found => 3

/-- The 4-bit value of an error code (`60_exceptions.md` R241). -/
def ErrorCode.toBits : ErrorCode → BitVec 4
  | .illegalCmd => 1
  | .busy => 2
  | .length => 3
  | .param => 4
  | .sequence => 5
  | .symbol => 6
  | .offset => 7

/-- STATUS: [1:0] PHASE, [2] ERR, [3] 0, [7:4] ERRCODE, [31:8] 0 (`20_memory.md` R52). -/
def State.status (s : State) : HostWord :=
  (0 : BitVec 24) ++ s.errCode ++ (0 : BitVec 1) ++ BitVec.ofBool s.err ++ s.phase.toBits

/-- PARAMS: [15:0] W, [31:16] LANES (`20_memory.md` R52). -/
def paramsWord (p : Params) : HostWord :=
  BitVec.ofNat 16 p.lanes ++ BitVec.ofNat 16 p.wordBits

/-- A core search step is enabled iff PHASE = SEARCHING and ERR = 0 (`44_pow.md` R212, `10_state.md` R20). -/
def State.searchEnabled (s : State) : Bool := decide (s.phase = .searching) && !s.err

end Sys2Proof.Machine
end

