-- ==== Sys2Proof/Machine/Search.lean ====
section
/-! DEFINITION. The functions of the PoW search: the mid-state, the candidates of a batch, the batch, and the
difficulty check (`44_pow.md` R202 to R207). -/

namespace Sys2Proof.Machine

open Sys2Proof

/-- `midState(S)`: the input slot holds bc(0) and the upper state is broadcast (`44_pow.md` R202). -/
def midState (W : Nat) (s : Vector Trit Config.stateLen) : Vector LaneWord Config.stateLen :=
  overwriteSlot (s.map (broadcast W)) (Vector.replicate Config.hashLen (broadcast W .zero))

/-- The loop of `candidates`: each candidate is the one before it plus one (`44_pow.md` R203). -/
def candidateRun : (lanes : Nat) → Vector Trit Config.hashLen → List (Vector Trit Config.hashLen)
  | 0, _ => []
  | n + 1, t => t :: candidateRun n (incrementField t)

/-- `candidates(o)`: the nonce plus o, then one more for each lane (`44_pow.md` R203). -/
def candidates (lanes : Nat) (nonce : Vector Trit Config.hashLen) (o : Nat) :
    List (Vector Trit Config.hashLen) :=
  candidateRun lanes (addField nonce o)

/-- Write the trits t into lane i of the leading words; the words after them stay. -/
def writeLane (W i : Nat) : List LaneWord → List Trit → List LaneWord
  | [], _ => []
  | w :: ws, [] => w :: ws
  | w :: ws, t :: ts => setLane W w i t :: writeLane W i ws ts

theorem writeLane_length (W i : Nat) (ws : List LaneWord) (ts : List Trit) :
    (writeLane W i ws ts).length = ws.length := by
  fun_induction writeLane W i ws ts <;> simp_all

/-- Candidate i goes into lane i of words 0 to 242 (`44_pow.md` R205). -/
def seedLane (W i : Nat) (ws : Vector LaneWord Config.stateLen) (t : Vector Trit Config.hashLen) :
    Vector LaneWord Config.stateLen :=
  ⟨⟨writeLane W i ws.toList t.toList⟩, by simp [writeLane_length]⟩

/-- The candidates into lanes i, i+1, … (`44_pow.md` R205). -/
def seedLanes (W : Nat) : (i : Nat) → Vector LaneWord Config.stateLen → List (Vector Trit Config.hashLen) →
    Vector LaneWord Config.stateLen
  | _, ws, [] => ws
  | i, ws, t :: rest => seedLanes W (i + 1) (seedLane W i ws t) rest

/-- Absorb one field that is the same in every lane: words 0 to 242 become its broadcast trits, then the
bit-sliced permutation (`44_pow.md` R205). -/
def slicedAbsorb (W : Nat) (ws : Vector LaneWord Config.stateLen) (t : Vector Trit Config.hashLen) :
    Vector LaneWord Config.stateLen :=
  slicedPermute W (overwriteSlot ws (t.map (broadcast W)))

/-- `batch(o)`: the candidates, then trunk, then branch, with a permutation after each (`44_pow.md` R205). -/
def batch (p : Params) (mid : Vector LaneWord Config.stateLen) (nonce trunk branch : Vector Trit Config.hashLen)
    (o : Nat) : Vector LaneWord Config.stateLen :=
  let seeded := seedLanes p.wordBits 0 mid (candidates p.lanes nonce o)
  slicedAbsorb p.wordBits (slicedAbsorb p.wordBits (slicedPermute p.wordBits seeded) trunk) branch

/-- `ok_i`: the last `mwm` words of the digest prefix hold 0b01 in lane i (`44_pow.md` R206, `90_conflicts.md` C4). -/
def laneSucceeds (work : Vector LaneWord Config.stateLen) (mwm i : Nat) : Bool :=
  ((work.toList.take Config.hashLen).drop (Config.hashLen - mwm)).all fun w => laneOf w i == 1

/-- The least lane below LANES that succeeds (`44_pow.md` R206, R207). -/
def winningLane (p : Params) (work : Vector LaneWord Config.stateLen) (mwm : Nat) : Option Nat :=
  (List.range p.lanes).find? (laneSucceeds work mwm)

end Sys2Proof.Machine
end

