-- ==== Sys2Proof/Machine/Ops.lean ====
section
/-! DEFINITION. The named operations over TX and the registers: reading and writing cells, raising an error
(the core's exception entry), leaving the latched state, and the search step. -/

namespace Sys2Proof.Machine

open Sys2Proof

/-! ### TX as a list of cells -/

/-- The host address of TX[0] (`20_memory.md` R52). -/
abbrev txBase : Nat := 0x1000

/-- What a TX cell reads as that nothing has written: TX is unspecified after a hard reset
(`10_state.md` R37). DESIGN CHOICE 0x00, which is no symbol code (log 2). -/
def Memory.unlisted : Byte := 0x00

/-- The byte at address a. -/
def Memory.read : List Host.Cell → (a : Nat) → Byte
  | [], _ => Memory.unlisted
  | (b, v) :: rest, a => if b = a then v else Memory.read rest a

/-- Put v at address a: addresses stay rising, and a cell that reads as an unlisted one is not listed. -/
def Memory.write : List Host.Cell → (a : Nat) → (v : Byte) → List Host.Cell
  | [], a, v => if v = Memory.unlisted then [] else [(a, v)]
  | (b, w) :: rest, a, v =>
    if a < b then (if v = Memory.unlisted then (b, w) :: rest else (a, v) :: (b, w) :: rest)
    else if a = b then (if v = Memory.unlisted then rest else (a, v) :: rest)
    else (b, w) :: Memory.write rest a v

/-- Bytes into the addresses from a on, in increasing order. -/
def Memory.writeAll : List Host.Cell → (a : Nat) → (vs : List Byte) → List Host.Cell
  | m, _, [] => m
  | m, a, v :: vs => Memory.writeAll (Memory.write m a v) (a + 1) vs

/-- The n bytes from address a on. An entry at a is dropped once read, which changes no later read. -/
def Memory.readFrom : List Host.Cell → (a n : Nat) → List Byte
  | _, _, 0 => []
  | [], a, n + 1 => Memory.unlisted :: Memory.readFrom [] (a + 1) n
  | (b, v) :: rest, a, n + 1 =>
    if b = a then v :: Memory.readFrom rest (a + 1) n
    else Memory.read rest a :: Memory.readFrom ((b, v) :: rest) (a + 1) n

/-- An address of the TX window 0x1000 to 0x1A70 (`20_memory.md` R52). -/
def inTxWindow (a : Nat) : Bool := decide (txBase ≤ a) && decide (a < txBase + Config.txLen)

/-- TX as it stands after a hard reset that leaves these contents: cells outside the window are no cells. -/
def Memory.ofCells (cells : List Host.Cell) : List Host.Cell :=
  cells.foldl (fun m c => if inTxWindow c.1 then Memory.write m c.1 c.2 else m) []

/-- The canonical form: addresses strictly rising, all in the TX window, and no entry that reads as an
unlisted cell. -/
def Memory.wf : List Host.Cell → Bool
  | [] => true
  | [c] => inTxWindow c.1 && decide (c.2 ≠ Memory.unlisted)
  | c :: d :: rest => inTxWindow c.1 && decide (c.2 ≠ Memory.unlisted) && decide (c.1 < d.1) && Memory.wf (d :: rest)

/-- TX[j] (`10_state.md` R37). -/
def State.txCell (s : State) (j : Nat) : Byte := Memory.read s.tx (txBase + j)

/-- The cells TX[j] to TX[j+n-1]. -/
def txCells (tx : List Host.Cell) (j n : Nat) : List Byte :=
  Memory.readFrom (tx.filter fun c => decide (txBase + j ≤ c.1)) (txBase + j) n

/-- `txTrits(j, 81)`, the 243 trits of 81 cells (`41_codec.md` R126). -/
def txField (tx : List Host.Cell) (j : Nat) : Vector Trit Config.hashLen :=
  fitLength Config.hashLen .zero (cellsToTrits (txCells tx j Config.hashSyms))

/-- `txTrits(0, len)`, as the len / 81 chunks that absorb takes (`41_codec.md` R126, `42_sponge.md` R144). -/
def txChunks (tx : List Host.Cell) (len : Nat) : List (Vector Trit Config.hashLen) :=
  (List.range (len / Config.hashSyms)).map fun c => txField tx (Config.hashSyms * c)

/-- The lowest j < len whose cell is no symbol code (`60_exceptions.md` R242, check 6). -/
def lowestBadCell (tx : List Host.Cell) (len : Nat) : Option Nat :=
  (txCells tx 0 len).findIdx? fun b => !validSymbol b

/-! ### Raising an error, and leaving it -/

/-- `raise Error(code, info)` by the command word `cmd`: the whole of taking an exception. Nothing is saved
elsewhere, no mode changes and there is no vector (`60_exceptions.md` R243). -/
def State.raise (s : State) (code : ErrorCode) (cmd : HostWord) (info : Nat) : State :=
  { s with err := true, errCode := code.toBits, errCmd := cmd, errIndex := BitVec.ofNat 12 info }

/-- Every element of the core to its reset value, TX to the given contents: the only way out of the latched
state (`40_commands.md` R104, `60_exceptions.md` R246, `70_reset_and_hazards.md` R270, R272). The elements
without a reset value are drawn free (log 4). -/
def State.resetAll (s : State) (tx : List Host.Cell) : State :=
  { s with
    sponge := zeroSponge
    mid := Vector.ofFn fun k => wordOfLanes (Config.freeMid s.draws k.val) (s.params.wordBits / 2)
    work := Vector.ofFn fun k => wordOfLanes (Config.freeWork s.draws k.val) (s.params.wordBits / 2)
    nonce := Vector.ofFn fun k => Config.freeNonce s.draws k.val
    trunk := Vector.ofFn fun k => Config.freeTrunk s.draws k.val
    branch := Vector.ofFn fun k => Config.freeBranch s.draws k.val
    mwm := 0
    offset := 0
    winOffset := 0
    winLane := 0
    phase := .idle
    err := false
    errCode := 0
    errCmd := 0
    errIndex := 0
    tx := tx
    digest := Vector.replicate Config.hashSyms 0x00
    draws := s.draws + 1 }

/-! ### The search step -/

/-- A batch at the present OFFSET would break the bound: OFFSET + LANES > 2^64 - 1 (`44_pow.md` R208). -/
def State.offsetSpent (s : State) : Bool := decide (2 ^ 64 - 1 < s.offset.toNat + s.params.lanes)

/-- WORK after the batch at the present OFFSET (`44_pow.md` R205). -/
def State.batchWork (s : State) : Vector LaneWord Config.stateLen :=
  batch s.params s.mid s.nonce s.trunk s.branch s.offset.toNat

/-- What a batch that was evaluated does to the registers (`44_pow.md` R209). -/
def State.recordBatch (s : State) (work : Vector LaneWord Config.stateLen) : State :=
  match winningLane s.params work s.mwm.toNat with
  | some i =>
    { s with work := work, winLane := BitVec.ofNat 16 i, winOffset := s.offset + BitVec.ofNat 64 i, phase := .found }
  | none => { s with work := work, offset := s.offset + BitVec.ofNat 64 s.params.lanes }

/-- `searchStep(errCmd)`: one batch, or the OFFSET error (`44_pow.md` R209, `60_exceptions.md` R244). -/
def State.searchStep (s : State) (errCmd : HostWord) : State :=
  if s.offsetSpent then s.raise .offset errCmd 0 else s.recordBatch s.batchWork

end Sys2Proof.Machine
end

