-- ==== Sys2Proof/Machine/Operands.lean ====
section
/-! DEFINITION. What every command goes through before its effect: the error latch (`40_commands.md` R100,
`60_exceptions.md` R245) and the checks of `60_exceptions.md` R242. Each operation takes the state s, the command
word v, and the state `done` that the command reaches where the check passes. A command lists its checks
in the order of R242, so the first that fails raises its error and nothing else happens (R102, R248). -/

namespace Sys2Proof.Machine

open Sys2Proof

/-- While ERR = 1 the word is ignored (`60_exceptions.md` R245). -/
def State.unlessLatched (s : State) (done : State) : State := if s.err then s else done

/-- Check 2, BUSY: PHASE = SEARCHING (`60_exceptions.md` R242). -/
def State.checkBusy (s : State) (v : HostWord) (done : State) : State :=
  if s.phase = .searching then s.raise .busy v 0 else done

/-- A length the absorbing commands accept: a positive multiple of 81, at most 2673 (`00_scope.md` R10). -/
def lengthAccepted (len : Nat) : Bool :=
  decide (0 < len) && decide (len % Config.hashSyms = 0) && decide (len ≤ Config.txLen)

/-- Check 3, LENGTH (`60_exceptions.md` R242). -/
def State.checkLength (s : State) (v : HostWord) (len : Nat) (done : State) : State :=
  if lengthAccepted len then done else s.raise .length v 0

/-- A difficulty POW_INIT accepts: 1 to 243 (`00_scope.md` R9). -/
def mwmAccepted (m : Nat) : Bool := decide (1 ≤ m) && decide (m ≤ Config.hashLen)

/-- Check 4, PARAM (`60_exceptions.md` R242). -/
def State.checkParam (s : State) (v : HostWord) (m : Nat) (done : State) : State :=
  if mwmAccepted m then done else s.raise .param v 0

/-- Check 5, SEQUENCE: the command runs only in the phase p (`60_exceptions.md` R242). -/
def State.checkSequence (s : State) (v : HostWord) (p : Phase) (done : State) : State :=
  if s.phase = p then done else s.raise .sequence v 0

/-- Check 6, SYMBOL over TX[0..len), recording the lowest bad index (`60_exceptions.md` R242). -/
def State.checkSymbols (s : State) (v : HostWord) (len : Nat) (done : State) : State :=
  match lowestBadCell s.tx len with
  | some j => s.raise .symbol v j
  | none => done

end Sys2Proof.Machine
end

