-- ==== Sys2Proof/Machine/Control.lean ====
section
/-! DEFINITION. The control commands NOP, SRESET and ABORT (`40_commands.md` R103 to R105). -/

namespace Sys2Proof.Machine

open Sys2Proof

/-- NOP: no state change, in every PHASE (`40_commands.md` R103). -/
def execNop (s : State) : Host.Outcome State Fault Refusal :=
  .next (s.unlessLatched s)

/-- SRESET: every state element but TX to its reset value, in every PHASE and also while ERR = 1
(`40_commands.md` R100, R104). -/
def execSreset (s : State) : Host.Outcome State Fault Refusal :=
  .next (s.resetAll s.tx)

/-- ABORT: SEARCHING becomes READY; otherwise no state change (`40_commands.md` R105). -/
def execAbort (s : State) : Host.Outcome State Fault Refusal :=
  .next (s.unlessLatched (if s.phase = .searching then { s with phase := .ready } else s))

end Sys2Proof.Machine
end

