-- ==== Sys2Proof/Machine/PowCommands.lean ====
section
/-! DEFINITION. The commands of the PoW search and the core's own search step
(`44_pow.md` R201, R210 to R213). -/

namespace Sys2Proof.Machine

open Sys2Proof

/-- The scalar state POW_INIT leaves in S: the header absorbed from the zero state (`44_pow.md` R201). -/
def headerState (tx : List Host.Cell) : Vector Trit Config.stateLen :=
  absorb zeroSponge (txChunks tx Config.headerLen)

/-- POW_INIT m: build the search context from TX (`44_pow.md` R201). -/
def execPowInit (m : Nat) (s : State) : Host.Outcome State Fault Refusal :=
  let v := encode (.powInit m)
  let header := headerState s.tx
  .next (s.unlessLatched (s.checkBusy v (s.checkParam v m (s.checkSymbols v Config.txLen
    { s with
      sponge := header
      mid := midState s.params.wordBits header
      nonce := txField s.tx Config.nonceOff
      trunk := txField s.tx Config.trunkOff
      branch := txField s.tx Config.branchOff
      mwm := BitVec.ofNat 8 m
      offset := 0
      winOffset := 0
      winLane := 0
      phase := .ready }))))

/-- POW_STEP: one batch; an OFFSET error records this command's word (`44_pow.md` R210). -/
def execPowStep (s : State) : Host.Outcome State Fault Refusal :=
  let v := encode .powStep
  .next (s.unlessLatched (s.checkBusy v (s.checkSequence v .ready (s.searchStep v))))

/-- POW_RUN: start the search in the background; it evaluates no batch itself (`44_pow.md` R211). -/
def execPowRun (s : State) : Host.Outcome State Fault Refusal :=
  let v := encode .powRun
  .next (s.unlessLatched (s.checkBusy v (s.checkSequence v .ready { s with phase := .searching })))

/-- The cells POW_FINAL writes: the codes of NONCE + WIN_OFFSET, the carry discarded (`44_pow.md` R213). -/
def State.winningCells (s : State) : List Byte :=
  tritsToCells (addField s.nonce s.winOffset.toNat).toList

/-- POW_FINAL: splice the winning nonce into TX[2430..2511) (`44_pow.md` R213). -/
def execPowFinal (s : State) : Host.Outcome State Fault Refusal :=
  let v := encode .powFinal
  .next (s.unlessLatched (s.checkBusy v (s.checkSequence v .found
    { s with
      tx := Memory.writeAll s.tx (txBase + Config.nonceOff) s.winningCells
      phase := .idle })))

/-- The core's own search step: taken only while enabled; an OFFSET error records the POW_RUN word
0x00000022 (`44_pow.md` R212, `60_exceptions.md` R244). -/
def engineTurn (s : State) : State :=
  if s.searchEnabled then s.searchStep 0x00000022 else s

end Sys2Proof.Machine
end

