-- ==== Sys2Proof/Machine/SpongeCommands.lean ====
section
/-! DEFINITION. The commands on the scalar state (`42_sponge.md` R150 to R154). -/

namespace Sys2Proof.Machine

open Sys2Proof

/-- S_CLEAR: `S <- zeros(729)` (`42_sponge.md` R150). -/
def execSClear (s : State) : Host.Outcome State Fault Refusal :=
  let v := encode .sClear
  .next (s.unlessLatched (s.checkBusy v { s with sponge := zeroSponge }))

/-- S_ABSORB len: `S <- absorb(S, txTrits(0, len), len / 81)` (`42_sponge.md` R151). -/
def execSAbsorb (len : Nat) (s : State) : Host.Outcome State Fault Refusal :=
  let v := encode (.sAbsorb len)
  .next (s.unlessLatched (s.checkBusy v (s.checkLength v len (s.checkSymbols v len
    { s with sponge := absorb s.sponge (txChunks s.tx len) }))))

/-- S_PERMUTE: `S <- permute(S)` (`42_sponge.md` R152). -/
def execSPermute (s : State) : Host.Outcome State Fault Refusal :=
  let v := encode .sPermute
  .next (s.unlessLatched (s.checkBusy v { s with sponge := permute s.sponge }))

/-- S_FINALIZE: the digest of S into DIGEST (`42_sponge.md` R153). -/
def execSFinalize (s : State) : Host.Outcome State Fault Refusal :=
  let v := encode .sFinalize
  .next (s.unlessLatched (s.checkBusy v { s with digest := digestCells s.sponge }))

/-- HASH len: S_CLEAR, S_ABSORB len and S_FINALIZE as one command (`42_sponge.md` R154). -/
def execHash (len : Nat) (s : State) : Host.Outcome State Fault Refusal :=
  let v := encode (.hash len)
  let final := absorb zeroSponge (txChunks s.tx len)
  .next (s.unlessLatched (s.checkBusy v (s.checkLength v len (s.checkSymbols v len
    { s with sponge := final, digest := digestCells final }))))

end Sys2Proof.Machine
end

