-- ==== Sys2Proof/Machine/Dispatch.lean ====
section
/-! DEFINITION. One arm per command: what writing its word to CMD does (`40_commands.md` R100). -/

namespace Sys2Proof.Machine

open Sys2Proof

def exec (i : Instr) (s : State) : Host.Outcome State Fault Refusal :=
  match i with
  | .nop => Sys2Proof.Machine.execNop s
  | .sreset => Sys2Proof.Machine.execSreset s
  | .abort => Sys2Proof.Machine.execAbort s
  | .sClear => Sys2Proof.Machine.execSClear s
  | .sAbsorb len => Sys2Proof.Machine.execSAbsorb len s
  | .sPermute => Sys2Proof.Machine.execSPermute s
  | .sFinalize => Sys2Proof.Machine.execSFinalize s
  | .hash len => Sys2Proof.Machine.execHash len s
  | .powInit m => Sys2Proof.Machine.execPowInit m s
  | .powStep => Sys2Proof.Machine.execPowStep s
  | .powRun => Sys2Proof.Machine.execPowRun s
  | .powFinal => Sys2Proof.Machine.execPowFinal s

end Sys2Proof.Machine
end

