-- ==== Sys2Proof/Machine/Bus.lean ====
section
/-! DEFINITION. The host's side of the core: the address map, reads and writes of it, the issue of a command, and
the turns of the host (`20_memory.md` R50 to R57, `40_commands.md` R100, `30_encoding.md` R84). -/

namespace Sys2Proof.Machine

open Sys2Proof

/-- An address of the DIGEST window 0x0100 to 0x0150 (`20_memory.md` R52). -/
def inDigestWindow (a : Nat) : Bool := decide (0x0100 ≤ a) && decide (a < 0x0100 + Config.hashSyms)

/-- `MemRead(a, 4)`: the value of location a. No read has a side effect (`20_memory.md` R52 to R57); CMD and
every unmapped address read 0 (R53). -/
def State.memRead (s : State) (addr : HostAddr) : HostWord :=
  let a := addr.toNat
  if a = 0x0001 then s.status
  else if a = 0x0002 then paramsWord s.params
  else if a = 0x0003 then s.mwm.setWidth 32
  else if a = 0x0004 then s.offset.extractLsb' 0 32
  else if a = 0x0005 then s.offset.extractLsb' 32 32
  else if a = 0x0006 then s.winOffset.extractLsb' 0 32
  else if a = 0x0007 then s.winOffset.extractLsb' 32 32
  else if a = 0x0008 then s.winLane.setWidth 32
  else if a = 0x0009 then s.errCmd
  else if a = 0x000A then s.errIndex.setWidth 32
  else if inDigestWindow a then (s.digest.toList.getD (a - 0x0100) 0).setWidth 32
  else if inTxWindow a then (Memory.read s.tx a).setWidth 32
  else 0

/-- `Dispatch(v)`: the row's rule, or ILLEGAL_CMD, the first of the checks; while ERR = 1 an illegal word is
ignored like every word but SRESET (`40_commands.md` R100, `60_exceptions.md` R242, R245). -/
def State.issue (s : State) (v : HostWord) : Host.Outcome State Fault Refusal :=
  match decode v with
  | .ok i => exec i s
  | .error _ => .next (s.unlessLatched (s.raise .illegalCmd v 0))

/-- `MemWrite(a, 4, v)`: CMD issues a command, a TX cell takes v[7:0], and every other address ignores the
write (`20_memory.md` R53, R54, R56). -/
def State.memWrite (s : State) (addr : HostAddr) (v : HostWord) : Host.Outcome State Fault Refusal :=
  if addr.toNat = 0x0000 then s.issue v
  else if inTxWindow addr.toNat then .next { s with tx := Memory.write s.tx addr.toNat (v.setWidth 8) }
  else .next s

/-- A hard reset that leaves TX with these cells (`70_reset_and_hazards.md` R270). -/
def State.hardReset (s : State) (cells : List Host.Cell) : State := s.resetAll (Memory.ofCells cells)

/-- STATUS reads PHASE ≠ 2 or ERR = 1, on which WAITPOW ends (`30_encoding.md` R84). -/
def searchOver (status : HostWord) : Bool := decide (status &&& 3 ≠ 2) || decide (status &&& 4 ≠ 0)

/-- STATUS reads PHASE = 3 and ERR = 0, on which POW writes POW_FINAL (`30_encoding.md` R84); which read of STATUS
it looks at is log 11. -/
def foundWithoutError (status : HostWord) : Bool := decide (status &&& 7 = 3)

/-- The first pending operation of the host, one access of it. A poll whose condition does not hold yet stays
at the head of the list (`30_encoding.md` R84). That the check before POW's POW_FINAL is one more access, a read of
STATUS after WAITPOW's last, and the POW_FINAL write the access after it, is the model's own: R84 does not say
(DESIGN CHOICE, log 11). -/
def hostTurn (s : State) : Host.Outcome State Fault Refusal :=
  match s.host with
  | [] => .next s
  | .read addr size :: rest =>
    if size = 4 then .next { s with host := rest, readData := s.memRead addr } else .refused (.accessSize size)
  | .write addr size v :: rest =>
    if size = 4 then State.memWrite { s with host := rest } addr v else .refused (.accessSize size)
  | .poll addr mask value :: rest =>
    if s.memRead addr &&& mask = value then .next { s with host := rest, readData := s.memRead addr }
    else .next { s with readData := s.memRead addr }
  | .waitPow :: rest =>
    if searchOver s.status then .next { s with host := rest, readData := s.status }
    else .next { s with readData := s.status }
  | .finalIfFound :: rest =>
    if foundWithoutError s.status then
      .next { s with host := .write 0x0000 4 (encode .powFinal) :: rest, readData := s.status }
    else .next { s with host := rest, readData := s.status }
  | .hardReset cells :: rest => .next (State.hardReset { s with host := rest } cells)

/-- The turn of one agent. -/
def turn (a : Agent) (s : State) : Host.Outcome State Fault Refusal :=
  match a with
  | .host => hostTurn s
  | .engine => .next (engineTurn s)

/-- Who moves where the schedule says nothing: the engine whenever it is enabled, else the host. So a search
step that stays enabled is taken (`44_pow.md` R212, log 1). -/
def State.defaultAgent (s : State) : Agent := if s.searchEnabled then .engine else .host

/-- One step of the whole: a turn of the agent that the schedule names, in one total order
(`20_memory.md` R64). -/
def scheduledTurn (s : State) : Host.Outcome State Fault Refusal :=
  match s.schedule with
  | a :: rest => turn a { s with schedule := rest }
  | [] => turn s.defaultAgent s

/-- A CMD write of the word v in front of the host's pending operations, and the next turn for the host. -/
def State.withCommand (s : State) (v : HostWord) : State :=
  { s with host := .write 0x0000 4 v :: s.host, schedule := .host :: s.schedule }

end Sys2Proof.Machine
end

