-- ==== Sys2Proof/Machine/Step.lean ====
section
/-! DEFINITION. One step of the machine, and how a command comes to be its next step. -/

namespace Sys2Proof.Machine

open Sys2Proof

/-- One step: one host access, with any command it issues, or one search step of the core
(`20_memory.md` R64). -/
def step (s : State) : Host.Outcome State Fault Refusal := scheduledTurn s

/-- s with the command whose bits are w as the host's next access. The core fetches no instructions
(`10_state.md` R22): a command runs because the host writes it to CMD (log 1). -/
def State.withFetchWord (s : State) (nbits w : Nat) : State :=
  s.withCommand (BitVec.ofNat 32 (w % 2 ^ nbits))

end Sys2Proof.Machine
end

