-- ==== Sys2Proof/Machine/HostProgram.lean ====
section
/-! DEFINITION. The host program syntax and its pseudo-instructions (`30_encoding.md` R83, R84): the text of a line,
what the line means, and the accesses it becomes. A host program is not state of the core (`10_state.md` R40):
its accesses join the host's pending operations. -/

namespace Sys2Proof.Machine

open Sys2Proof

/-- A line of a host program (`30_encoding.md` R83, R84). -/
inductive HostLine where
  /-- `WR <addr>, <value>`. -/
  | wr (addr value : Nat)
  /-- `RD <addr>`. The value a program expects is a comment to its reader: R83 gives it no place in the line
  (DESIGN CHOICE, log 12). -/
  | rd (addr : Nat)
  /-- `<MNEMONIC>`, with its operand where the format has one. -/
  | command (i : Instr)
  /-- `LOADTX <j>, "<string>"`. -/
  | loadTx (j : Nat) (symbols : List SymIdx)
  /-- `FILLTX <j>, <n>, '<ch>'`. -/
  | fillTx (j n : Nat) (symbol : SymIdx)
  /-- `POLL <addr>, <mask>, <value>`. -/
  | poll (addr mask value : Nat)
  /-- `WAITPOW`. -/
  | waitPow
  /-- `POW <m>`. -/
  | pow (m : Nat)
  deriving DecidableEq, Repr

/-- `MemWrite(addr, 4, value)`. -/
def writeOp (addr value : Nat) : HostOp := .write (BitVec.ofNat 16 addr) 4 (BitVec.ofNat 32 value)

/-- The write of a command's word to CMD (`30_encoding.md` R83). -/
def commandOp (i : Instr) : HostOp := .write 0x0000 4 (encode i)

/-- The writes of symbols to the TX cells from TX[j] on, in increasing order (`30_encoding.md` R84). -/
def loadOps (j : Nat) (symbols : List SymIdx) : List HostOp :=
  symbols.zipIdx.map fun c => writeOp (txBase + j + c.2) (symbolCode c.1).toNat

/-- The accesses a line becomes (`30_encoding.md` R83, R84). -/
def HostLine.expand : HostLine → List HostOp
  | .wr addr value => [writeOp addr value]
  | .rd addr => [.read (BitVec.ofNat 16 addr) 4]
  | .command i => [commandOp i]
  | .loadTx j symbols => loadOps j symbols
  | .fillTx j n symbol => loadOps j (List.replicate n symbol)
  | .poll addr mask value => [.poll (BitVec.ofNat 16 addr) (BitVec.ofNat 32 mask) (BitVec.ofNat 32 value)]
  | .waitPow => [.waitPow]
  -- The last access checks STATUS by a read of its own: DESIGN CHOICE, log 11.
  | .pow m => [commandOp (.powInit m), commandOp .powRun, .waitPow, .finalIfFound]

/-! ### The text of a line -/

/-- The symbol a character names (`30_encoding.md` R70, R71). -/
def symbolOfChar (c : Char) : Option SymIdx :=
  if c.toNat < 256 ∧ validSymbol (BitVec.ofNat 8 c.toNat) then some (symbolOf (BitVec.ofNat 8 c.toNat)) else none

/-- The value of a hexadecimal digit, a letter of either case (DESIGN CHOICE, log 12). -/
def digitValue (c : Char) : Option Nat :=
  if '0'.toNat ≤ c.toNat ∧ c.toNat ≤ '9'.toNat then some (c.toNat - '0'.toNat)
  else if 'a'.toNat ≤ c.toNat ∧ c.toNat ≤ 'f'.toNat then some (c.toNat - 'a'.toNat + 10)
  else if 'A'.toNat ≤ c.toNat ∧ c.toNat ≤ 'F'.toNat then some (c.toNat - 'A'.toNat + 10)
  else none

/-- The digits of a number to the given base, most significant first. -/
def digitsValue (base acc : Nat) : List Char → Option Nat
  | [] => some acc
  | c :: cs =>
    match digitValue c with
    | some d => if d < base then digitsValue base (base * acc + d) cs else none
    | none => none

/-- A number: decimal unless prefixed `0x` (`30_encoding.md` R83). Leading zeros are allowed, and `0X` is no prefix
(DESIGN CHOICE, log 12). -/
def numberOf : List Char → Option Nat
  | [] => none
  | ['0', 'x'] => none
  | '0' :: 'x' :: cs => digitsValue 16 0 cs
  | c :: cs => digitsValue 10 0 (c :: cs)

/-- The text before a comment: `;` starts one (`30_encoding.md` R83), within quotes too (DESIGN CHOICE, log 12). -/
def withoutComment (cs : List Char) : List Char := cs.takeWhile fun c => c != ';'

/-- Cut at every character that satisfies `sep`; empty pieces are left out. `acc` is the piece so far, reversed. -/
def cutAt (sep : Char → Bool) (acc : List Char) : List Char → List (List Char)
  | [] => if acc = [] then [] else [acc.reverse]
  | c :: cs =>
    if sep c then (if acc = [] then cutAt sep [] cs else acc.reverse :: cutAt sep [] cs) else cutAt sep (c :: acc) cs

/-- The words of a line, parted by blanks, tabs, carriage returns and commas alike, any number of them in a row and
at either end of the line. `30_encoding.md` R83 writes a comma between two operands and says nothing of other
separators, so that `WR 0x1000 0x41` and `WR 0x1000,, 0x41` are read as `WR 0x1000, 0x41`, and that a carriage return
parts words or ends a line like a blank, is the model's own (DESIGN CHOICE, log 12). -/
def wordsOf (cs : List Char) : List (List Char) :=
  cutAt (fun c => c == ' ' || c == ',' || c == '\t' || c == '\r') [] (withoutComment cs)

/-- The text between two quote characters with the given code; it may be empty (DESIGN CHOICE, log 12). -/
def unquote (quote : Nat) (cs : List Char) : Option (List Char) :=
  match cs with
  | [] => none
  | c :: rest =>
    if c.toNat = quote ∧ (rest.getLast?.map Char.toNat) = some quote then some rest.dropLast else none

/-- The symbols of a quoted text. -/
def quotedSymbols (quote : Nat) (cs : List Char) : Option (List SymIdx) :=
  (unquote quote cs).bind fun inner => inner.mapM symbolOfChar

/-- The command a mnemonic of a format without operand names (`30_encoding.md` R80). -/
def plainCommand (mnemonic : List Char) : Option Instr :=
  if mnemonic = ['N', 'O', 'P'] then some .nop
  else if mnemonic = ['S', 'R', 'E', 'S', 'E', 'T'] then some .sreset
  else if mnemonic = ['A', 'B', 'O', 'R', 'T'] then some .abort
  else if mnemonic = ['S', '_', 'C', 'L', 'E', 'A', 'R'] then some .sClear
  else if mnemonic = ['S', '_', 'P', 'E', 'R', 'M', 'U', 'T', 'E'] then some .sPermute
  else if mnemonic = ['S', '_', 'F', 'I', 'N', 'A', 'L', 'I', 'Z', 'E'] then some .sFinalize
  else if mnemonic = ['P', 'O', 'W', '_', 'S', 'T', 'E', 'P'] then some .powStep
  else if mnemonic = ['P', 'O', 'W', '_', 'R', 'U', 'N'] then some .powRun
  else if mnemonic = ['P', 'O', 'W', '_', 'F', 'I', 'N', 'A', 'L'] then some .powFinal
  else none

/-- A line whose numbers fit what it becomes: an address is 16 bits and a value 32 (`20_memory.md` R50), and an
operand fits its field (`30_encoding.md` R76). That another line is not in the syntax, and is rejected, is the
model's own (DESIGN CHOICE, log 12). -/
def HostLine.fits : HostLine → Bool
  | .wr addr value => decide (addr < 2 ^ 16) && decide (value < 2 ^ 32)
  | .rd addr => decide (addr < 2 ^ 16)
  | .command i => i.wellFormed
  | .loadTx j symbols => decide (txBase + j + symbols.length ≤ 2 ^ 16)
  | .fillTx j n _ => decide (txBase + j + n ≤ 2 ^ 16)
  | .poll addr mask value => decide (addr < 2 ^ 16) && decide (mask < 2 ^ 32) && decide (value < 2 ^ 32)
  | .waitPow => true
  | .pow m => (Instr.powInit m).wellFormed

/-- A line with one number: RD, POW, and the commands of the formats CL and CM (`30_encoding.md` R80, R83, R84). -/
def unaryLine (name : List Char) (n : Nat) : Option HostLine :=
  if name = ['R', 'D'] then some (.rd n)
  else if name = ['P', 'O', 'W'] then some (.pow n)
  else if name = ['S', '_', 'A', 'B', 'S', 'O', 'R', 'B'] then some (.command (.sAbsorb n))
  else if name = ['H', 'A', 'S', 'H'] then some (.command (.hash n))
  else if name = ['P', 'O', 'W', '_', 'I', 'N', 'I', 'T'] then some (.command (.powInit n))
  else none

/-- The meaning of a line's words (`30_encoding.md` R83, R84). -/
def lineOfWords (words : List (List Char)) : Option HostLine :=
  match words with
  | [name] => if name = ['W', 'A', 'I', 'T', 'P', 'O', 'W'] then some .waitPow else (plainCommand name).map .command
  | [name, a] => (numberOf a).bind (unaryLine name)
  | [name, a, b] =>
    if name = ['W', 'R'] then (numberOf a).bind fun x => (numberOf b).map fun y => .wr x y
    else if name = ['L', 'O', 'A', 'D', 'T', 'X'] then
      (numberOf a).bind fun x => (quotedSymbols 34 b).map fun symbols => .loadTx x symbols
    else none
  | [name, a, b, c] =>
    if name = ['F', 'I', 'L', 'L', 'T', 'X'] then
      (numberOf a).bind fun x => (numberOf b).bind fun y => (quotedSymbols 39 c).bind fun symbols =>
        match symbols with
        | [symbol] => some (.fillTx x y symbol)
        | _ => none
    else if name = ['P', 'O', 'L', 'L'] then
      (numberOf a).bind fun x => (numberOf b).bind fun y => (numberOf c).map fun z => .poll x y z
    else none
  | _ => none

/-- The accesses of one line of text; a line of only a comment, or an empty one, is no access (DESIGN CHOICE,
log 12). -/
def assembleLine (cs : List Char) : Option (List HostOp) :=
  match wordsOf cs with
  | [] => some []
  | words => ((lineOfWords words).filter HostLine.fits).map HostLine.expand

/-- The accesses of a program text, line by line (`30_encoding.md` R83). That only a line feed ends a line, and that one
line outside the syntax rejects the whole text, is the model's own (DESIGN CHOICE, log 12). -/
def assemble (text : List Char) : Option (List HostOp) :=
  ((cutAt (fun c => c == '\n') [] text).mapM assembleLine).map List.flatten

/-- The host goes on with these accesses after its pending ones. -/
def State.withProgram (s : State) (ops : List HostOp) : State := { s with host := s.host ++ ops }

end Sys2Proof.Machine
end

