-- ==== Sys2Proof/Safety.lean ====
section
/-! DEFINITION. The terms the claims use: the lane-code invariant and the machine's invariant, what the spec's
checks say of a command word, what a step does, and what a search is for. Nothing of the machine depends on
this file. -/

namespace Sys2Proof.Machine

open Sys2Proof

/-! ### Lanes -/

/-- A word of W bits whose every lane holds one of the three trit codes (`10_state.md` R41). -/
def WordValid (W : Nat) (w : LaneWord) : Prop :=
  w < 2 ^ W ∧ ∀ i < W / 2, laneOf w i ≠ 0

/-- Every word is a W-bit word with valid lanes (`10_state.md` R41, `43_bitsliced.md` R182). -/
def WordsValid (W : Nat) (ws : Vector LaneWord Config.stateLen) : Prop :=
  ∀ w ∈ ws.toList, WordValid W w

/-- Every word is a W-bit word (`00_scope.md` R15). -/
def WordsBounded (W : Nat) (ws : Vector LaneWord Config.stateLen) : Prop :=
  ∀ w ∈ ws.toList, w < 2 ^ W

/-- Lane i of every word holds the trit of s at that position (`43_bitsliced.md` R171). -/
def LaneHolds (i : Nat) (ws : Vector LaneWord Config.stateLen) (s : Vector Trit Config.stateLen) : Prop :=
  projectLane i ws = s.map some

/-- What c does to one lane code (`43_bitsliced.md` R177). -/
def laneCodeC : Nat → Nat
  | 1 => 3
  | 2 => 1
  | 3 => 2
  | _ => 0

/-- What Tbs does to a pair of lane codes x and y (`43_bitsliced.md` R177). -/
def laneCodeT (x y : Nat) : Nat :=
  match laneTrit x, laneTrit y with
  | some a, some b => laneCode (mixTrit a b)
  | some _, none => laneCodeC x
  | none, _ => 0

/-! ### The invariant -/

/-- ERRCODE, ERR_CMD and ERR_INDEX are 0 while ERR = 0; while ERR = 1 the code is one of 1 to 7, and only SYMBOL
records an index, which is one of TX (`10_state.md` R34 to R36, `60_exceptions.md` R241). -/
def ErrorRecordOk (s : State) : Prop :=
  (s.err = false → s.errCode = 0 ∧ s.errCmd = 0 ∧ s.errIndex = 0) ∧
  (s.err = true → 1 ≤ s.errCode.toNat ∧ s.errCode.toNat ≤ 7 ∧ s.errIndex.toNat < Config.txLen ∧
    (s.errCode ≠ 6 → s.errIndex = 0))

/-- What holds of the search registers outside IDLE: MWM is legal (`10_state.md` R28), MID is a mid-state
(`44_pow.md` R202), no result is recorded before FOUND, and in FOUND the recorded lane is one of the batch at
OFFSET (`44_pow.md` R209). -/
def SearchRegistersOk (s : State) : Prop :=
  s.phase ≠ .idle →
    (1 ≤ s.mwm.toNat ∧ s.mwm.toNat ≤ Config.hashLen) ∧
    (∃ header, s.mid = midState s.params.wordBits header) ∧
    (s.phase ≠ .found → s.winOffset = 0 ∧ s.winLane = 0) ∧
    (s.phase = .found → s.winLane.toNat < s.params.lanes ∧
      s.winOffset.toNat = s.offset.toNat + s.winLane.toNat ∧ s.offset.toNat + s.params.lanes ≤ 2 ^ 64 - 1)

/-- DIGEST holds 0x00 in every cell, or 81 symbol codes (`10_state.md` R38, `70_reset_and_hazards.md` R280). -/
def DigestOk (s : State) : Prop :=
  (∀ b ∈ s.digest.toList, b = 0) ∨ (∀ b ∈ s.digest.toList, validSymbol b = true)

/-- The invariant of the machine: every step keeps it. -/
structure Inv (s : State) : Prop where
  /-- TX is in its canonical form. -/
  tx_wf : Memory.wf s.tx = true
  /-- The lane-code invariant of MID and WORK (`10_state.md` R41). -/
  mid_valid : WordsValid s.params.wordBits s.mid
  work_valid : WordsValid s.params.wordBits s.work
  error_record : ErrorRecordOk s
  search_registers : SearchRegistersOk s
  digest : DigestOk s

/-! ### What a command word raises, and what a step does -/

/-- The command is one of NOP, SRESET and ABORT, which are accepted in every PHASE (`60_exceptions.md` R242). -/
def controlOpcode (opc : Nat) : Bool := opc == 0x00 || opc == 0x01 || opc == 0x02

/-- (OPC, match, mask) of the twelve rows, as the table of `30_encoding.md` R80 writes them. -/
def rowTable : List (Nat × HostWord × HostWord) :=
  [(0x00, 0x00000000, 0xFFFFFFFF), (0x01, 0x00000001, 0xFFFFFFFF), (0x02, 0x00000002, 0xFFFFFFFF),
   (0x10, 0x00000010, 0xFFFFFFFF), (0x11, 0x00000011, 0xF000FFFF), (0x12, 0x00000012, 0xFFFFFFFF),
   (0x13, 0x00000013, 0xFFFFFFFF), (0x14, 0x00000014, 0xF000FFFF), (0x20, 0x00000020, 0xFFFF00FF),
   (0x21, 0x00000021, 0xFFFFFFFF), (0x22, 0x00000022, 0xFFFFFFFF), (0x23, 0x00000023, 0xFFFFFFFF)]

/-- v matches some row (`30_encoding.md` R80). -/
def matchesRow (v : HostWord) : Bool := rowTable.any fun r => v &&& r.2.2 == r.2.1

/-- j is the lowest index below len whose cell is no symbol code (`60_exceptions.md` R242, check 6). -/
def IsLowestBad (s : State) (len j : Nat) : Prop :=
  j < len ∧ validSymbol (s.txCell j) = false ∧ ∀ k < j, validSymbol (s.txCell k) = true

/-- Every cell of TX[0..len) is a symbol code. -/
def CellsValid (s : State) (len : Nat) : Prop := ∀ j < len, validSymbol (s.txCell j) = true

/-- The error the checks 1 to 5 give the word v, in their order; they need v and PHASE alone
(`60_exceptions.md` R242). -/
def earlyError (phase : Phase) (v : HostWord) : Option ErrorCode :=
  let opc := v.toNat % 256
  let len := v.toNat / 2 ^ 16 % 4096
  let m := v.toNat / 2 ^ 8 % 256
  if !matchesRow v then some .illegalCmd
  else if phase = .searching ∧ controlOpcode opc = false then some .busy
  else if (opc = 0x11 ∨ opc = 0x14) ∧ (len = 0 ∨ len % 81 ≠ 0 ∨ 2673 < len) then some .length
  else if opc = 0x20 ∧ (m = 0 ∨ 243 < m) then some .param
  else if ((opc = 0x21 ∨ opc = 0x22) ∧ phase ≠ .ready) ∨ (opc = 0x23 ∧ phase ≠ .found) then some .sequence
  else none

/-- How many TX cells the word's command reads (`60_exceptions.md` R242, check 6). -/
def cellsRead (v : HostWord) : Nat :=
  let opc := v.toNat % 256
  if opc = 0x11 ∨ opc = 0x14 then v.toNat / 2 ^ 16 % 4096 else if opc = 0x20 then 2673 else 0

/-- The state after `raise Error(code, info)` by the word v: s but for the four error registers
(`60_exceptions.md` R243). -/
def State.afterError (s : State) (code : BitVec 4) (v : HostWord) (info : BitVec 12) : State :=
  { s with err := true, errCode := code, errCmd := v, errIndex := info }

/-- What the next step does to the core. -/
inductive Event where
  /-- The host writes this word to CMD. -/
  | command (v : HostWord)
  /-- The host writes this value to this address, not CMD. -/
  | write (addr : HostAddr) (v : HostWord)
  /-- The engine takes a search step. -/
  | searchStep
  /-- The reset input is asserted. -/
  | hardReset
  /-- A read, or nothing at all. -/
  | none
  deriving DecidableEq, Repr

/-- Who takes the next step. -/
def State.nextAgent (s : State) : Agent :=
  match s.schedule with
  | a :: _ => a
  | [] => s.defaultAgent

/-- What the next step does (`20_memory.md` R64). -/
def State.event (s : State) : Event :=
  match s.nextAgent, s.host with
  | .engine, _ => if s.searchEnabled then .searchStep else .none
  | .host, .write addr 4 v :: _ => if addr = 0 then .command v else .write addr v
  | .host, .hardReset _ :: _ => .hardReset
  | .host, _ => .none

/-- The core's own state: s without the outside world's operations, its schedule and its last read. -/
def State.core (s : State) : State := { s with host := [], schedule := [], readData := 0 }

/-- s with every element set to zero that no host can observe there: WORK and the draw counter always, and the
search context while PHASE = IDLE (`70_reset_and_hazards.md` R273). -/
def State.observable (s : State) : State :=
  if s.phase = .idle then
    { s with
      work := Vector.replicate Config.stateLen 0
      draws := 0
      mid := Vector.replicate Config.stateLen 0
      nonce := Vector.replicate Config.hashLen .zero
      trunk := Vector.replicate Config.hashLen .zero
      branch := Vector.replicate Config.hashLen .zero }
  else { s with work := Vector.replicate Config.stateLen 0, draws := 0 }

/-! ### What a search is for -/

/-- `bal_243(val(nonce) + o)`, the candidate at absolute offset o (`44_pow.md` R204). -/
def candidateAt (nonce : Vector Trit Config.hashLen) (o : Nat) : Vector Trit Config.hashLen :=
  fitLength Config.hashLen .zero (balanced Config.hashLen (tritsVal nonce.toList + o))

/-- The 2673 symbols of the transaction in TX, its nonce field replaced by the candidate at offset o
(`44_pow.md` R214). -/
def withCandidate (tx : List Host.Cell) (o : Nat) : List SymIdx :=
  (txCells tx 0 2430).map symbolOf ++ tritsToSymbols (candidateAt (txField tx 2430) o).toList ++
    (txCells tx 2511 162).map symbolOf

/-- `succ(o)`: the last m trits of that transaction's digest are all 0 (`44_pow.md` R214, R215). -/
def CandidateSucceeds (tx : List Host.Cell) (m o : Nat) : Prop :=
  ∀ t ∈ (symbolsToTrits (hashSymbols (withCandidate tx o))).drop (Config.hashLen - m), t = .zero

/-- From s to t by n batches, in any mix of POW_STEP, POW_RUN, ABORT and the engine's own steps
(`44_pow.md` R215). TX writes may come in between: they change TX alone (`20_memory.md` R67). -/
inductive SearchPath (s : State) : State → Nat → Prop where
  | start : SearchPath s s 0
  | powStep {t u : State} {n : Nat} (path : SearchPath s t n) (ready : t.phase = .ready) (live : t.err = false)
      (run : exec .powStep t = .next u) : SearchPath s u (n + 1)
  | engine {t : State} {n : Nat} (path : SearchPath s t n) (enabled : t.searchEnabled = true) :
      SearchPath s (engineTurn t) (n + 1)
  | powRun {t u : State} {n : Nat} (path : SearchPath s t n) (ready : t.phase = .ready)
      (run : exec .powRun t = .next u) : SearchPath s u n
  | abort {t u : State} {n : Nat} (path : SearchPath s t n) (run : exec .abort t = .next u) : SearchPath s u n
  | txWrite {t u : State} {n : Nat} (path : SearchPath s t n) (addr : HostAddr) (v : HostWord) (cell : addr ≠ 0)
      (run : t.memWrite addr v = .next u) : SearchPath s u n

/-- n turns of the host, one after the other. -/
def hostRun : (n : Nat) → State → Host.Outcome State Fault Refusal
  | 0, s => .next s
  | n + 1, s =>
    match hostTurn s with
    | .next t => hostRun n t
    | .fault r => .fault r
    | .refused r => .refused r

/-- n steps of the machine. -/
def stepRun : (n : Nat) → State → Host.Outcome State Fault Refusal
  | 0, s => .next s
  | n + 1, s =>
    match step s with
    | .next t => stepRun n t
    | .fault r => .fault r
    | .refused r => .refused r

/-- n search turns of the engine, one after the other. -/
def engineRun (n : Nat) (s : State) : State := iterate engineTurn n s

end Sys2Proof.Machine
end

