-- ==== Sys2Proof/Certificates/Slice0/Obligations.lean ====
section
/-! DEFINITION. The statements for the provers. Each docstring names the rule of spec/ it formalises. -/

open Sys2Proof Sys2Proof.Machine

/-! ### Encoding -/

/-- Decoding the encoding of a well-formed command gives it back, every operand at every value its field
admits (`30_encoding.md` R76 to R80). -/
def Obligations.DecodeEncodeRoundTrip : Prop :=
  ∀ i : Instr, i.wellFormed = true → decode (encode i) = .ok i

/-- Each word has one meaning: a decoded command is well formed and encodes to the word it was read from
(`30_encoding.md` R77 to R82). -/
def Obligations.EncodeDecodeRoundTrip : Prop :=
  ∀ (v : HostWord) (i : Instr), decode v = .ok i → i.wellFormed = true ∧ encode i = v

/-- `30_encoding.md` R80: a word selects the row with `(v & mask) == match`, its operands are the row's fields,
exactly the words of the table's rows decode, at most one row matches any word, and the commands have the table's
opcodes, match words and masks, in its order. -/
def Obligations.DecodeSelectsTheTableRow : Prop :=
  (∀ (v : HostWord) (i : Instr), decode v = .ok i ↔
    v &&& i.rowMask = i.rowMatch ∧ i.lenOperand = lenField v ∧ i.mwmOperand = mwmField v) ∧
  (∀ v : HostWord, (∃ i, decode v = .ok i) ↔ matchesRow v = true) ∧
  (∀ v : HostWord, (rowTable.filter fun r => v &&& r.2.2 == r.2.1).length ≤ 1) ∧
  ∀ len m : Nat, [Instr.nop, .sreset, .abort, .sClear, .sAbsorb len, .sPermute, .sFinalize, .hash len, .powInit m,
    .powStep, .powRun, .powFinal].map (fun i => (i.opcode, i.rowMatch, i.rowMask)) = rowTable

/-- A few words of the spec, written out from its encodings (`30_encoding.md` R79, R80; `95_test_vectors.md` V-E2,
V-E3, V-E18, V-E19). -/
def Obligations.SpecWordsDecode : Prop :=
  decode 0x0A710014 = .ok (.hash 2673) ∧ decode 0x00000E20 = .ok (.powInit 14) ∧
  decode 0x00510011 = .ok (.sAbsorb 81) ∧ decode 0x00000001 = .ok .sreset ∧ decode 0x00000012 = .ok .sPermute ∧
  decode 0x00000003 = .error (.unassignedOpcode 0x03) ∧ decode 0x00000100 = .error (.nonzeroField 0x00) ∧
  decode 0x10510014 = .error (.nonzeroField 0x14) ∧ decode 0x00510111 = .error (.nonzeroField 0x11)

/-- `30_encoding.md` R81: a word that matches no row raises ILLEGAL_CMD with index 0, and changes nothing but the
four error registers. -/
def Obligations.UnmatchedWordRaisesIllegalCmd : Prop :=
  ∀ (s : State) (v : HostWord), matchesRow v = false → s.err = false →
    s.issue v = .next (s.afterError 1 v 0)

/-! ### Steps and accesses -/

/-- A step runs the decoded command (`40_commands.md` R100): where the next turn is the host's and its pending access
writes the word v to CMD, the step is exec of v's command at the state without that turn and that access.
`withFetchWord` makes the next step such a one. The lists of turns and of accesses are the model's own (log 1). -/
def Obligations.StepRunsTheDecodedCommand : Prop :=
  (∀ (s : State) (v : HostWord) (i : Instr) (turns : List Agent) (ops : List HostOp),
    s.schedule = .host :: turns → s.host = .write 0x0000 4 v :: ops → decode v = .ok i →
      step s = exec i { s with schedule := turns, host := ops }) ∧
  (∀ (s : State) (v : HostWord) (i : Instr) (ops : List HostOp),
    s.schedule = [] → s.searchEnabled = false → s.host = .write 0x0000 4 v :: ops → decode v = .ok i →
      step s = exec i { s with host := ops }) ∧
  (∀ (s : State) (v : HostWord) (i : Instr), decode v = .ok i → step (s.withFetchWord 32 v.toNat) = exec i s)

/-- `20_memory.md` R51: the size of an access is always 4. Such a read returns the location's value, such a write
writes it, and an access of any other size is refused. -/
def Obligations.AccessesAreOfOneWord : Prop :=
  ∀ (s : State) (addr : HostAddr) (v : HostWord) (size : Nat) (ops : List HostOp),
    (s.host = .read addr 4 :: ops → hostTurn s = .next { s with host := ops, readData := s.memRead addr }) ∧
    (s.host = .write addr 4 v :: ops → hostTurn s = State.memWrite { s with host := ops } addr v) ∧
    (s.host = .read addr size :: ops → size ≠ 4 → hostTurn s = .refused (.accessSize size)) ∧
    (s.host = .write addr size v :: ops → size ≠ 4 → hostTurn s = .refused (.accessSize size))

/-- `20_memory.md` R54: a write of a TX cell stores the low byte of the word, in every PHASE and whatever ERR, and
checks nothing; a read gives the cell zero-extended. Every other cell and everything else is unchanged. -/
def Obligations.TxCellsStoreTheLowByte : Prop :=
  ∀ (s : State) (j : Nat) (v : HostWord), Memory.wf s.tx = true → j < 2673 →
    s.memRead (BitVec.ofNat 16 (0x1000 + j)) = (s.txCell j).setWidth 32 ∧
    ∃ t, s.memWrite (BitVec.ofNat 16 (0x1000 + j)) v = .next t ∧
      t = { s with tx := t.tx } ∧ Memory.wf t.tx = true ∧
      t.txCell j = v.setWidth 8 ∧
      t.memRead (BitVec.ofNat 16 (0x1000 + j)) = (v.setWidth 8).setWidth 32 ∧
      ∀ a, a ≠ 0x1000 + j → Memory.read t.tx a = Memory.read s.tx a

/-- `20_memory.md` R53: a read of CMD or of an unmapped address returns 0, a write to an unmapped or read-only
location has no effect, and none of these accesses sets ERR (no field of the core changes). -/
def Obligations.UnmappedAndReadOnlyAccesses : Prop :=
  ∀ (s : State) (addr : HostAddr) (v : HostWord) (ops : List HostOp),
    (addr = 0 ∨ (0x000A < addr.toNat ∧ addr.toNat < 0x0100) ∨ (0x0150 < addr.toNat ∧ addr.toNat < 0x1000) ∨
        0x1A70 < addr.toNat →
      s.memRead addr = 0 ∧
      (s.host = .read addr 4 :: ops → hostTurn s = .next { s with host := ops, readData := 0 })) ∧
    (addr ≠ 0 → (addr.toNat < 0x1000 ∨ 0x1A70 < addr.toNat) →
      s.memWrite addr v = .next s ∧
      (s.host = .write addr 4 v :: ops → hostTurn s = .next { s with host := ops }))

/-- What the locations 0x0001 to 0x000A and the DIGEST window read as, bit by bit (from `20_memory.md` R52, R55, R57). -/
def Obligations.RegisterMapReads : Prop :=
  ∀ s : State,
    ((s.memRead 0x0001).extractLsb' 0 2 = s.phase.toBits ∧ (s.memRead 0x0001).getLsbD 2 = s.err ∧
      (s.memRead 0x0001).getLsbD 3 = false ∧ (s.memRead 0x0001).extractLsb' 4 4 = s.errCode ∧
      (s.memRead 0x0001).extractLsb' 8 24 = 0) ∧
    ((s.memRead 0x0002).toNat % 2 ^ 16 = s.params.wordBits ∧ (s.memRead 0x0002).toNat / 2 ^ 16 = s.params.lanes) ∧
    (s.memRead 0x0003).toNat = s.mwm.toNat ∧
    (s.memRead 0x0005 ++ s.memRead 0x0004 : BitVec 64) = s.offset ∧
    (s.memRead 0x0007 ++ s.memRead 0x0006 : BitVec 64) = s.winOffset ∧
    (s.memRead 0x0008).toNat = s.winLane.toNat ∧
    s.memRead 0x0009 = s.errCmd ∧
    (s.memRead 0x000A).toNat = s.errIndex.toNat ∧
    ∀ (j : Nat) (h : j < 81), (s.memRead (BitVec.ofNat 16 (0x0100 + j))).toNat = s.digest[j].toNat

/-- No read has a side effect, reads and TX writes are idempotent, and a write away from CMD changes TX alone
(from `20_memory.md` R56). -/
def Obligations.ReadsHaveNoSideEffect : Prop :=
  (∀ (s t : State) (addr : HostAddr) (ops : List HostOp), s.host = .read addr 4 :: ops → hostTurn s = .next t →
    t.core = s.core ∧ t.host = ops ∧ t.memRead addr = s.memRead addr) ∧
  (∀ (s t : State) (addr : HostAddr) (v : HostWord), Memory.wf s.tx = true → addr ≠ 0 → s.memWrite addr v = .next t →
    t = { s with tx := t.tx } ∧ t.memWrite addr v = .next t)

/-! ### The codec -/

/-- `30_encoding.md` R72: row j of the tryte table is the triple with t0 + 3·t1 + 9·t2 = j when j ≤ 13, and = j - 27
when j ≥ 14. -/
def Obligations.TryteRowsAreBalanced : Prop :=
  ∀ j : SymIdx, ∃ t0 t1 t2 : Trit, tryte j = [t0, t1, t2] ∧
    t0.toInt + 3 * t1.toInt + 9 * t2.toInt = if j.val ≤ 13 then (j.val : Int) else (j.val : Int) - 27

/-- The storage codes: `9` is 0x39 and the letter of index j is 0x40 + j; a byte is valid iff it is the code of a
symbol, which is then the one read from it (from `30_encoding.md` R71). -/
def Obligations.StorageCodes : Prop :=
  symbolCode 0 = 0x39 ∧ (∀ j : SymIdx, 1 ≤ j.val → (symbolCode j).toNat = 0x40 + j.val) ∧
  (∀ j : SymIdx, symbolOf (symbolCode j) = j) ∧
  (∀ b : Byte, validSymbol b = true ↔ ∃ j : SymIdx, symbolCode j = b)

/-- `41_codec.md` R122, the round-trip laws. -/
def Obligations.CodecRoundTrip : Prop :=
  (∀ s : List SymIdx, tritsToSymbols (symbolsToTrits s) = s) ∧
  (∀ t : List Trit, t.length % 3 = 0 → symbolsToTrits (tritsToSymbols t) = t)

/-- `00_scope.md` R14: bal_L(v) is the one trit sequence of length L that represents v modulo 3^L, within the
balanced range, and every trit sequence of length L is bal_L of its residue class and of no other. -/
def Obligations.BalancedIsTheUniqueRepresentation : Prop :=
  ∀ (len : Nat) (v : Int),
    (balanced len v).length = len ∧
    (3 : Int) ^ len ∣ tritsVal (balanced len v) - v ∧
    2 * |tritsVal (balanced len v)| ≤ 3 ^ len - 1 ∧
    ∀ r : List Trit, r.length = len → (r = balanced len v ↔ (3 : Int) ^ len ∣ tritsVal r - v)

/-- `41_codec.md` R123: after add, t = bal_L(val(t_old) + n), and the carry is the rest of the sum over 3^L. -/
def Obligations.AddMeetsTheValueSemantics : Prop :=
  ∀ (t : List Trit) (n : Nat),
    (addTrits t n).1 = balanced t.length (tritsVal t + n) ∧
    ((addTrits t n).2 : Int) * 3 ^ t.length = tritsVal t + n - tritsVal (addTrits t n).1

/-- `41_codec.md` R125: increment is add of one; two adds are the add of the sum; o and then i increments give
bal_L(val(t) + o + i). -/
def Obligations.ArithmeticLaws : Prop :=
  (∀ t : List Trit, incrementTrits t = (addTrits t 1).1) ∧
  (∀ (t : List Trit) (m n : Nat), (addTrits (addTrits t m).1 n).1 = balanced t.length (tritsVal t + m + n)) ∧
  (∀ (t : List Trit) (o i : Nat),
    iterate incrementTrits i (addTrits t o).1 = balanced t.length (tritsVal t + o + i))

/-! ### The sponge -/

/-- `42_sponge.md` R140: T(x, y) is entry x + 4y + 5 of the truth table. -/
def Obligations.MixIsTheTruthTable : Prop :=
  ∀ x y : Trit, truthTable[(x.toInt + 4 * y.toInt + 5).toNat]? = some (mixTrit x y)

/-- The index pattern of a round, for trits and for words (from `42_sponge.md` R141 and `43_bitsliced.md` R179): every
new element is computed from the old state alone (R142). A permutation is 27 such rounds (from `42_sponge.md` R143
and `43_bitsliced.md` R180). -/
def Obligations.RoundIndexPattern : Prop :=
  (∀ s : Vector Trit 729,
    let new : Vector Trit 729 := spongeRound s
    new[0] = mixTrit s[0] s[364] ∧
    ∀ (i : Nat) (h : i < 364),
      new[2 * i + 1] = mixTrit s[364 - i] s[728 - i] ∧ new[2 * i + 2] = mixTrit s[728 - i] s[363 - i]) ∧
  (∀ (W : Nat) (ws : Vector LaneWord 729),
    let new : Vector LaneWord 729 := slicedRound W ws
    new[0] = mixWord W ws[0] ws[364] ∧
    ∀ (i : Nat) (h : i < 364),
      new[2 * i + 1] = mixWord W ws[364 - i] ws[728 - i] ∧ new[2 * i + 2] = mixWord W ws[728 - i] ws[363 - i]) ∧
  (∀ s : Vector Trit 729, permute s = spongeRound^[27] s) ∧
  (∀ (W : Nat) (ws : Vector LaneWord 729), slicedPermute W ws = (slicedRound W)^[27] ws)

/-- Every uniform state is a fixed point of permute, so the hash of an all-`9` input of 81·k symbols, k ≥ 1, is 81 times
`9` (from `42_sponge.md` R143, R147). -/
def Obligations.UniformStatesAreFixed : Prop :=
  (∀ t : Trit, permute (Vector.replicate 729 t) = Vector.replicate 729 t) ∧
  (∀ k : Nat, 1 ≤ k → hashSymbols (List.replicate (81 * k) 0) = List.replicate 81 0)

/-- Absorbing overwrites the input slot: what it held before has no effect on the result (from `42_sponge.md` R144). -/
def Obligations.AbsorbOverwritesTheInputSlot : Prop :=
  ∀ (s s' : Vector Trit 729) (t : Vector Trit 243) (ts : List (Vector Trit 243)),
    s.toList.drop 243 = s'.toList.drop 243 → absorb s (t :: ts) = absorb s' (t :: ts)

/-! ### Lanes -/

/-- `30_encoding.md` R75: the lane masks. -/
def Obligations.LaneMasks : Prop :=
  (∀ W : Nat, W % 2 = 0 →
    lowMask W = ∑ i ∈ Finset.range (W / 2), 2 ^ (2 * i) ∧
    highMask W = wordShl W (lowMask W) 1 ∧
    ∀ b : Nat, (lowMask W).testBit b = (decide (b < W) && decide (b % 2 = 0)) ∧
      (highMask W).testBit b = (decide (b < W) && decide (b % 2 = 1))) ∧
  lowMask 64 = 0x5555555555555555 ∧ highMask 64 = 0xAAAAAAAAAAAAAAAA

/-- setlane replaces the code in its lane and keeps every other lane (from `43_bitsliced.md` R172). -/
def Obligations.SetLaneReplacesOneLane : Prop :=
  ∀ (W : Nat) (w : LaneWord) (i : Nat) (t : Trit), W % 2 = 0 → w < 2 ^ W → i < W / 2 →
    setLane W w i t < 2 ^ W ∧ laneOf (setLane W w i t) i = laneCode t ∧
    ∀ k < W / 2, k ≠ i → laneOf (setLane W w i t) k = laneOf w k

/-- `43_bitsliced.md` R173: bc(t) has the code of t in every lane; bc(0) = LOW_MASK, bc(1) = HIGH_MASK and
bc(-1) = 2^W - 1. -/
def Obligations.BroadcastFillsEveryLane : Prop :=
  ∀ W : Nat, W % 2 = 0 →
    (∀ (t : Trit), broadcast W t = lowMask W * laneCode t ∧ broadcast W t < 2 ^ W ∧
      ∀ i < W / 2, laneOf (broadcast W t) i = laneCode t) ∧
    broadcast W .zero = lowMask W ∧ broadcast W .pos = highMask W ∧ broadcast W .neg = 2 ^ W - 1

/-- `43_bitsliced.md` R178: no bit moves between lanes. Each lane of c(a) and of Tbs(x, y) is the per-lane function of
R177 of the same lane of the operands, the lane code 0b00 included. -/
def Obligations.LanesAreIndependent : Prop :=
  ∀ (W i : Nat) (x y : LaneWord), W % 2 = 0 → x < 2 ^ W → y < 2 ^ W → i < W / 2 →
    laneOf (mixC W x) i = laneCodeC (laneOf x i) ∧
    laneOf (mixWord W x y) i = laneCodeT (laneOf x i) (laneOf y i)

/-- `43_bitsliced.md` R181: lane by lane, the bit-sliced round and permutation are the scalar ones, also when the
lanes differ. -/
def Obligations.SlicedPermutationMatchesTheScalarOne : Prop :=
  ∀ (W i : Nat) (ws : Vector LaneWord 729) (s : Vector Trit 729), W % 2 = 0 → i < W / 2 → WordsBounded W ws →
    LaneHolds i ws s →
      LaneHolds i (slicedRound W ws) (spongeRound s) ∧ LaneHolds i (slicedPermute W ws) (permute s)

/-- `43_bitsliced.md` R182: valid lane codes stay valid through Tbs, setlane, bc, a round and the permutation. -/
def Obligations.LaneCodesStayValid : Prop :=
  ∀ W : Nat, W % 2 = 0 →
    (∀ ws : Vector LaneWord 729, WordsValid W ws →
      WordsValid W (slicedRound W ws) ∧ WordsValid W (slicedPermute W ws)) ∧
    (∀ x y : LaneWord, WordValid W x → WordValid W y → WordValid W (mixWord W x y)) ∧
    (∀ (w : LaneWord) (i : Nat) (t : Trit), WordValid W w → i < W / 2 → WordValid W (setLane W w i t)) ∧
    (∀ t : Trit, WordValid W (broadcast W t))

/-- `43_bitsliced.md` R183: the result in lanes 0 to L-1 does not depend on the word width, for any width of at least
2L. -/
def Obligations.WidthIndependence : Prop :=
  ∀ (W W' L : Nat) (ws ws' : Vector LaneWord 729), W % 2 = 0 → W' % 2 = 0 → 2 * L ≤ W → 2 * L ≤ W' →
    WordsBounded W ws → WordsBounded W' ws' →
    (∀ i < L, ws.map (laneOf · i) = ws'.map (laneOf · i)) →
      ∀ i < L, (slicedRound W ws).map (laneOf · i) = (slicedRound W' ws').map (laneOf · i) ∧
        (slicedPermute W ws).map (laneOf · i) = (slicedPermute W' ws').map (laneOf · i)

/-! ### The search -/

/-- `44_pow.md` R204: candidate i of the batch at base o is bal_243(val(NONCE) + o + i). -/
def Obligations.CandidateLaw : Prop :=
  ∀ (lanes : Nat) (nonce : Vector Trit 243) (o i : Nat), i < lanes →
    (candidates lanes nonce o)[i]? = some (candidateAt nonce (o + i)) ∧
    (candidateAt nonce (o + i)).toList = balanced 243 (tritsVal nonce.toList + o + i)

/-- `44_pow.md` R214: lane i of the batch holds the scalar absorb of its candidate, trunk and branch over the header
state; that is the final state of the hash of the transaction with that nonce field; so ok_i holds iff the last m
trits of that digest are all 0. -/
def Obligations.BatchLaneIsTheScalarHash : Prop :=
  ∀ (p : Params) (tx : List Host.Cell) (o m i : Nat), i < p.lanes →
    let header := headerState tx
    let nonce := txField tx 2430
    let work := batch p (midState p.wordBits header) nonce (txField tx 2511) (txField tx 2592) o
    let final := absorb header [candidateAt nonce (o + i), txField tx 2511, txField tx 2592]
    LaneHolds i work final ∧
    final = absorb zeroSponge (tritChunks 33 (symbolsToTrits (withCandidate tx (o + i)))) ∧
    finalize final = hashSymbols (withCandidate tx (o + i)) ∧
    (laneSucceeds work m i = true ↔ CandidateSucceeds tx m (o + i))

/-- One search step within the offset bound: the least lane that succeeds is recorded and OFFSET kept, or no lane
succeeds and OFFSET advances by LANES; neither sum wraps (from `44_pow.md` R207, R209). -/
def Obligations.SearchStepRecordsTheLeastLane : Prop :=
  ∀ (s : State) (cmd : HostWord), s.offset.toNat + s.params.lanes ≤ 2 ^ 64 - 1 →
    (∀ i, i < s.params.lanes → laneSucceeds s.batchWork s.mwm.toNat i = true →
      (∀ k < i, laneSucceeds s.batchWork s.mwm.toNat k = false) →
        s.searchStep cmd = { s with
          work := s.batchWork
          winLane := BitVec.ofNat 16 i
          winOffset := BitVec.ofNat 64 (s.offset.toNat + i)
          phase := .found } ∧
        (s.searchStep cmd).winOffset.toNat = s.offset.toNat + i ∧ (s.searchStep cmd).winLane.toNat = i) ∧
    ((∀ i < s.params.lanes, laneSucceeds s.batchWork s.mwm.toNat i = false) →
      s.searchStep cmd = { s with
        work := s.batchWork
        offset := BitVec.ofNat 64 (s.offset.toNat + s.params.lanes) } ∧
      (s.searchStep cmd).offset.toNat = s.offset.toNat + s.params.lanes)

/-- `60_exceptions.md` R244: past the offset bound the core's step raises OFFSET with the POW_RUN word, keeps PHASE and
OFFSET and disables itself; POW_STEP records its own word and leaves READY. -/
def Obligations.OffsetBoundRaisesOffset : Prop :=
  ∀ s : State, 2 ^ 64 - 1 < s.offset.toNat + s.params.lanes →
    (s.searchEnabled = true →
      engineTurn s = s.afterError 7 0x00000022 0 ∧ (engineTurn s).searchEnabled = false ∧
      (engineTurn s).phase = .searching ∧ (engineTurn s).offset = s.offset) ∧
    (s.phase = .ready → s.err = false →
      exec .powStep s = .next (s.afterError 7 0x00000021 0) ∧ (s.afterError 7 0x00000021 0).phase = .ready)

/-- `44_pow.md` R215: let o be the least offset whose candidate makes the digest of TX end in m zero trits, and
L = LANES. From POW_INIT m, any mix of POW_STEP, POW_RUN, ABORT and search steps reaches FOUND after exactly
⌊o/L⌋ + 1 batches, with WIN_OFFSET = o, WIN_LANE = o mod L and OFFSET = L·⌊o/L⌋, and before that OFFSET counts the
offsets tested, none skipped or repeated; and the engine left to itself does reach it. -/
def Obligations.SearchFindsTheLeastOffset : Prop :=
  ∀ (s c : State) (m o : Nat),
    s.err = false → s.phase ≠ .searching → 1 ≤ m → m ≤ 243 → CellsValid s 2673 → exec (.powInit m) s = .next c →
    CandidateSucceeds s.tx m o → (∀ k < o, ¬ CandidateSucceeds s.tx m k) →
    s.params.lanes * (o / s.params.lanes) + s.params.lanes ≤ 2 ^ 64 - 1 →
      (∀ (t : State) (n : Nat), SearchPath c t n →
        t.err = false ∧
        (t.phase = .found → t.winOffset.toNat = o ∧ t.winLane.toNat = o % s.params.lanes ∧
          t.offset.toNat = s.params.lanes * (o / s.params.lanes) ∧ n = o / s.params.lanes + 1) ∧
        (t.phase ≠ .found → t.offset.toNat = s.params.lanes * n ∧ n ≤ o / s.params.lanes)) ∧
      (engineRun (o / s.params.lanes + 1) { c with phase := .searching }).phase = .found

/-- `44_pow.md` R217: after POW_INIT m, a search that reaches FOUND and POW_FINAL, with no change of TX on the way,
HASH 2673 writes a DIGEST whose trits 243 - m to 242 are all 0; for m = 1 the last DIGEST symbol is one of
9, A, B, C, D, W, X, Y and Z. -/
def Obligations.FoundNonceGivesTrailingZeros : Prop :=
  ∀ (s c t u w : State) (m n : Nat), Memory.wf s.tx = true → s.err = false → s.phase ≠ .searching →
    1 ≤ m → m ≤ 243 → CellsValid s 2673 →
    exec (.powInit m) s = .next c → SearchPath c t n → t.tx = c.tx → t.phase = .found →
    exec .powFinal t = .next u → exec (.hash 2673) u = .next w →
      w.err = false ∧
      (∀ x ∈ (cellsToTrits w.digest.toList).drop (243 - m), x = .zero) ∧
      (m = 1 → w.digest[80] ∈ [0x39#8, 0x41#8, 0x42#8, 0x43#8, 0x44#8, 0x57#8, 0x58#8, 0x59#8, 0x5A#8])

/-! ### The commands -/

/-- NOP changes no state element, in every PHASE and whatever ERR (from `40_commands.md` R103, R100). -/
def Obligations.NopChangesNothing : Prop :=
  ∀ s : State, exec .nop s = .next s

/-- SRESET, in every PHASE and also while ERR = 1: every element with a reset value takes it, TX and the build
parameters stay, and the host's operations, its schedule and its last read are not touched (from `40_commands.md`
R104). That MID and WORK then hold a valid code in every lane is the model's choice (log 4): R104 leaves them
unspecified. -/
def Obligations.SresetResult : Prop :=
  ∀ s : State, ∃ t, exec .sreset s = .next t ∧
    t.sponge = Vector.replicate 729 .zero ∧ t.phase = .idle ∧ t.err = false ∧ t.errCode = 0 ∧ t.errCmd = 0 ∧
    t.errIndex = 0 ∧ t.mwm = 0 ∧ t.offset = 0 ∧ t.winOffset = 0 ∧ t.winLane = 0 ∧
    t.digest = Vector.replicate 81 0x00 ∧ t.tx = s.tx ∧ t.params = s.params ∧
    t.host = s.host ∧ t.schedule = s.schedule ∧ t.readData = s.readData ∧
    t.memRead 0x0001 = 0 ∧ t.searchEnabled = false ∧
    WordsValid s.params.wordBits t.mid ∧ WordsValid s.params.wordBits t.work

/-- ABORT: SEARCHING becomes READY and everything else, OFFSET among it, is kept; in another PHASE nothing changes
(from `40_commands.md` R105). -/
def Obligations.AbortResult : Prop :=
  ∀ s : State, s.err = false →
    (s.phase = .searching → exec .abort s = .next { s with phase := .ready }) ∧
    (s.phase ≠ .searching → exec .abort s = .next s)

/-- S_CLEAR, S_PERMUTE and S_FINALIZE outside SEARCHING: each writes its one element, and nothing else changes
(from `42_sponge.md` R150, R152, R153). -/
def Obligations.ScalarStateCommands : Prop :=
  ∀ s : State, s.err = false → s.phase ≠ .searching →
    exec .sClear s = .next { s with sponge := Vector.replicate 729 .zero } ∧
    exec .sPermute s = .next { s with sponge := permute s.sponge } ∧
    ∃ t, exec .sFinalize s = .next t ∧ t = { s with digest := t.digest } ∧
      t.digest.toList = (tritsToSymbols (s.sponge.toList.take 243)).map symbolCode

/-- S_ABSORB len: S becomes absorb(S, txTrits(0, len), len / 81), the trits being those of the first len cells, and
nothing else changes (from `42_sponge.md` R151 and `41_codec.md` R126). -/
def Obligations.SAbsorbResult : Prop :=
  ∀ (s : State) (len : Nat), s.err = false → s.phase ≠ .searching → 0 < len → len % 81 = 0 → len ≤ 2673 →
    CellsValid s len →
      exec (.sAbsorb len) s = .next { s with
        sponge := absorb s.sponge (tritChunks (len / 81)
          (symbolsToTrits ((List.range len).map fun j => symbolOf (s.txCell j)))) }

/-- HASH len computes hash(TX[0..len), len) into DIGEST, leaves the final state in S and changes nothing else; it is
S_CLEAR, S_ABSORB len and S_FINALIZE as one command (from `42_sponge.md` R154, R146). -/
def Obligations.HashResult : Prop :=
  ∀ (s : State) (len : Nat), s.err = false → s.phase ≠ .searching → 0 < len → len % 81 = 0 → len ≤ 2673 →
    CellsValid s len →
      ∃ a b t, exec (.hash len) s = .next t ∧
        t = { s with sponge := t.sponge, digest := t.digest } ∧
        t.digest.toList = (hashSymbols ((List.range len).map fun j => symbolOf (s.txCell j))).map symbolCode ∧
        exec .sClear s = .next a ∧ exec (.sAbsorb len) a = .next b ∧ exec .sFinalize b = .next t

/-- POW_INIT m builds the context from TX and enters READY; TX, DIGEST and everything else stay. The fields are the
trits of their 81 cells, and MID is bc(0) below word 243 and the broadcast of S above it
(from `44_pow.md` R201, R202). -/
def Obligations.PowInitResult : Prop :=
  ∀ (s : State) (m : Nat), s.err = false → s.phase ≠ .searching → 1 ≤ m → m ≤ 243 → CellsValid s 2673 →
    ∃ t, exec (.powInit m) s = .next t ∧
      t = { s with
        sponge := t.sponge, mid := t.mid, nonce := t.nonce, trunk := t.trunk, branch := t.branch,
        mwm := t.mwm, offset := 0, winOffset := 0, winLane := 0, phase := .ready } ∧
      t.sponge = absorb (Vector.replicate 729 .zero) (tritChunks 30
        (symbolsToTrits ((List.range 2430).map fun j => symbolOf (s.txCell j)))) ∧
      (∀ (k : Nat) (h : k < 729), t.mid[k] =
        if k < 243 then broadcast s.params.wordBits .zero else broadcast s.params.wordBits t.sponge[k]) ∧
      t.nonce.toList = symbolsToTrits ((List.range 81).map fun k => symbolOf (s.txCell (2430 + k))) ∧
      t.trunk.toList = symbolsToTrits ((List.range 81).map fun k => symbolOf (s.txCell (2511 + k))) ∧
      t.branch.toList = symbolsToTrits ((List.range 81).map fun k => symbolOf (s.txCell (2592 + k))) ∧
      t.mwm.toNat = m

/-- POW_STEP in READY within the offset bound evaluates one batch: it enters FOUND with the least succeeding lane and
leaves OFFSET, or stays READY with OFFSET advanced by LANES; nothing else but WORK changes
(from `44_pow.md` R209, R210). -/
def Obligations.PowStepResult : Prop :=
  ∀ s : State, s.err = false → s.phase = .ready → s.offset.toNat + s.params.lanes ≤ 2 ^ 64 - 1 →
    ∃ t, exec .powStep s = .next t ∧ t.err = false ∧ t.work = s.batchWork ∧
      ((∃ i, i < s.params.lanes ∧ laneSucceeds t.work s.mwm.toNat i = true ∧
          (∀ k < i, laneSucceeds t.work s.mwm.toNat k = false) ∧
          t = { s with work := t.work, winLane := t.winLane, winOffset := t.winOffset, phase := .found } ∧
          t.winLane.toNat = i ∧ t.winOffset.toNat = s.offset.toNat + i) ∨
        ((∀ i < s.params.lanes, laneSucceeds t.work s.mwm.toNat i = false) ∧
          t = { s with work := t.work, offset := t.offset } ∧
          t.offset.toNat = s.offset.toNat + s.params.lanes))

/-- POW_RUN in READY enters SEARCHING, evaluates no batch, and enables the engine (from `44_pow.md` R211, R212). -/
def Obligations.PowRunResult : Prop :=
  ∀ s : State, s.err = false → s.phase = .ready →
    exec .powRun s = .next { s with phase := .searching } ∧
    State.searchEnabled { s with phase := .searching } = true

/-- POW_FINAL in FOUND writes the codes of NONCE + WIN_OFFSET to TX[2430..2511) and enters IDLE; every other cell and
everything else stays (from `44_pow.md` R213). -/
def Obligations.PowFinalResult : Prop :=
  ∀ s : State, s.err = false → s.phase = .found → Memory.wf s.tx = true →
    ∃ t, exec .powFinal s = .next t ∧ t = { s with tx := t.tx, phase := .idle } ∧ Memory.wf t.tx = true ∧
      (∀ k < 81, (tritsToSymbols (balanced 243 (tritsVal s.nonce.toList + s.winOffset.toNat)))[k]?.map symbolCode =
        some (t.txCell (2430 + k))) ∧
      ∀ a, (a < 0x1000 + 2430 ∨ 0x1000 + 2511 ≤ a) → Memory.read t.tx a = Memory.read s.tx a

/-! ### Errors -/

/-- `60_exceptions.md` R242: with ERR = 0 the checks apply in their order, the first that fails raises its error, and a
word that passes them all raises none; with ERR = 1 no check runs, and only the word 0x00000001 is acted on. -/
def Obligations.ChecksApplyInOrder : Prop :=
  ∀ (s : State) (v : HostWord),
    (s.err = true → s.issue v = if v = 0x00000001 then exec .sreset s else .next s) ∧
    (s.err = false →
      (∀ e, earlyError s.phase v = some e → s.issue v = .next (s.afterError e.toBits v 0)) ∧
      (earlyError s.phase v = none →
        (∀ j, IsLowestBad s (cellsRead v) j → s.issue v = .next (s.afterError 6 v (BitVec.ofNat 12 j))) ∧
        (CellsValid s (cellsRead v) →
          if v = 0x00000021 ∧ 2 ^ 64 - 1 < s.offset.toNat + s.params.lanes then s.issue v = .next (s.afterError 7 v 0)
          else ∃ t, s.issue v = .next t ∧ t.err = false)))

/-- `60_exceptions.md` R245: while ERR = 1 the core takes no search step, every CMD write but 0x00000001 is ignored,
host reads work normally and STATUS shows the latch, and host writes to TX work normally. -/
def Obligations.LatchedCoreIsQuiet : Prop :=
  ∀ s : State, s.err = true →
    engineTurn s = s ∧
    (∀ v : HostWord, v ≠ 0x00000001 → s.memWrite 0x0000 v = .next s) ∧
    s.memWrite 0x0000 0x00000001 = exec .sreset s ∧
    (∀ (addr : HostAddr) (ops : List HostOp), s.host = .read addr 4 :: ops →
      hostTurn s = .next { s with host := ops, readData := s.memRead addr }) ∧
    (∀ addr : HostAddr, addr ≠ 0x0001 → s.memRead addr = State.memRead { s with err := false } addr) ∧
    (s.memRead 0x0001).getLsbD 2 = true ∧ (s.memRead 0x0001).extractLsb' 4 4 = s.errCode ∧
    (∀ (j : Nat) (v : HostWord), j < 2673 → s.memWrite (BitVec.ofNat 16 (0x1000 + j)) v =
      .next { s with tx := Memory.write s.tx (0x1000 + j) (v.setWidth 8) })

/-- `40_commands.md` R102 and `60_exceptions.md` R248: a command that raises an error changes nothing but the four error
registers; ERR_CMD is its word, and for SYMBOL the index is the lowest bad cell it reads. -/
def Obligations.ErrorsChangeOnlyTheErrorRegisters : Prop :=
  ∀ (s t : State) (v : HostWord), s.err = false → s.issue v = .next t → t.err = true →
    t = s.afterError t.errCode v t.errIndex ∧
    (t.errCode = 6 → IsLowestBad s (cellsRead v) t.errIndex.toNat)

/-! ### The whole machine -/

/-- `10_state.md` R32: PHASE changes only by the transitions of the table, each by its command, by a search step or by
a reset, and an error leaves PHASE unchanged. -/
def Obligations.PhaseChangesOnlyByTheTable : Prop :=
  ∀ s t : State, step s = .next t →
    (s.err = false → t.err = true → t.phase = s.phase) ∧
    (t.phase ≠ s.phase →
      (t.phase = .idle ∧ (s.event = .hardReset ∨ s.event = .command 0x00000001)) ∨
      (s.phase ≠ .searching ∧ t.phase = .ready ∧
        ∃ m, 1 ≤ m ∧ m ≤ 243 ∧ s.event = .command (encode (.powInit m))) ∨
      (s.phase = .ready ∧ t.phase = .found ∧ s.event = .command 0x00000021) ∨
      (s.phase = .ready ∧ t.phase = .searching ∧ s.event = .command 0x00000022) ∨
      (s.phase = .searching ∧ t.phase = .found ∧ s.event = .searchStep) ∨
      (s.phase = .searching ∧ t.phase = .ready ∧ s.event = .command 0x00000002) ∨
      (s.phase = .found ∧ t.phase = .idle ∧ s.event = .command 0x00000023))

/-- The error latch is sticky: only SRESET and a hard reset clear it, and until then a step changes TX alone of the
core (from `60_exceptions.md` R245, R246 and `10_state.md` R33). -/
def Obligations.ErrorLatchIsSticky : Prop :=
  ∀ s t : State, step s = .next t → s.err = true →
    if s.event = .hardReset ∨ s.event = .command 0x00000001 then
      t.err = false ∧ t.errCode = 0 ∧ t.errCmd = 0 ∧ t.errIndex = 0 ∧ t.phase = .idle
    else t.core = { s.core with tx := t.tx }

/-- Which events change S, DIGEST, MID, NONCE, TRUNK, BRANCH, MWM, WORK, OFFSET, WIN_OFFSET, WIN_LANE and TX (from
`10_state.md` R23 to R25, R27 to R30, R37, R38, `70_reset_and_hazards.md` R280, R283): each changes only by the
commands its rule names, well formed, a search step, a host write of TX, or a reset; OFFSET only increases between
POW_INIT commands and resets; and nothing changes the build parameters (R40). -/
def Obligations.ElementsChangeOnlyByTheirEvents : Prop :=
  ∀ s t : State, step s = .next t →
    let reset := s.event = .hardReset ∨ s.event = .command 0x00000001
    let init := ∃ m, (Instr.powInit m).wellFormed = true ∧ s.event = .command (encode (.powInit m))
    let batch := s.event = .searchStep ∨ s.event = .command 0x00000021
    let hash := ∃ len, (Instr.hash len).wellFormed = true ∧ s.event = .command (encode (.hash len))
    let absorb := ∃ len, (Instr.sAbsorb len).wellFormed = true ∧ s.event = .command (encode (.sAbsorb len))
    t.params = s.params ∧
    (t.sponge ≠ s.sponge → reset ∨ init ∨ hash ∨ absorb ∨ s.event = .command 0x00000010 ∨
      s.event = .command 0x00000012) ∧
    (t.digest ≠ s.digest → reset ∨ hash ∨ s.event = .command 0x00000013) ∧
    ((t.mid, t.nonce, t.trunk, t.branch, t.mwm) ≠ (s.mid, s.nonce, s.trunk, s.branch, s.mwm) → reset ∨ init) ∧
    (t.work ≠ s.work → reset ∨ batch) ∧
    ((t.offset, t.winOffset, t.winLane) ≠ (s.offset, s.winOffset, s.winLane) → reset ∨ init ∨ batch) ∧
    (t.offset < s.offset → reset ∨ init) ∧
    (t.tx ≠ s.tx → s.event = .hardReset ∨ s.event = .command 0x00000023 ∨
      ∃ addr v, s.event = .write addr v ∧ 0x1000 ≤ addr.toNat ∧ addr.toNat ≤ 0x1A70)

/-- The search works on the copy POW_INIT took: neither a search step nor POW_STEP depends on TX
(from `20_memory.md` R67, `70_reset_and_hazards.md` R277). -/
def Obligations.SearchDoesNotReadTx : Prop :=
  ∀ (s : State) (tx : List Host.Cell),
    engineTurn { s with tx := tx } = { engineTurn s with tx := tx } ∧
    ∀ t, exec .powStep s = .next t → exec .powStep { s with tx := tx } = .next { t with tx := tx }

/-- The invariant holds right after a hard reset, for every build and whatever TX then holds. The values of MID and WORK
there are the model's choice, log 3 (`70_reset_and_hazards.md` R270). -/
def Obligations.InvariantHoldsAtReset : Prop :=
  Inv State.reset ∧ ∀ (p : Params) (cells : List Host.Cell), Inv (State.powerOn p (Memory.ofCells cells))

/-- Every step keeps the invariant: TX stays canonical, every lane of MID and WORK holds a valid code
(`10_state.md` R41), the error record is consistent (R34 to R36), the search registers fit the phase (R28, R30,
`44_pow.md` R202, R209), and DIGEST is all zero or 81 symbol codes (R38). -/
def Obligations.EveryStepKeepsTheInvariant : Prop :=
  ∀ s t : State, Inv s → step s = .next t → Inv t

/-- `70_reset_and_hazards.md` R273: two machines that differ only in values no host can observe there (WORK, and MID,
NONCE, TRUNK and BRANCH while PHASE = IDLE) read alike at every address, and go on so after a step. -/
def Obligations.UnspecifiedValuesAreNeverObserved : Prop :=
  ∀ s s' : State, s.observable = s'.observable →
    (∀ addr, s.memRead addr = s'.memRead addr) ∧
    (∀ t, step s = .next t → ∃ t', step s' = .next t' ∧ t.observable = t'.observable) ∧
    (∀ r, step s = .refused r → step s' = .refused r)

/-- After a hard reset, for every build and whatever TX holds: the registers of the map and DIGEST read 0, and the
core takes no step of its own (from `70_reset_and_hazards.md` R270, R271). That the host has no pending operation is
the model's choice (log 1). -/
def Obligations.ResetStateReadsZero : Prop :=
  ∀ (p : Params) (tx : List Host.Cell),
    let s := State.powerOn p tx
    s.sponge = Vector.replicate 729 .zero ∧ s.phase = .idle ∧ s.err = false ∧ s.tx = tx ∧
    (∀ addr : HostAddr, addr ≠ 0x0002 → addr.toNat < 0x1000 → s.memRead addr = 0) ∧
    s.searchEnabled = false ∧ engineTurn s = s ∧ step s = .next s

/-- The reset input, in every PHASE and whatever ERR, puts every element with a reset value in it and ends a search; TX
then holds the contents the event carries, which are arbitrary (from `70_reset_and_hazards.md` R270; that TX's draw
stands in the event is the model's choice, log 2). SRESET gives the state of a hard reset, except that TX keeps its
contents; both clear an error latch; and SRESET is the only command accepted while ERR = 1 (from R272). That the two resets leave the same free
values in MID, WORK, NONCE, TRUNK and BRANCH is the model's choice (log 4). -/
def Obligations.SresetIsAHardResetThatKeepsTx : Prop :=
  ∀ (s : State) (cells : List Host.Cell),
    (∀ ops : List HostOp, s.host = .hardReset cells :: ops → ∃ t, hostTurn s = .next t ∧
      t.sponge = Vector.replicate 729 .zero ∧ t.phase = .idle ∧ t.err = false ∧ t.errCode = 0 ∧ t.errCmd = 0 ∧
      t.errIndex = 0 ∧ t.mwm = 0 ∧ t.offset = 0 ∧ t.winOffset = 0 ∧ t.winLane = 0 ∧
      t.digest = Vector.replicate 81 0x00 ∧ t.tx = Memory.ofCells cells ∧ t.params = s.params ∧
      t.host = ops ∧ t.schedule = s.schedule ∧ t.readData = s.readData ∧ t.searchEnabled = false) ∧
    exec .sreset s = .next { s.hardReset cells with tx := s.tx } ∧
    (s.hardReset cells).err = false ∧ Memory.wf (s.hardReset cells).tx = true ∧
    (s.err = true → ∀ i : Instr, i ≠ .sreset → exec i s = .next s)

/-- The model's schedule is weakly fair, its own choice (log 1), as `44_pow.md` R212 asks: where the search stays enabled,
the engine takes a search step within as many steps as the schedule is long, and one more. -/
def Obligations.EnabledSearchStepIsTaken : Prop :=
  ∀ s : State, ∃ k ≤ s.schedule.length, ∀ t, stepRun k s = .next t → t.searchEnabled = true →
    t.nextAgent = .engine ∧ step t = .next (engineTurn { t with schedule := t.schedule.drop 1 })

/-- WAITPOW reads STATUS, changes nothing else, and ends exactly when PHASE ≠ SEARCHING or ERR = 1; until then it
stays the host's next access (from `30_encoding.md` R84). -/
def Obligations.WaitPowPollsStatus : Prop :=
  ∀ (s t : State) (ops : List HostOp), s.host = .waitPow :: ops → hostTurn s = .next t →
    t.readData = s.memRead 0x0001 ∧ t.core = s.core ∧
    (s.phase ≠ .searching ∨ s.err = true → t.host = ops) ∧
    (s.phase = .searching → s.err = false → t.host = s.host)

/-- The writes of LOADTX put the symbols' codes into TX[j], TX[j+1], …, change no other cell and nothing else of the
core, in every PHASE and whatever ERR (from `30_encoding.md` R84 and `20_memory.md` R54). -/
def Obligations.LoadTxFillsTheCells : Prop :=
  ∀ (s : State) (j : Nat) (symbols : List SymIdx) (ops : List HostOp), Memory.wf s.tx = true →
    j + symbols.length ≤ 2673 →
    ∃ t, hostRun symbols.length { s with host := (HostLine.loadTx j symbols).expand ++ ops } = .next t ∧
      t = { s with host := ops, tx := t.tx } ∧ Memory.wf t.tx = true ∧
      (∀ k < symbols.length, symbols[k]?.map symbolCode = some (t.txCell (j + k))) ∧
      ∀ a, (a < 0x1000 + j ∨ 0x1000 + j + symbols.length ≤ a) → Memory.read t.tx a = Memory.read s.tx a

/-- Every command answers a next state from every state: no command stops the machine
(from `60_exceptions.md` R240, R243). -/
def Obligations.CommandsAlwaysAnswer : Prop :=
  ∀ (i : Instr) (s : State), ∃ t, exec i s = .next t ∧ t.params = s.params ∧ t.host = s.host ∧
    t.schedule = s.schedule ∧ t.readData = s.readData
end

