-- ==== Sys2Proof/Laws/Codec.lean ====
section
/-! SUPPORT. The small laws of the codec, the sponge and the lanes: lengths, and what the wrappers over lists hold. -/

namespace Sys2Proof.Machine

open Sys2Proof

/-! ### Sequences of a fixed length -/

/-- A list of the right length is kept as it is. -/
theorem fitLength_toList {α : Type} (n : Nat) (fill : α) (l : List α) (h : l.length = n) :
    (fitLength n fill l).toList = l := by
  subst h
  simp [fitLength, Vector.toList]

@[simp] theorem addField_toList (t : Vector Trit Config.hashLen) (n : Nat) :
    (addField t n).toList = (addTrits t.toList n).1 := rfl

@[simp] theorem incrementField_toList (t : Vector Trit Config.hashLen) :
    (incrementField t).toList = incrementTrits t.toList := rfl

@[simp] theorem overwriteSlot_toList {α : Type} (s : Vector α Config.stateLen) (t : Vector α Config.hashLen) :
    (overwriteSlot s t).toList = t.toList ++ s.toList.drop Config.hashLen := rfl

@[simp] theorem roundWith_toList {α : Type} (f : α → α → α) (s : Vector α Config.stateLen) :
    (roundWith f s).toList = roundList f s.toList := rfl

@[simp] theorem seedLane_toList (W i : Nat) (ws : Vector LaneWord Config.stateLen)
    (t : Vector Trit Config.hashLen) : (seedLane W i ws t).toList = writeLane W i ws.toList t.toList := rfl

/-- n + 1 rounds are n rounds and one more after them. -/
theorem iterate_succ {α : Type} (f : α → α) (n : Nat) (a : α) : iterate f (n + 1) a = f (iterate f n a) := by
  induction n generalizing a with
  | zero => rfl
  | succ n ih => rw [iterate, ih, iterate]

theorem iterate_add {α : Type} (f : α → α) (m n : Nat) (a : α) :
    iterate f (m + n) a = iterate f m (iterate f n a) := by
  induction n generalizing a with
  | zero => rfl
  | succ n ih => rw [← Nat.add_assoc, iterate, ih, iterate]

/-! ### Lengths of the codec's results -/

theorem tryte_length (j : SymIdx) : (tryte j).length = 3 := by
  revert j; decide

theorem symbolsToTrits_length (s : List SymIdx) : (symbolsToTrits s).length = 3 * s.length := by
  induction s with
  | nil => rfl
  | cons j s ih =>
    have : symbolsToTrits (j :: s) = tryte j ++ symbolsToTrits s := rfl
    simp only [this, List.length_append, tryte_length, ih, List.length_cons]
    omega

theorem tritsToSymbols_length (t : List Trit) (n : Nat) (h : t.length = 3 * n) :
    (tritsToSymbols t).length = n := by
  induction n generalizing t with
  | zero => simp_all [tritsToSymbols]
  | succ n ih =>
    match t, h with
    | t0 :: t1 :: t2 :: rest, h =>
      simp only [List.length_cons] at h
      simp [tritsToSymbols, ih rest (by omega)]

theorem balanced_length (len : Nat) (v : Int) : (balanced len v).length = len := by
  induction len generalizing v with
  | zero => rfl
  | succ len ih => simp [balanced, ih]

theorem digestTrits_length (s : Vector Trit Config.stateLen) : (digestTrits s).length = Config.hashLen := by
  simp [digestTrits, Config.stateLen, Config.hashLen]

theorem finalize_length (s : Vector Trit Config.stateLen) : (finalize s).length = Config.hashSyms :=
  tritsToSymbols_length _ _ (digestTrits_length s)

/-- DIGEST after a finalize, cell by cell. -/
theorem digestCells_toList (s : Vector Trit Config.stateLen) :
    (digestCells s).toList = (finalize s).map symbolCode :=
  fitLength_toList _ _ _ (by simp [finalize_length])

theorem txField_toList (tx : List Host.Cell) (j : Nat) (h : (txCells tx j Config.hashSyms).length = Config.hashSyms) :
    (txField tx j).toList = cellsToTrits (txCells tx j Config.hashSyms) :=
  fitLength_toList _ _ _ (by simp [cellsToTrits, symbolsToTrits_length, h, Config.hashLen, Config.hashSyms])

/-! ### Absorbing -/

@[simp] theorem absorb_nil (s : Vector Trit Config.stateLen) : absorb s [] = s := List.foldl_nil

theorem absorb_cons (s : Vector Trit Config.stateLen) (t : Vector Trit Config.hashLen)
    (ts : List (Vector Trit Config.hashLen)) : absorb s (t :: ts) = absorb (absorbChunk s t) ts := List.foldl_cons ..

theorem absorb_append (s : Vector Trit Config.stateLen) (ts us : List (Vector Trit Config.hashLen)) :
    absorb s (ts ++ us) = absorb (absorb s ts) us := List.foldl_append

/-! ### Lane codes -/

theorem laneTrit_laneCode (t : Trit) : laneTrit (laneCode t) = some t := by cases t <;> rfl

theorem laneCode_pos (t : Trit) : 0 < laneCode t := by cases t <;> decide

theorem laneCode_lt (t : Trit) : laneCode t < 4 := by cases t <;> decide

theorem laneOf_lt (w : LaneWord) (i : Nat) : laneOf w i < 4 := Nat.mod_lt _ (by decide)

end Sys2Proof.Machine
end

