-- ==== Sys2Proof/Laws/Memory.lean ====
section
/-! SUPPORT. The laws of TX as a list of cells: reads after writes, and the canonical form, which every
operation keeps. -/

namespace Sys2Proof.Machine

open Sys2Proof

/-! ### Reading -/

@[simp] theorem Memory.read_nil (a : Nat) : Memory.read [] a = Memory.unlisted := rfl

theorem Memory.read_cons (b : Nat) (v : Byte) (rest : List Host.Cell) (a : Nat) :
    Memory.read ((b, v) :: rest) a = if b = a then v else Memory.read rest a := rfl

/-- A write changes no other address. -/
theorem Memory.read_write_other (m : List Host.Cell) (a a' : Nat) (v : Byte) (h : a' ≠ a) :
    Memory.read (Memory.write m a v) a' = Memory.read m a' := by
  induction m with
  | nil => by_cases hv : v = Memory.unlisted <;> simp [Memory.write, Memory.read_cons, hv, Ne.symm h]
  | cons c rest ih =>
    obtain ⟨b, w⟩ := c
    unfold Memory.write
    by_cases h1 : a < b
    · by_cases hv : v = Memory.unlisted <;> simp [h1, hv, Memory.read_cons, Ne.symm h]
    · by_cases h2 : a = b
      · subst h2
        by_cases hv : v = Memory.unlisted <;> simp [hv, Memory.read_cons, Ne.symm h]
      · simp [h1, h2, Memory.read_cons, ih]

/-- Every address of the list lies above a. -/
def Memory.above (a : Nat) (m : List Host.Cell) : Prop := ∀ c ∈ m, a < c.1

theorem Memory.read_of_above (m : List Host.Cell) (a : Nat) (h : Memory.above a m) :
    Memory.read m a = Memory.unlisted := by
  induction m with
  | nil => rfl
  | cons c rest ih =>
    have hc : a < c.1 := h c (by simp)
    have hr : Memory.above a rest := fun d hd => h d (by simp [hd])
    obtain ⟨b, v⟩ := c
    rw [Memory.read_cons, if_neg (show b ≠ a from Nat.ne_of_gt hc), ih hr]

/-! ### The canonical form -/

theorem Memory.wf_cons (c : Host.Cell) (m : List Host.Cell) :
    Memory.wf (c :: m) = true ↔
      inTxWindow c.1 = true ∧ c.2 ≠ Memory.unlisted ∧ Memory.above c.1 m ∧ Memory.wf m = true := by
  induction m generalizing c with
  | nil => simp [Memory.wf, Memory.above]
  | cons d rest ih =>
    have hd := ih d
    constructor
    · intro h
      simp only [Memory.wf, Bool.and_eq_true, decide_eq_true_eq] at h
      obtain ⟨⟨⟨h1, h2⟩, h3⟩, h4⟩ := h
      refine ⟨h1, h2, ?_, h4⟩
      have hab := (hd.mp h4).2.2.1
      intro e he
      rcases List.mem_cons.mp he with rfl | he
      · exact h3
      · exact Nat.lt_trans h3 (hab e he)
    · rintro ⟨h1, h2, h3, h4⟩
      simp only [Memory.wf, Bool.and_eq_true, decide_eq_true_eq]
      exact ⟨⟨⟨h1, h2⟩, h3 d (by simp)⟩, h4⟩

theorem Memory.above_write (m : List Host.Cell) (a b : Nat) (v : Byte) (hb : b < a)
    (h : Memory.above b m) : Memory.above b (Memory.write m a v) := by
  induction m with
  | nil => by_cases hv : v = Memory.unlisted <;> simp [Memory.write, Memory.above, hv, hb]
  | cons c rest ih =>
    have hc : b < c.1 := h c (by simp)
    have hr : Memory.above b rest := fun d hd => h d (by simp [hd])
    have hw := ih hr
    obtain ⟨k, w⟩ := c
    unfold Memory.write
    intro d hd
    split at hd
    · split at hd
      · exact h d hd
      · rcases List.mem_cons.mp hd with rfl | hd
        · exact hb
        · exact h d hd
    · split at hd
      · split at hd
        · exact hr d hd
        · rcases List.mem_cons.mp hd with rfl | hd
          · exact hb
          · exact hr d hd
      · rcases List.mem_cons.mp hd with rfl | hd
        · exact hc
        · exact hw d hd

/-- A write into the TX window keeps the canonical form. -/
theorem Memory.write_wf (m : List Host.Cell) (a : Nat) (v : Byte) (ha : inTxWindow a = true)
    (h : Memory.wf m = true) : Memory.wf (Memory.write m a v) = true := by
  induction m with
  | nil => by_cases hv : v = Memory.unlisted <;> simp [Memory.write, Memory.wf, hv, ha]
  | cons c rest ih =>
    obtain ⟨b, w⟩ := c
    obtain ⟨h1, h2, h3, h4⟩ := (Memory.wf_cons _ _).mp h
    unfold Memory.write
    by_cases hab : a < b
    · rw [if_pos hab]
      by_cases hv : v = Memory.unlisted
      · rw [if_pos hv]; exact h
      · rw [if_neg hv]
        refine (Memory.wf_cons _ _).mpr ⟨ha, hv, ?_, h⟩
        intro d hd
        rcases List.mem_cons.mp hd with rfl | hd
        · exact hab
        · exact Nat.lt_trans hab (h3 d hd)
    · rw [if_neg hab]
      by_cases hab' : a = b
      · rw [if_pos hab']
        by_cases hv : v = Memory.unlisted
        · rw [if_pos hv]; exact h4
        · rw [if_neg hv]; subst hab'; exact (Memory.wf_cons _ _).mpr ⟨ha, hv, h3, h4⟩
      · rw [if_neg hab']
        exact (Memory.wf_cons _ _).mpr ⟨h1, h2, Memory.above_write _ _ _ _ (by simp; omega) h3, ih h4⟩

/-- A read of the address just written gives the byte written. -/
theorem Memory.read_write_same (m : List Host.Cell) (a : Nat) (v : Byte) (h : Memory.wf m = true) :
    Memory.read (Memory.write m a v) a = v := by
  induction m with
  | nil => by_cases hv : v = Memory.unlisted <;> simp [Memory.write, Memory.read_cons, hv]
  | cons c rest ih =>
    obtain ⟨b, w⟩ := c
    obtain ⟨-, -, h3, h4⟩ := (Memory.wf_cons _ _).mp h
    have hw := ih h4
    unfold Memory.write
    by_cases hab : a < b
    · have hu : Memory.read ((b, w) :: rest) a = Memory.unlisted :=
        Memory.read_of_above _ _ fun d hd => by
          rcases List.mem_cons.mp hd with rfl | hd
          · exact hab
          · exact Nat.lt_trans hab (h3 d hd)
      by_cases hv : v = Memory.unlisted <;> simp [hab, hv, hu, Memory.read_cons (b := a)]
    · by_cases hab' : a = b
      · subst hab'
        by_cases hv : v = Memory.unlisted
        · simp [hv, Memory.read_of_above _ _ h3]
        · simp [hv, Memory.read_cons]
      · simp [hab, hab', Memory.read_cons, hw, Ne.symm hab']

/-! ### Runs of cells -/

/-- Addresses outside the n written ones keep their bytes. -/
theorem Memory.read_writeAll_other (m : List Host.Cell) (a a' : Nat) (vs : List Byte)
    (h : a' < a ∨ a + vs.length ≤ a') : Memory.read (Memory.writeAll m a vs) a' = Memory.read m a' := by
  induction vs generalizing m a with
  | nil => rfl
  | cons v vs ih =>
    simp only [List.length_cons] at h
    rw [Memory.writeAll, ih _ _ (by omega), Memory.read_write_other _ _ _ _ (by omega)]

theorem Memory.writeAll_wf (m : List Host.Cell) (a : Nat) (vs : List Byte)
    (ha : ∀ k < vs.length, inTxWindow (a + k) = true) (h : Memory.wf m = true) :
    Memory.wf (Memory.writeAll m a vs) = true := by
  induction vs generalizing m a with
  | nil => exact h
  | cons v vs ih =>
    refine ih _ _ (fun k hk => ?_) (Memory.write_wf _ _ _ (by simpa using ha 0 (by simp)) h)
    have := ha (k + 1) (by simpa using hk)
    rwa [show a + 1 + k = a + (k + 1) by omega]

/-- The k-th written byte is at the k-th address. -/
theorem Memory.read_writeAll (m : List Host.Cell) (a k : Nat) (vs : List Byte)
    (ha : ∀ i < vs.length, inTxWindow (a + i) = true) (h : Memory.wf m = true) (hk : k < vs.length) :
    Memory.read (Memory.writeAll m a vs) (a + k) = vs[k] := by
  induction vs generalizing m a k with
  | nil => simp at hk
  | cons v vs ih =>
    have h0 : inTxWindow a = true := by simpa using ha 0 (by simp)
    have hs : ∀ i < vs.length, inTxWindow (a + 1 + i) = true := fun i hi => by
      have := ha (i + 1) (by simpa using hi)
      rwa [show a + 1 + i = a + (i + 1) by omega]
    cases k with
    | zero =>
      rw [Memory.writeAll, Memory.read_writeAll_other _ _ _ _ (by omega)]
      simpa using Memory.read_write_same m a v h
    | succ k =>
      have := ih (Memory.write m a v) (a + 1) k hs (Memory.write_wf _ _ _ h0 h) (by simpa using hk)
      rw [Memory.writeAll, show a + (k + 1) = a + 1 + k by omega, this]
      rfl

/-- Any contents a hard reset leaves are in canonical form. -/
theorem Memory.ofCells_wf (cells : List Host.Cell) : Memory.wf (Memory.ofCells cells) = true := by
  have : ∀ m, Memory.wf m = true → Memory.wf (cells.foldl
      (fun m c => if inTxWindow c.1 then Memory.write m c.1 c.2 else m) m) = true := by
    induction cells with
    | nil => exact fun m h => h
    | cons c cells ih =>
      intro m h
      apply ih
      by_cases hc : inTxWindow c.1 = true
      · simpa [hc] using Memory.write_wf _ _ _ hc h
      · simpa [hc] using h
  exact this [] rfl

/-- TX is in canonical form after reset. -/
theorem reset_tx_wf : Memory.wf State.reset.tx = true := rfl

theorem Memory.readFrom_length (m : List Host.Cell) (a n : Nat) : (Memory.readFrom m a n).length = n := by
  fun_induction Memory.readFrom m a n <;> simp_all

/-- Reading a run of cells is reading each of them. -/
theorem Memory.readFrom_eq (m : List Host.Cell) (a n : Nat) :
    Memory.readFrom m a n = (List.range n).map fun k => Memory.read m (a + k) := by
  induction n generalizing m a with
  | zero => cases m <;> rfl
  | succ n ih =>
    have tail : ∀ m' : List Host.Cell, (∀ k, Memory.read m' (a + 1 + k) = Memory.read m (a + (k + 1))) →
        Memory.readFrom m' (a + 1) n = (List.range n).map fun k => Memory.read m (a + (k + 1)) := fun m' h => by
      rw [ih]; exact List.map_congr_left fun k _ => h k
    rw [List.range_succ_eq_map, List.map_cons, List.map_map]
    cases m with
    | nil => rw [Memory.readFrom, tail [] fun k => rfl]; rfl
    | cons c rest =>
      obtain ⟨b, v⟩ := c
      rw [Memory.readFrom]
      by_cases hb : b = a
      · subst hb
        rw [if_pos rfl, tail rest fun k => by
          rw [Memory.read_cons, if_neg (show b ≠ b + (k + 1) by omega)]; congr 1; omega]
        simp [Memory.read_cons, Function.comp_def]
      · rw [if_neg hb, tail _ fun k => by congr 1; omega]
        simp [Memory.read_cons, hb, Function.comp_def]

theorem Memory.read_filter (m : List Host.Cell) (lo a : Nat) (h : lo ≤ a) :
    Memory.read (m.filter fun c => decide (lo ≤ c.1)) a = Memory.read m a := by
  induction m with
  | nil => rfl
  | cons c rest ih =>
    obtain ⟨b, v⟩ := c
    by_cases hb : lo ≤ b
    · simp [hb, Memory.read_cons, ih]
    · simp [hb, Memory.read_cons, ih, show b ≠ a by omega]

/-- The cells TX[j] to TX[j+n-1], one by one. -/
theorem txCells_eq (tx : List Host.Cell) (j n : Nat) :
    txCells tx j n = (List.range n).map fun k => Memory.read tx (txBase + j + k) := by
  rw [txCells, Memory.readFrom_eq]
  exact List.map_congr_left fun k _ => Memory.read_filter _ _ _ (by omega)

theorem txCells_length (tx : List Host.Cell) (j n : Nat) : (txCells tx j n).length = n := by
  simp [txCells_eq]

end Sys2Proof.Machine
end

