-- ==== Sys2Proof/Laws/State.lean ====
section
/-! SUPPORT. What each named update of the state leaves in each field. -/

namespace Sys2Proof.Machine

open Sys2Proof

section Raise

variable (s : State) (code : ErrorCode) (cmd : HostWord) (info : Nat)

@[simp] theorem raise_params : (s.raise code cmd info).params = s.params := rfl
@[simp] theorem raise_sponge : (s.raise code cmd info).sponge = s.sponge := rfl
@[simp] theorem raise_mid : (s.raise code cmd info).mid = s.mid := rfl
@[simp] theorem raise_work : (s.raise code cmd info).work = s.work := rfl
@[simp] theorem raise_nonce : (s.raise code cmd info).nonce = s.nonce := rfl
@[simp] theorem raise_trunk : (s.raise code cmd info).trunk = s.trunk := rfl
@[simp] theorem raise_branch : (s.raise code cmd info).branch = s.branch := rfl
@[simp] theorem raise_mwm : (s.raise code cmd info).mwm = s.mwm := rfl
@[simp] theorem raise_offset : (s.raise code cmd info).offset = s.offset := rfl
@[simp] theorem raise_winOffset : (s.raise code cmd info).winOffset = s.winOffset := rfl
@[simp] theorem raise_winLane : (s.raise code cmd info).winLane = s.winLane := rfl
@[simp] theorem raise_phase : (s.raise code cmd info).phase = s.phase := rfl
@[simp] theorem raise_err : (s.raise code cmd info).err = true := rfl
@[simp] theorem raise_errCode : (s.raise code cmd info).errCode = code.toBits := rfl
@[simp] theorem raise_errCmd : (s.raise code cmd info).errCmd = cmd := rfl
@[simp] theorem raise_errIndex : (s.raise code cmd info).errIndex = BitVec.ofNat 12 info := rfl
@[simp] theorem raise_tx : (s.raise code cmd info).tx = s.tx := rfl
@[simp] theorem raise_digest : (s.raise code cmd info).digest = s.digest := rfl
@[simp] theorem raise_host : (s.raise code cmd info).host = s.host := rfl
@[simp] theorem raise_schedule : (s.raise code cmd info).schedule = s.schedule := rfl
@[simp] theorem raise_readData : (s.raise code cmd info).readData = s.readData := rfl
@[simp] theorem raise_draws : (s.raise code cmd info).draws = s.draws := rfl

end Raise

section ResetAll

variable (s : State) (cells : List Host.Cell)

@[simp] theorem resetAll_params : (s.resetAll cells).params = s.params := rfl
@[simp] theorem resetAll_sponge : (s.resetAll cells).sponge = zeroSponge := rfl
@[simp] theorem resetAll_mid : (s.resetAll cells).mid =
    Vector.ofFn fun k => wordOfLanes (Config.freeMid s.draws k.val) (s.params.wordBits / 2) := rfl
@[simp] theorem resetAll_work : (s.resetAll cells).work =
    Vector.ofFn fun k => wordOfLanes (Config.freeWork s.draws k.val) (s.params.wordBits / 2) := rfl
@[simp] theorem resetAll_nonce : (s.resetAll cells).nonce = Vector.ofFn fun k => Config.freeNonce s.draws k.val := rfl
@[simp] theorem resetAll_trunk : (s.resetAll cells).trunk = Vector.ofFn fun k => Config.freeTrunk s.draws k.val := rfl
@[simp] theorem resetAll_branch : (s.resetAll cells).branch =
    Vector.ofFn fun k => Config.freeBranch s.draws k.val := rfl
@[simp] theorem resetAll_mwm : (s.resetAll cells).mwm = 0 := rfl
@[simp] theorem resetAll_offset : (s.resetAll cells).offset = 0 := rfl
@[simp] theorem resetAll_winOffset : (s.resetAll cells).winOffset = 0 := rfl
@[simp] theorem resetAll_winLane : (s.resetAll cells).winLane = 0 := rfl
@[simp] theorem resetAll_phase : (s.resetAll cells).phase = .idle := rfl
@[simp] theorem resetAll_err : (s.resetAll cells).err = false := rfl
@[simp] theorem resetAll_errCode : (s.resetAll cells).errCode = 0 := rfl
@[simp] theorem resetAll_errCmd : (s.resetAll cells).errCmd = 0 := rfl
@[simp] theorem resetAll_errIndex : (s.resetAll cells).errIndex = 0 := rfl
@[simp] theorem resetAll_tx : (s.resetAll cells).tx = cells := rfl
@[simp] theorem resetAll_digest : (s.resetAll cells).digest = Vector.replicate Config.hashSyms 0x00 := rfl
@[simp] theorem resetAll_host : (s.resetAll cells).host = s.host := rfl
@[simp] theorem resetAll_schedule : (s.resetAll cells).schedule = s.schedule := rfl
@[simp] theorem resetAll_readData : (s.resetAll cells).readData = s.readData := rfl
@[simp] theorem resetAll_draws : (s.resetAll cells).draws = s.draws + 1 := rfl

end ResetAll

section WithCommand

variable (s : State) (v : HostWord)

@[simp] theorem withCommand_params : (s.withCommand v).params = s.params := rfl
@[simp] theorem withCommand_sponge : (s.withCommand v).sponge = s.sponge := rfl
@[simp] theorem withCommand_mid : (s.withCommand v).mid = s.mid := rfl
@[simp] theorem withCommand_work : (s.withCommand v).work = s.work := rfl
@[simp] theorem withCommand_nonce : (s.withCommand v).nonce = s.nonce := rfl
@[simp] theorem withCommand_trunk : (s.withCommand v).trunk = s.trunk := rfl
@[simp] theorem withCommand_branch : (s.withCommand v).branch = s.branch := rfl
@[simp] theorem withCommand_mwm : (s.withCommand v).mwm = s.mwm := rfl
@[simp] theorem withCommand_offset : (s.withCommand v).offset = s.offset := rfl
@[simp] theorem withCommand_winOffset : (s.withCommand v).winOffset = s.winOffset := rfl
@[simp] theorem withCommand_winLane : (s.withCommand v).winLane = s.winLane := rfl
@[simp] theorem withCommand_phase : (s.withCommand v).phase = s.phase := rfl
@[simp] theorem withCommand_err : (s.withCommand v).err = s.err := rfl
@[simp] theorem withCommand_errCode : (s.withCommand v).errCode = s.errCode := rfl
@[simp] theorem withCommand_errCmd : (s.withCommand v).errCmd = s.errCmd := rfl
@[simp] theorem withCommand_errIndex : (s.withCommand v).errIndex = s.errIndex := rfl
@[simp] theorem withCommand_tx : (s.withCommand v).tx = s.tx := rfl
@[simp] theorem withCommand_digest : (s.withCommand v).digest = s.digest := rfl
@[simp] theorem withCommand_host : (s.withCommand v).host = .write 0x0000 4 v :: s.host := rfl
@[simp] theorem withCommand_schedule : (s.withCommand v).schedule = .host :: s.schedule := rfl
@[simp] theorem withCommand_readData : (s.withCommand v).readData = s.readData := rfl
@[simp] theorem withCommand_draws : (s.withCommand v).draws = s.draws := rfl

end WithCommand

end Sys2Proof.Machine
end

