-- ==== Sys2Proof/Laws/Ops.lean ====
section
/-! SUPPORT. What each shared operation of the machine can do, said once: the latch, the checks, the search step,
and the turns. -/

namespace Sys2Proof.Machine

open Sys2Proof

/-! ### The latch and the checks -/

section Checks

variable (s : State) (v : HostWord) (done : State)

theorem unlessLatched_live (h : s.err = false) : s.unlessLatched done = done := by simp [State.unlessLatched, h]

theorem unlessLatched_latched (h : s.err = true) : s.unlessLatched done = s := by simp [State.unlessLatched, h]

theorem checkBusy_pass (h : s.phase ≠ .searching) : s.checkBusy v done = done := if_neg h

theorem checkBusy_fail (h : s.phase = .searching) : s.checkBusy v done = s.raise .busy v 0 := if_pos h

theorem lengthAccepted_iff (len : Nat) : lengthAccepted len = true ↔ 0 < len ∧ len % 81 = 0 ∧ len ≤ 2673 := by
  simp [lengthAccepted, and_assoc]

theorem checkLength_pass (len : Nat) (h : lengthAccepted len = true) : s.checkLength v len done = done := if_pos h

theorem checkLength_fail (len : Nat) (h : lengthAccepted len = false) :
    s.checkLength v len done = s.raise .length v 0 := by simp [State.checkLength, h]

theorem mwmAccepted_iff (m : Nat) : mwmAccepted m = true ↔ 1 ≤ m ∧ m ≤ 243 := by simp [mwmAccepted]

theorem checkParam_pass (m : Nat) (h : mwmAccepted m = true) : s.checkParam v m done = done := if_pos h

theorem checkParam_fail (m : Nat) (h : mwmAccepted m = false) : s.checkParam v m done = s.raise .param v 0 := by
  simp [State.checkParam, h]

theorem checkSequence_pass (p : Phase) (h : s.phase = p) : s.checkSequence v p done = done := if_pos h

theorem checkSequence_fail (p : Phase) (h : s.phase ≠ p) :
    s.checkSequence v p done = s.raise .sequence v 0 := if_neg h

theorem checkSymbols_pass (len : Nat) (h : lowestBadCell s.tx len = none) : s.checkSymbols v len done = done := by
  simp [State.checkSymbols, h]

theorem checkSymbols_fail (len j : Nat) (h : lowestBadCell s.tx len = some j) :
    s.checkSymbols v len done = s.raise .symbol v j := by simp [State.checkSymbols, h]

end Checks

theorem txCell_eq (s : State) (j : Nat) : s.txCell j = Memory.read s.tx (txBase + j) := rfl

/-- No bad cell is found exactly when every cell of the range is a symbol code. -/
theorem lowestBadCell_none (tx : List Host.Cell) (len : Nat) :
    lowestBadCell tx len = none ↔ ∀ j < len, validSymbol (Memory.read tx (txBase + j)) = true := by
  simp [lowestBadCell, txCells_eq]

/-- The bad cell found is the lowest one of the range. -/
theorem lowestBadCell_some (tx : List Host.Cell) (len j : Nat) :
    lowestBadCell tx len = some j ↔ j < len ∧ validSymbol (Memory.read tx (txBase + j)) = false ∧
      ∀ k < j, validSymbol (Memory.read tx (txBase + k)) = true := by
  simp only [lowestBadCell, txCells_eq, List.findIdx?_eq_some_iff_getElem]
  constructor
  · rintro ⟨h, h1, h2⟩
    simp only [List.length_map, List.length_range] at h
    refine ⟨h, by simpa using h1, fun k hk => ?_⟩
    simpa using h2 k hk
  · rintro ⟨h, h1, h2⟩
    exact ⟨by simpa using h, by simpa using h1, fun k hk => by simpa using h2 k hk⟩

/-! ### The search step -/

/-- The winning lane is the least lane of the batch that succeeds. -/
theorem winningLane_some (p : Params) (work : Vector LaneWord Config.stateLen) (m i : Nat) :
    winningLane p work m = some i ↔
      i < p.lanes ∧ laneSucceeds work m i = true ∧ ∀ k < i, laneSucceeds work m k = false := by
  simp only [winningLane, List.find?_range_eq_some, List.mem_range, Bool.not_eq_eq_eq_not, Bool.not_true]
  tauto

theorem winningLane_none (p : Params) (work : Vector LaneWord Config.stateLen) (m : Nat) :
    winningLane p work m = none ↔ ∀ i < p.lanes, laneSucceeds work m i = false := by
  simp [winningLane]

/-- A search step ends in the OFFSET error, in FOUND, or with OFFSET advanced. -/
theorem searchStep_cases (s : State) (cmd : HostWord) :
    (s.offsetSpent = true ∧ s.searchStep cmd = s.raise .offset cmd 0) ∨
    (s.offsetSpent = false ∧ ∃ i, winningLane s.params s.batchWork s.mwm.toNat = some i ∧
      s.searchStep cmd = { s with
        work := s.batchWork, winLane := BitVec.ofNat 16 i, winOffset := s.offset + BitVec.ofNat 64 i,
        phase := .found }) ∨
    (s.offsetSpent = false ∧ winningLane s.params s.batchWork s.mwm.toNat = none ∧
      s.searchStep cmd = { s with
        work := s.batchWork, offset := s.offset + BitVec.ofNat 64 s.params.lanes }) := by
  unfold State.searchStep State.recordBatch
  cases hs : s.offsetSpent with
  | true => exact .inl ⟨rfl, if_pos rfl⟩
  | false =>
    rw [if_neg (by simp)]
    cases hw : winningLane s.params s.batchWork s.mwm.toNat with
    | some i => exact .inr (.inl ⟨rfl, i, rfl, rfl⟩)
    | none => exact .inr (.inr ⟨rfl, rfl, rfl⟩)

theorem searchEnabled_iff (s : State) : s.searchEnabled = true ↔ s.phase = .searching ∧ s.err = false := by
  simp [State.searchEnabled]

theorem engineTurn_enabled (s : State) (h : s.searchEnabled = true) :
    engineTurn s = s.searchStep 0x00000022 := if_pos h

theorem engineTurn_disabled (s : State) (h : s.searchEnabled = false) : engineTurn s = s := by
  simp [engineTurn, h]

/-! ### Turns and steps -/

/-- A step gives the turn to the agent the schedule names. -/
theorem step_scheduled (s : State) (a : Agent) (rest : List Agent) (h : s.schedule = a :: rest) :
    step s = turn a { s with schedule := rest } := by
  simp [step, scheduledTurn, h]

/-- Past its end, the schedule gives the turn to the engine whenever a search step is enabled. -/
theorem step_unscheduled (s : State) (h : s.schedule = []) : step s = turn s.defaultAgent s := by
  simp [step, scheduledTurn, h]

theorem turn_host (s : State) : turn .host s = hostTurn s := rfl

theorem turn_engine (s : State) : turn .engine s = .next (engineTurn s) := rfl

/-- What a host turn does with each pending operation, accesses of 32 bits. -/
theorem hostTurn_idle (s : State) (h : s.host = []) : hostTurn s = .next s := by simp [hostTurn, h]

theorem hostTurn_read (s : State) (addr : HostAddr) (rest : List HostOp) (h : s.host = .read addr 4 :: rest) :
    hostTurn s = .next { s with host := rest, readData := s.memRead addr } := by simp [hostTurn, h]

theorem hostTurn_write (s : State) (addr : HostAddr) (v : HostWord) (rest : List HostOp)
    (h : s.host = .write addr 4 v :: rest) :
    hostTurn s = State.memWrite { s with host := rest } addr v := by simp [hostTurn, h]

theorem hostTurn_hardReset (s : State) (cells : List Host.Cell) (rest : List HostOp)
    (h : s.host = .hardReset cells :: rest) :
    hostTurn s = .next (State.hardReset { s with host := rest } cells) := by simp [hostTurn, h]

/-- A write of CMD issues the command; another write stores a TX cell or does nothing. -/
theorem memWrite_cmd (s : State) (v : HostWord) : s.memWrite 0x0000 v = s.issue v := rfl

theorem memWrite_tx (s : State) (addr : HostAddr) (v : HostWord) (h : inTxWindow addr.toNat = true) :
    s.memWrite addr v = .next { s with tx := Memory.write s.tx addr.toNat (v.setWidth 8) } := by
  have h0 : addr.toNat ≠ 0 := by
    intro h0; rw [h0] at h; exact absurd h (by decide)
  simp [State.memWrite, h0, h]

theorem memWrite_ignored (s : State) (addr : HostAddr) (v : HostWord) (h0 : addr ≠ 0)
    (h : inTxWindow addr.toNat = false) : s.memWrite addr v = .next s := by
  have h0 : addr.toNat ≠ 0 := fun h => h0 (BitVec.eq_of_toNat_eq (by simpa using h))
  simp [State.memWrite, h0, h]

theorem issue_ok (s : State) (v : HostWord) (i : Instr) (h : decode v = .ok i) : s.issue v = exec i s := by
  simp [State.issue, h]

theorem issue_illegal (s : State) (v : HostWord) (e : IllegalWord) (h : decode v = .error e) :
    s.issue v = .next (s.unlessLatched (s.raise .illegalCmd v 0)) := by
  simp [State.issue, h]

end Sys2Proof.Machine
end

