-- ==== Sys2Proof/Laws/PerInstr.lean ====
section
/-! SUPPORT. Statements made per instruction, about the instruction as syntax. -/

namespace Sys2Proof.Laws

open Sys2Proof

/-- The encoded word matches its row under the row's mask (`30_encoding.md` R80). -/
def EncodesToRow.Statement (i : Instr) : Prop := i.wellFormed = true → encode i &&& i.rowMask = i.rowMatch

theorem EncodesToRow.nop : EncodesToRow.Statement .nop := fun _ => by decide
theorem EncodesToRow.sreset : EncodesToRow.Statement .sreset := fun _ => by decide
theorem EncodesToRow.abort : EncodesToRow.Statement .abort := fun _ => by decide
theorem EncodesToRow.sClear : EncodesToRow.Statement .sClear := fun _ => by decide
theorem EncodesToRow.sPermute : EncodesToRow.Statement .sPermute := fun _ => by decide
theorem EncodesToRow.sFinalize : EncodesToRow.Statement .sFinalize := fun _ => by decide
theorem EncodesToRow.powStep : EncodesToRow.Statement .powStep := fun _ => by decide
theorem EncodesToRow.powRun : EncodesToRow.Statement .powRun := fun _ => by decide
theorem EncodesToRow.powFinal : EncodesToRow.Statement .powFinal := fun _ => by decide

/-- A length operand below 2^12 meets none of the bits the CL mask keeps. -/
theorem maskCL_operand (len opc : Nat) (h : len < 4096) (ho : opc < 256) :
    BitVec.ofNat 32 ((len <<< 16) ||| (0 <<< 8) ||| opc) &&& 0xF000FFFF#32 = BitVec.ofNat 32 opc := by
  have key : ∀ (l : BitVec 12) (o : BitVec 8),
      ((l.setWidth 32 <<< 16) ||| o.setWidth 32) &&& 0xF000FFFF#32 = o.setWidth 32 := by
    intro l o; ext i hi; simp; interval_cases i <;> simp
  have := key (BitVec.ofNat 12 len) (BitVec.ofNat 8 opc)
  have hl : (BitVec.ofNat 12 len).setWidth 32 = BitVec.ofNat 32 len := by
    apply BitVec.eq_of_toNat_eq; simp; omega
  have ho' : (BitVec.ofNat 8 opc).setWidth 32 = BitVec.ofNat 32 opc := by
    apply BitVec.eq_of_toNat_eq; simp; omega
  rw [hl, ho'] at this
  rw [← this]
  congr 1
  apply BitVec.eq_of_toNat_eq
  simp [Nat.mod_eq_of_lt (show len < 4294967296 by omega)]

/-- A difficulty operand below 2^8 meets none of the bits the CM mask keeps. -/
theorem maskCM_operand (m opc : Nat) (h : m < 256) (ho : opc < 256) :
    BitVec.ofNat 32 ((0 <<< 16) ||| (m <<< 8) ||| opc) &&& 0xFFFF00FF#32 = BitVec.ofNat 32 opc := by
  have key : ∀ (l : BitVec 8) (o : BitVec 8),
      ((l.setWidth 32 <<< 8) ||| o.setWidth 32) &&& 0xFFFF00FF#32 = o.setWidth 32 := by
    intro l o; ext i hi; simp; interval_cases i <;> simp
  have := key (BitVec.ofNat 8 m) (BitVec.ofNat 8 opc)
  have hl : (BitVec.ofNat 8 m).setWidth 32 = BitVec.ofNat 32 m := by
    apply BitVec.eq_of_toNat_eq; simp; omega
  have ho' : (BitVec.ofNat 8 opc).setWidth 32 = BitVec.ofNat 32 opc := by
    apply BitVec.eq_of_toNat_eq; simp; omega
  rw [hl, ho'] at this
  rw [← this]
  congr 1
  apply BitVec.eq_of_toNat_eq
  simp [Nat.mod_eq_of_lt (show m < 4294967296 by omega)]

theorem EncodesToRow.sAbsorb (len : Nat) : EncodesToRow.Statement (.sAbsorb len) := fun h =>
  maskCL_operand len 0x11 (of_decide_eq_true h) (by decide)
theorem EncodesToRow.hash (len : Nat) : EncodesToRow.Statement (.hash len) := fun h =>
  maskCL_operand len 0x14 (of_decide_eq_true h) (by decide)
theorem EncodesToRow.powInit (m : Nat) : EncodesToRow.Statement (.powInit m) := fun h =>
  maskCM_operand m 0x20 (of_decide_eq_true h) (by decide)

end Sys2Proof.Laws
end

