-- ==== Sys2Proof/Laws/Uniform.lean ====
section
/-! SUPPORT. Uniform states: a round over equal elements gives equal elements. -/

namespace Sys2Proof.Machine

open Sys2Proof

theorem interleave_replicate {α : Type} (a : α) (m n : Nat) :
    interleave (List.replicate m a) (List.replicate n a) = List.replicate (m + n) a := by
  induction m generalizing n with
  | zero => simp [interleave]
  | succ m ih =>
    cases n with
    | zero => simp [interleave, List.replicate_succ]
    | succ n =>
      rw [List.replicate_succ, List.replicate_succ, interleave, ih, show m + 1 + (n + 1) = m + n + 1 + 1 by omega,
        List.replicate_succ, List.replicate_succ]

/-- A round of a uniform state is uniform (`42_sponge.md` R140, R143). -/
theorem roundWith_replicate {α : Type} (f : α → α → α) (a : α) :
    roundWith f (Vector.replicate Config.stateLen a) = Vector.replicate Config.stateLen (f a a) := by
  rw [← Vector.toList_inj, roundWith_toList]
  simp only [Vector.toList_replicate, roundList, walk, List.take_replicate, List.drop_replicate,
    List.reverse_replicate, interleave_replicate, List.replicate_append_replicate]
  rw [List.zipWith_replicate]
  congr 1

/-- Rounds of a uniform state apply f(a, a) over and over. -/
theorem iterate_roundWith_replicate {α : Type} (f : α → α → α) (n : Nat) (a : α) :
    iterate (roundWith f) n (Vector.replicate Config.stateLen a) =
      Vector.replicate Config.stateLen (iterate (fun b => f b b) n a) := by
  induction n generalizing a with
  | zero => rfl
  | succ n ih => rw [iterate, roundWith_replicate, ih, iterate]

/-- The permutation of a uniform state is uniform. -/
theorem permuteWith_replicate {α : Type} (f : α → α → α) (a : α) :
    permuteWith f (Vector.replicate Config.stateLen a) =
      Vector.replicate Config.stateLen (iterate (fun b => f b b) Config.rounds a) :=
  iterate_roundWith_replicate f Config.rounds a

/-- Overwriting the slot of a uniform state with the same element leaves it. -/
theorem overwriteSlot_replicate {α : Type} (a : α) :
    overwriteSlot (Vector.replicate Config.stateLen a) (Vector.replicate Config.hashLen a) =
      Vector.replicate Config.stateLen a := by
  rw [← Vector.toList_inj, overwriteSlot_toList]
  simp only [Vector.toList_replicate, List.drop_replicate, List.replicate_append_replicate]
  exact congrArg (List.replicate · a) (by decide)

/-- The zero state is a fixed point of the permutation (`42_sponge.md` R143). -/
theorem permute_zeroSponge : permute zeroSponge = zeroSponge := by
  rw [permute, zeroSponge, permuteWith_replicate]
  congr 1

/-- Absorbing zero chunks into the zero state leaves it (`42_sponge.md` R144). -/
theorem absorb_zeroSponge (n : Nat) :
    absorb zeroSponge (List.replicate n (Vector.replicate Config.hashLen .zero)) = zeroSponge := by
  induction n with
  | zero => rfl
  | succ n ih =>
    rw [List.replicate_succ, absorb_cons, absorbChunk, zeroSponge, overwriteSlot_replicate, ← zeroSponge,
      permute_zeroSponge, ih]

/-! ### Uniform inputs -/

/-- A uniform list fills a sequence of its element, whatever its length. -/
theorem fitLength_replicate {α : Type} (n m : Nat) (a : α) :
    fitLength n a (List.replicate m a) = Vector.replicate n a := by
  rw [← Vector.toList_inj, Vector.toList_replicate]
  show (List.replicate m a).take n ++ List.replicate (n - (List.replicate m a).length) a = _
  rw [List.take_replicate, List.length_replicate, List.replicate_append_replicate]
  congr 1
  omega

/-- The trits of a sequence of `9`s. -/
theorem symbolsToTrits_replicate (n : Nat) :
    symbolsToTrits (List.replicate n 0) = List.replicate (3 * n) .zero := by
  induction n with
  | zero => rfl
  | succ n ih =>
    have h : symbolsToTrits (0 :: List.replicate n 0) = tryte 0 ++ symbolsToTrits (List.replicate n 0) := rfl
    rw [List.replicate_succ, h, ih, show 3 * (n + 1) = 3 + 3 * n by omega, ← List.replicate_append_replicate]
    rfl

/-- The chunks of a sequence of `9`s. -/
theorem tritChunks_replicate (n m : Nat) :
    tritChunks n (List.replicate m .zero) = List.replicate n (Vector.replicate Config.hashLen .zero) := by
  rw [List.eq_replicate_iff]
  refine ⟨by rw [tritChunks, List.length_map, List.length_range], fun b hb => ?_⟩
  rw [tritChunks, List.mem_map] at hb
  obtain ⟨c, -, rfl⟩ := hb
  rw [List.drop_replicate, fitLength_replicate]

/-- A field of TX whose cells all hold `9`. -/
theorem txField_nines (tx : List Host.Cell) (j : Nat)
    (h : ∀ k < Config.hashSyms, Memory.read tx (txBase + j + k) = 0x39) :
    txField tx j = Vector.replicate Config.hashLen .zero := by
  have hc : txCells tx j Config.hashSyms = List.replicate Config.hashSyms 0x39 := by
    rw [txCells_eq, List.eq_replicate_iff]
    refine ⟨by rw [List.length_map, List.length_range], fun b hb => ?_⟩
    rw [List.mem_map] at hb
    obtain ⟨k, hk, rfl⟩ := hb
    exact h k (List.mem_range.mp hk)
  rw [txField, hc, cellsToTrits, List.map_replicate, show symbolOf 0x39 = 0 from by decide,
    symbolsToTrits_replicate, fitLength_replicate]

end Sys2Proof.Machine
end

