-- ==== Sys2Proof/Tests/Slice0.lean ====
section
/-! SUPPORT. Tests on the spec's own words, tables and vectors, and one witness for the hypotheses of each
statement. -/

namespace Sys2Proof.Tests

open Sys2Proof Sys2Proof.Machine

-- One theorem after the other: kernel evaluations that wait for one another would each hold a thread.
set_option Elab.async false

/-! ### Well-formedness: each check refuses an ill-formed term -/

theorem test_absorb_length_must_fit : (Instr.sAbsorb 4096).wellFormed = false := by decide
theorem test_hash_length_must_fit : (Instr.hash 4096).wellFormed = false := by decide
theorem test_difficulty_must_fit : (Instr.powInit 256).wellFormed = false := by decide

/-! ### Decoding: one word per command, written out from `30_encoding.md` R76 and R80
(RSV | LEN | MWM | OPC) -/

theorem test_decode_nop : decode 0b0000_000000000000_00000000_00000000 = .ok .nop := by decide
theorem test_decode_sreset : decode 0b0000_000000000000_00000000_00000001 = .ok .sreset := by decide
theorem test_decode_abort : decode 0b0000_000000000000_00000000_00000010 = .ok .abort := by decide
theorem test_decode_sClear : decode 0b0000_000000000000_00000000_00010000 = .ok .sClear := by decide
theorem test_decode_sAbsorb : decode 0b0000_000001010001_00000000_00010001 = .ok (.sAbsorb 81) := by decide
theorem test_decode_sPermute : decode 0b0000_000000000000_00000000_00010010 = .ok .sPermute := by decide
theorem test_decode_sFinalize : decode 0b0000_000000000000_00000000_00010011 = .ok .sFinalize := by decide
theorem test_decode_hash : decode 0b0000_101001110001_00000000_00010100 = .ok (.hash 2673) := by decide
theorem test_decode_powInit : decode 0b0000_000000000000_00001110_00100000 = .ok (.powInit 14) := by decide
theorem test_decode_powStep : decode 0b0000_000000000000_00000000_00100001 = .ok .powStep := by decide
theorem test_decode_powRun : decode 0b0000_000000000000_00000000_00100010 = .ok .powRun := by decide
theorem test_decode_powFinal : decode 0b0000_000000000000_00000000_00100011 = .ok .powFinal := by decide

/-- The largest operands of the fields. -/
theorem test_decode_full_fields :
    decode 0b0000_111111111111_00000000_00010001 = .ok (.sAbsorb 4095) ∧
    decode 0b0000_000000000000_11111111_00100000 = .ok (.powInit 255) := by decide

/-- A must-be-zero field that is not zero, one per format (`95_test_vectors.md` V-E3, V-E18, V-E19). -/
theorem test_decode_rejects_fields :
    decode 0x00000100 = .error (.nonzeroField 0x00) ∧ decode 0x10510014 = .error (.nonzeroField 0x14) ∧
    decode 0x00510111 = .error (.nonzeroField 0x11) ∧ decode 0x00010320 = .error (.nonzeroField 0x20) := by decide

/-- An unassigned OPC (`95_test_vectors.md` V-E2). -/
theorem test_decode_rejects_opcode : decode 0x00000003 = .error (.unassignedOpcode 0x03) := by decide

/-- The examples of `30_encoding.md` R79. -/
theorem test_encode_examples :
    encode (.hash 2673) = 0x0A710014 ∧ encode (.powInit 14) = 0x00000E20 := by decide

theorem test_table_word : decodeTableWord 32 0x0A710014 = some (.hash 2673) := by decide

/-! ### The codec (`95_test_vectors.md` section 2) -/

/-- V-C1, V-C2. -/
theorem test_symbols_to_trits :
    symbolsToTrits [0, 1, 26] = [.zero, .zero, .zero, .pos, .zero, .zero, .neg, .zero, .zero] ∧
    symbolsToTrits [13, 14] = [.pos, .pos, .pos, .neg, .neg, .neg] := by decide

/-- V-C4 to V-C7. -/
theorem test_trits_to_symbols :
    tritsToSymbols [.pos, .pos] = [4] ∧ tritsToSymbols [.neg, .zero, .zero] = [26] ∧
    tritsToSymbols [.pos] = [1] ∧ tritsToSymbols [.zero, .zero, .zero, .pos] = [0, 1] := by decide

/-- V-C10, V-C11. -/
theorem test_increment :
    incrementTrits [.pos, .pos, .pos] = [.neg, .neg, .neg] ∧
    incrementTrits [.pos, .pos, .zero] = [.neg, .neg, .pos] := by decide

/-- V-C13, V-C17, V-C18. -/
theorem test_add :
    addTrits [.pos, .pos, .pos] 1 = ([.neg, .neg, .neg], 1) ∧ addTrits [.zero, .zero] 100 = ([.pos, .zero], 11) ∧
    addTrits [.pos, .zero, .neg] 13 = ([.neg, .neg, .pos], 0) := by decide

/-- V-C25, V-C26. -/
theorem test_valid_symbols :
    (List.all [0x39, 0x41, 0x5A] fun b => validSymbol (BitVec.ofNat 8 b)) = true ∧
    (List.any [0x00, 0x30, 0x38, 0x3A, 0x40, 0x5B, 0x61, 0xFF] fun b => validSymbol (BitVec.ofNat 8 b)) = false := by
  decide

/-! ### Lanes, W = 8 (`95_test_vectors.md` section 4) -/

/-- V-B1, V-B3. -/
theorem test_broadcast_and_setLane :
    broadcast 8 .zero = 0x55 ∧ broadcast 8 .pos = 0xAA ∧ broadcast 8 .neg = 0xFF ∧
    setLane 8 0x55 2 .neg = 0x75 ∧ setLane 8 0xFF 0 .zero = 0xFD ∧ setLane 8 0xFF 3 .pos = 0xBF ∧
    setLane 8 0xE6 1 .neg = 0xEE := by decide +kernel

/-- V-B2, V-B6. -/
theorem test_lanes_and_formulas :
    (List.range 4).map (laneTritOf 0x67) = [some .neg, some .zero, some .pos, some .zero] ∧
    mixC 8 0x67 = 0xDE ∧ mixD 8 0xAF 0xDE = 0x96 ∧ mixWord 8 0x67 0xAF = 0x96 := by decide +kernel

/-! ### Small states -/

/-- The build W = 2, LANES = 1. -/
def tinyParams : Params where
  wordBits := 2
  lanes := 1
  wordBits_even := by decide
  wordBits_ge := by decide
  wordBits_le := by decide
  lanes_ge := by decide
  lanes_le := by decide

/-- The state s1 of `95_test_vectors.md` section 3: S[0] = 1 and every other trit 0. -/
def oneSponge : Vector Trit 729 := overwriteSlot zeroSponge (fitLength 243 .zero [.pos])

/-- TX[0..n) holds the symbol `9` in every cell. -/
def nines (n : Nat) : List Host.Cell := (List.range n).map fun j => (0x1000 + j, 0x39#8)

/-- A fresh search context of the tiny build whose every candidate field is 0. -/
def freshSearch : State :=
  { State.powerOn tinyParams [] with phase := .ready, mwm := 1, mid := midState 2 zeroSponge }

/-- A state of the default build in the given phase. -/
def inPhase (p : Phase) : State := { State.reset with phase := p }

/-- A state of the default build with the LENGTH error of HASH 100 latched. -/
def latched : State := State.reset.raise .length 0x00640014 0

/-- What a step answers, seen through f. -/
def seen {α : Type} (f : State → α) (o : Host.Outcome State Fault Refusal) : Option α :=
  match o with
  | .next t => some (f t)
  | .fault _ => none
  | .refused _ => none

/-- STATUS, ERR_CMD and ERR_INDEX after the word w is written to CMD. -/
def after (s : State) (w : Nat) : Option (HostWord × HostWord × BitVec 12) :=
  seen (fun t => (t.status, t.errCmd, t.errIndex)) (step (s.withFetchWord 32 w))

/-! ### Commands, registers and errors (`95_test_vectors.md` section 6) -/

theorem test_nop_while_searching : after (inPhase .searching) 0x00000000 = some (0x2, 0, 0) := by decide +kernel
theorem test_sreset_clears_latch : after latched 0x00000001 = some (0x0, 0, 0) := by decide +kernel
theorem test_abort_stops_search : after (inPhase .searching) 0x00000002 = some (0x1, 0, 0) := by decide +kernel
theorem test_abort_keeps_found : after (inPhase .found) 0x00000002 = some (0x3, 0, 0) := by decide +kernel
theorem test_hash_100_is_length : after State.reset 0x00640014 = some (0x34, 0x00640014, 0) := by decide +kernel
theorem test_busy_before_length : after (inPhase .searching) 0x00640014 = some (0x26, 0x00640014, 0) := by
  decide +kernel
theorem test_illegal_word : after State.reset 0x00000100 = some (0x14, 0x00000100, 0) := by decide +kernel
theorem test_length_before_symbol : after State.reset 0x00000011 = some (0x34, 0x00000011, 0) := by decide +kernel
theorem test_param_before_symbol : after State.reset 0x00000020 = some (0x44, 0x00000020, 0) := by decide +kernel
theorem test_param_above_243 : after State.reset 0x0000F420 = some (0x44, 0x0000F420, 0) := by decide +kernel
theorem test_step_needs_ready : after State.reset 0x00000021 = some (0x54, 0x00000021, 0) := by decide +kernel
theorem test_run_enters_searching : after (inPhase .ready) 0x00000022 = some (0x2, 0, 0) := by decide +kernel
theorem test_final_needs_found : after (inPhase .ready) 0x00000023 = some (0x55, 0x00000023, 0) := by decide +kernel
theorem test_latched_ignores_others :
    (after latched 0x00000000, after latched 0x00000002, after latched 0x00010001) =
      (some (0x34, 0x00640014, 0), some (0x34, 0x00640014, 0), some (0x34, 0x00640014, 0)) := by decide +kernel

/-- V-E9: TX[0..81) valid except TX[5] = 0x61. -/
theorem test_symbol_index :
    after { State.reset with tx := Memory.write (nines 81) 0x1005 0x61 } 0x00510014 =
      some (0x64, 0x00510014, 5) := by decide +kernel

/-- V-P9: the bound itself may run, one more may not; the engine records the POW_RUN word. -/
theorem test_offset_bound :
    State.offsetSpent { State.reset with offset := BitVec.ofNat 64 (2 ^ 64 - 33) } = false ∧
    after { inPhase .ready with offset := BitVec.ofNat 64 (2 ^ 64 - 32) } 0x00000021 = some (0x75, 0x00000021, 0) ∧
    (engineTurn { inPhase .searching with offset := BitVec.ofNat 64 (2 ^ 64 - 32) }).errCmd = 0x00000022 := by
  decide +kernel

/-- V-E12, V-E13, V-E14. -/
theorem test_map_reads :
    State.reset.memRead 0x0002 = 0x00200040 ∧
    seen (fun t => t.memRead 0x1000) (State.reset.memWrite 0x1000 0x12345641) = some 0x00000041 ∧
    State.reset.memRead 0x0050 = 0 ∧ State.reset.memRead 0x2000 = 0 := by decide +kernel

/-! ### The sponge and the search (`95_test_vectors.md` sections 3 and 5) -/

/-- V-S1: one round of s1. -/
theorem test_one_round :
    (spongeRound oneSponge).toList.take 2 = [.zero, .neg] ∧ (spongeRound oneSponge).toList.drop 727 = [.neg, .pos] := by
  decide +kernel

/-- V-S5, by S_PERMUTE: the first 12 trits of permute(s1). -/
theorem test_permute_s1 :
    seen (fun t => t.sponge.toList.take 12) (exec .sPermute { State.reset with sponge := oneSponge }) =
      some [.pos, .zero, .zero, .pos, .zero, .zero, .zero, .pos, .pos, .zero, .zero, .pos] := by decide +kernel

/-- V-S7, by HASH 81 of "A" and 80 times "9": the first 4 symbols of the digest, "AALI". -/
theorem test_hash_81 :
    seen (fun t => t.digest.toList.take 4)
        (exec (.hash 81) { State.reset with tx := Memory.write (nines 81) 0x1000 0x41 }) =
      some [0x41, 0x41, 0x4C, 0x49] := by decide +kernel

/-- V-S12: S_FINALIZE after reset writes 0x39 to every cell; S_CLEAR leaves zeros. -/
theorem test_finalize_reset :
    seen (fun t => t.digest.toList.all (· == 0x39)) (exec .sFinalize State.reset) = some true ∧
    seen (fun t => t.sponge.toList.all (· == .zero)) (exec .sClear { State.reset with sponge := oneSponge }) =
      some true := by decide +kernel

/-- V-C23, by POW_FINAL: nonce 0 and WIN_OFFSET 47 give "TB" and then "9". -/
theorem test_final_splices_nonce :
    seen (fun t => (t.phase, t.txCell 2430, t.txCell 2431, t.txCell 2432, t.txCell 2429))
        (exec .powFinal { inPhase .found with winOffset := 47 }) =
      some (.idle, 0x54, 0x42, 0x39, 0x00) := by decide +kernel

/-- The text of a host program line (`30_encoding.md` R83, R84). -/
theorem test_assemble_line :
    assembleLine "HASH 2673 ; the digest".toList = some [commandOp (.hash 2673)] ∧
    assembleLine "LOADTX 1, \"9A\"".toList = some [writeOp 0x1001 0x39, writeOp 0x1002 0x41] := by decide +kernel

/-! ### Witnesses: a concrete state and operands that meet the hypotheses of each statement -/

theorem witness_DecodeEncodeRoundTrip :
    (Instr.hash 4095).wellFormed = true ∧ (Instr.powInit 255).wellFormed = true := by decide

theorem witness_EncodeDecodeRoundTrip : decode 0x0FFF0014 = .ok (.hash 4095) := by decide

theorem witness_DecodeSelectsTheTableRow :
    decode 0x0000FF20 = .ok (.powInit 255) ∧ matchesRow 0x0000FF20 = true := by decide

theorem witness_UnmatchedWordRaisesIllegalCmd :
    matchesRow 0x00000003 = false ∧ matchesRow 0x10510014 = false ∧ State.reset.err = false := by decide +kernel

/-- The host is about to make this access. -/
def aboutTo (op : HostOp) (s : State) : State := { s with host := [op], schedule := [.host] }

theorem witness_StepRunsTheDecodedCommand :
    (aboutTo (.write 0 4 0x22) (inPhase .ready)).schedule = .host :: [] ∧
    (aboutTo (.write 0 4 0x22) (inPhase .ready)).host = .write 0x0000 4 0x22 :: [] ∧
    State.schedule { inPhase .ready with host := [.write 0 4 0x22] } = [] ∧
    State.searchEnabled { inPhase .ready with host := [.write 0 4 0x22] } = false ∧
    decode 0x00000022 = .ok .powRun := by decide +kernel

theorem witness_AccessesAreOfOneWord :
    (aboutTo (.read 0x0001 4) State.reset).host = .read 0x0001 4 :: [] ∧
    (aboutTo (.write 0x1000 4 0x41) State.reset).host = .write 0x1000 4 0x41 :: [] ∧
    (aboutTo (.read 0x0001 2) State.reset).host = .read 0x0001 2 :: [] ∧
    (aboutTo (.write 0x1000 8 0x41) State.reset).host = .write 0x1000 8 0x41 :: [] ∧
    2 ≠ 4 ∧ 8 ≠ 4 := ⟨rfl, rfl, rfl, rfl, by decide, by decide⟩

theorem witness_TxCellsStoreTheLowByte : Memory.wf (nines 2673) = true ∧ 0 < 2673 ∧ 2672 < 2673 := by
  decide +kernel

/-- The addresses at both ends of every hole and of the read-only windows. -/
theorem witness_UnmappedAndReadOnlyAccesses :
    ((List.all [0x000B, 0x00FF, 0x0151, 0x0FFF, 0x1A71, 0xFFFF] fun a : HostAddr =>
      decide ((0x000A < a.toNat ∧ a.toNat < 0x0100) ∨ (0x0150 < a.toNat ∧ a.toNat < 0x1000) ∨ 0x1A70 < a.toNat)) =
        true) ∧
    ((List.all [0x0001, 0x000A, 0x0100, 0x0150, 0x0FFF, 0x1A71, 0xFFFF] fun a : HostAddr =>
      decide (a ≠ 0 ∧ (a.toNat < 0x1000 ∨ 0x1A70 < a.toNat))) = true) ∧
    (aboutTo (.read 0x1A71 4) State.reset).host = .read 0x1A71 4 :: [] ∧
    (aboutTo (.write 0x0150 4 1) State.reset).host = .write 0x0150 4 1 :: [] := by decide +kernel

theorem witness_RegisterMapReads : 0 < 81 ∧ 80 < 81 := by decide

theorem witness_StorageCodes : 1 ≤ (1 : SymIdx).val ∧ 1 ≤ (26 : SymIdx).val := by decide

theorem witness_ReadsHaveNoSideEffect :
    (aboutTo (.read 0x0001 4) latched).host = .read 0x0001 4 :: [] ∧
    (∃ t, hostTurn (aboutTo (.read 0x0001 4) latched) = .next t) ∧
    Memory.wf State.reset.tx = true ∧ (0x1A70 : HostAddr) ≠ 0 ∧ (∃ t, State.reset.memWrite 0x1A70 0x41 = .next t) :=
  ⟨rfl, ⟨_, rfl⟩, rfl, by decide, ⟨_, rfl⟩⟩

theorem witness_CodecRoundTrip : [Trit.pos, Trit.pos, Trit.neg].length % 3 = 0 := by decide

theorem witness_BalancedIsTheUniqueRepresentation :
    [Trit.pos, Trit.pos].length = 2 ∧ (3 : Int) ^ 2 ∣ tritsVal [.pos, .pos] - (-5) := by decide

theorem witness_RoundIndexPattern : 0 < 364 ∧ 363 < 364 := by decide

theorem witness_UniformStatesAreFixed : 1 ≤ 1 := Nat.le_refl 1

theorem witness_AbsorbOverwritesTheInputSlot :
    oneSponge.toList.take 243 ≠ zeroSponge.toList.take 243 ∧
    oneSponge.toList.drop 243 = zeroSponge.toList.drop 243 := by decide +kernel

theorem witness_LaneMasks : 2 % 2 = 0 ∧ 64 % 2 = 0 := by decide

theorem witness_SetLaneReplacesOneLane : 8 % 2 = 0 ∧ 0xE4 < 2 ^ 8 ∧ 0 < 8 / 2 ∧ 3 < 8 / 2 ∧ 3 ≠ 0 := by decide

theorem witness_BroadcastFillsEveryLane : 2 % 2 = 0 ∧ 0 < 2 / 2 := by decide

/-- A word with a lane of each code, 0b00 included. -/
theorem witness_LanesAreIndependent :
    8 % 2 = 0 ∧ 0xE4 < 2 ^ 8 ∧ 0x1B < 2 ^ 8 ∧ (List.range 4).map (laneOf 0xE4) = [0, 1, 2, 3] := by decide

/-- Two lanes that differ: 0x6 holds 1 in lane 0 and 0 in lane 1. -/
def twoLanes : Vector LaneWord 729 := Vector.replicate 729 0x6

theorem twoLanes_holds (i : Nat) (t : Trit) (h : laneTritOf 0x6 i = some t) :
    LaneHolds i twoLanes (Vector.replicate 729 t) := by
  rw [LaneHolds, projectLane, twoLanes, Vector.map_replicate, Vector.map_replicate, h]

theorem witness_SlicedPermutationMatchesTheScalarOne :
    4 % 2 = 0 ∧ 1 < 4 / 2 ∧ WordsBounded 4 twoLanes ∧ LaneHolds 0 twoLanes (Vector.replicate 729 .pos) ∧
    LaneHolds 1 twoLanes (Vector.replicate 729 .zero) := by
  refine ⟨by decide, by decide, ?_, twoLanes_holds 0 .pos (by decide), twoLanes_holds 1 .zero (by decide)⟩
  unfold WordsBounded; decide +kernel

theorem witness_LaneCodesStayValid : 4 % 2 = 0 ∧ WordsValid 4 twoLanes ∧ WordValid 4 0xF ∧ 1 < 4 / 2 := by
  refine ⟨by decide, ?_, ?_, by decide⟩
  · unfold WordsValid WordValid; decide +kernel
  · unfold WordValid; decide

/-- Widths 4 and 8, and 2 lanes: the words differ beyond them. -/
theorem witness_WidthIndependence :
    4 % 2 = 0 ∧ 8 % 2 = 0 ∧ 2 * 2 ≤ 4 ∧ 2 * 2 ≤ 8 ∧ WordsBounded 4 twoLanes ∧
    WordsBounded 8 (Vector.replicate 729 0xF6) ∧
    ∀ i < 2, twoLanes.map (laneOf · i) = (Vector.replicate 729 0xF6).map (laneOf · i) := by
  refine ⟨by decide, by decide, by decide, by decide, ?_, ?_, fun i hi => ?_⟩
  · unfold WordsBounded; decide +kernel
  · unfold WordsBounded; decide +kernel
  · rw [twoLanes, Vector.map_replicate, Vector.map_replicate]
    exact congrArg (Vector.replicate 729) ((by decide : ∀ i < 2, laneOf 0x6 i = laneOf 0xF6 i) i hi)

theorem witness_CandidateLaw : 0 < 1 ∧ 31 < 32 := by decide

theorem witness_BatchLaneIsTheScalarHash : 31 < Params.default.lanes := by decide

/-! The tiny build searches an all-`9` transaction: the state stays uniform, and offset 0 succeeds. -/

/-- The mid-state of the tiny build over the zero state: 0b01 in its one lane. -/
theorem tiny_midState : midState 2 zeroSponge = Vector.replicate 729 1 := by
  rw [midState, zeroSponge, Vector.map_replicate]
  exact overwriteSlot_replicate 1

theorem tiny_permute : slicedPermute 2 (Vector.replicate 729 1) = Vector.replicate 729 1 := by
  rw [slicedPermute, permuteWith_replicate (mixWord 2) 1]
  exact congrArg (Vector.replicate 729) (by decide +kernel)

theorem tiny_absorb :
    slicedAbsorb 2 (Vector.replicate 729 1) (Vector.replicate 243 .zero) = Vector.replicate 729 1 := by
  rw [slicedAbsorb, Vector.map_replicate]
  exact (congrArg (slicedPermute 2) (overwriteSlot_replicate 1)).trans tiny_permute

theorem tiny_seeded :
    seedLanes 2 0 (Vector.replicate 729 1) (candidates 1 (Vector.replicate 243 .zero) 0) =
      Vector.replicate 729 1 := by
  rw [← Vector.toList_inj]
  decide +kernel

theorem tiny_batch :
    batch tinyParams (midState 2 zeroSponge) (Vector.replicate 243 .zero) (Vector.replicate 243 .zero)
      (Vector.replicate 243 .zero) 0 = Vector.replicate 729 1 := by
  rw [tiny_midState]
  show slicedAbsorb 2 (slicedAbsorb 2 (slicedPermute 2 (seedLanes 2 0 _ (candidates 1 _ 0))) _) _ = _
  rw [tiny_seeded, tiny_permute, tiny_absorb, tiny_absorb]

/-- What the tiny search leaves: found in lane 0 at offset 0. -/
def tinyFound (s : State) : State :=
  { s with work := Vector.replicate 729 1, winLane := 0, winOffset := 0, phase := .found }

theorem tinyFound_tx (s : State) : (tinyFound s).tx = s.tx := rfl

theorem tinyFound_phase (s : State) : (tinyFound s).phase = .found := rfl

theorem tiny_searchStep (s : State) (cmd : HostWord) (hp : s.params = tinyParams) (ho : s.offset = 0)
    (hw : s.batchWork = Vector.replicate 729 1) (hm : s.mwm = 1) : s.searchStep cmd = tinyFound s := by
  have hs : s.offsetSpent = false := by simp [State.offsetSpent, hp, ho, tinyParams]
  have hl : winningLane s.params s.batchWork s.mwm.toNat = some 0 := by
    rw [hp, hw, hm]
    decide +kernel
  rw [State.searchStep, hs, if_neg (by decide), State.recordBatch, hl]
  simp only [hw, ho, tinyFound]
  rfl

theorem freshSearch_batchWork : freshSearch.batchWork = Vector.replicate 729 1 := tiny_batch

theorem witness_SearchStepRecordsTheLeastLane :
    freshSearch.offset.toNat + freshSearch.params.lanes ≤ 2 ^ 64 - 1 ∧ 0 < freshSearch.params.lanes ∧
    laneSucceeds freshSearch.batchWork freshSearch.mwm.toNat 0 = true := by
  rw [freshSearch_batchWork]
  decide +kernel

/-- OFFSET at the first value that breaks the bound of the default build. -/
def spent (p : Phase) : State := { inPhase p with offset := BitVec.ofNat 64 (2 ^ 64 - 32) }

theorem witness_OffsetBoundRaisesOffset :
    2 ^ 64 - 1 < (spent .searching).offset.toNat + (spent .searching).params.lanes ∧
    (spent .searching).searchEnabled = true ∧
    2 ^ 64 - 1 < (spent .ready).offset.toNat + (spent .ready).params.lanes ∧
    (spent .ready).phase = .ready ∧ (spent .ready).err = false := by decide +kernel

/-- POW_STEP of a tiny context in READY finds offset 0. -/
theorem tiny_powStep (s : State) (hp : s.params = tinyParams) (ho : s.offset = 0) (hr : s.phase = .ready)
    (he : s.err = false) (hw : s.batchWork = Vector.replicate 729 1) (hm : s.mwm = 1) :
    exec .powStep s = .next (tinyFound s) := by
  rw [← tiny_searchStep s (encode .powStep) hp ho hw hm]
  show Host.Outcome.next _ = _
  rw [unlessLatched_live _ _ he, checkBusy_pass _ _ _ (by simp [hr]), checkSequence_pass _ _ _ _ hr]

/-- The tiny build after TX is filled with `9`. -/
def allNines : State := State.powerOn tinyParams (nines 2673)

theorem allNines_lowestBadCell : lowestBadCell allNines.tx 2673 = none := by decide +kernel

theorem allNines_valid : CellsValid allNines 2673 := by
  intro j hj
  rw [txCell_eq]
  exact (lowestBadCell_none allNines.tx 2673).mp allNines_lowestBadCell j hj

theorem nines_cells : txCells (nines 2673) 0 2673 = List.replicate 2673 0x39 := by decide +kernel

theorem nines_read (j : Nat) (h : j < 2673) : Memory.read (nines 2673) (txBase + j) = 0x39 := by
  have hc := nines_cells
  rw [txCells_eq, List.eq_replicate_iff] at hc
  exact hc.2 _ (List.mem_map.mpr ⟨j, List.mem_range.mpr h, rfl⟩)

theorem allNines_field (c : Nat) (h : c < 33) : txField (nines 2673) (81 * c) = Vector.replicate 243 .zero := by
  refine txField_nines _ _ fun k hk => ?_
  have hk : k < 81 := hk
  rw [Nat.add_assoc]
  exact nines_read _ (by omega)

theorem allNines_header : headerState (nines 2673) = zeroSponge := by
  have h : txChunks (nines 2673) Config.headerLen = List.replicate 30 (Vector.replicate Config.hashLen .zero) := by
    rw [List.eq_replicate_iff]
    refine ⟨by rw [txChunks, List.length_map, List.length_range]; decide, fun b hb => ?_⟩
    rw [txChunks, List.mem_map] at hb
    obtain ⟨c, hc, rfl⟩ := hb
    have hc : c < 30 := List.mem_range.mp hc
    exact allNines_field c (by omega)
  rw [headerState, h, absorb_zeroSponge]

/-- The context POW_INIT m builds. -/
def contextOf (m : Nat) (s : State) : State :=
  { s with
    sponge := headerState s.tx, mid := midState s.params.wordBits (headerState s.tx)
    nonce := txField s.tx Config.nonceOff, trunk := txField s.tx Config.trunkOff
    branch := txField s.tx Config.branchOff
    mwm := BitVec.ofNat 8 m, offset := 0, winOffset := 0, winLane := 0, phase := .ready }

theorem powInit_builds (m : Nat) (s : State) (he : s.err = false) (hp : s.phase ≠ .searching)
    (hm : mwmAccepted m = true) (hb : lowestBadCell s.tx Config.txLen = none) :
    exec (.powInit m) s = .next (contextOf m s) := by
  show Host.Outcome.next _ = _
  rw [unlessLatched_live _ _ he, checkBusy_pass _ _ _ hp, checkParam_pass _ _ _ _ hm, checkSymbols_pass _ _ _ _ hb]
  rfl

/-- The context POW_INIT 1 builds there. -/
def allNinesContext : State := contextOf 1 allNines

theorem allNines_powInit : exec (.powInit 1) allNines = .next allNinesContext :=
  powInit_builds 1 allNines rfl (by decide) (by decide) allNines_lowestBadCell

theorem contextOf_batchWork (m : Nat) (p : Params) (tx : List Host.Cell) :
    (contextOf m (State.powerOn p tx)).batchWork = batch p (midState p.wordBits (headerState tx))
      (txField tx Config.nonceOff) (txField tx Config.trunkOff) (txField tx Config.branchOff) 0 := rfl

theorem allNinesContext_batchWork : allNinesContext.batchWork = Vector.replicate 729 1 := by
  rw [allNinesContext, allNines, contextOf_batchWork, allNines_header, show Config.nonceOff = 81 * 30 from rfl,
    show Config.trunkOff = 81 * 31 from rfl, show Config.branchOff = 81 * 32 from rfl, allNines_field 30 (by decide),
    allNines_field 31 (by decide), allNines_field 32 (by decide)]
  exact tiny_batch

theorem allNines_wf : Memory.wf allNines.tx = true := by decide +kernel

theorem allNines_path : SearchPath allNinesContext (tinyFound allNinesContext) 1 :=
  .powStep .start rfl rfl (tiny_powStep allNinesContext rfl rfl rfl rfl allNinesContext_batchWork rfl)

theorem allNines_withCandidate : withCandidate (nines 2673) 0 = List.replicate 2673 0 := by decide +kernel

theorem nines_chunks :
    tritChunks 33 (symbolsToTrits (List.replicate 2673 0)) =
      List.replicate 33 (Vector.replicate Config.hashLen .zero) := by
  rw [symbolsToTrits_replicate, tritChunks_replicate]

theorem nines_hash : hashSymbols (List.replicate 2673 0) = finalize zeroSponge := by
  rw [hashSymbols, List.length_replicate, show 2673 / Config.hashSyms = 33 from rfl, nines_chunks,
    absorb_zeroSponge]

theorem powerOn_tx (p : Params) (tx : List Host.Cell) : (State.powerOn p tx).tx = tx := rfl

theorem allNines_succeeds : CandidateSucceeds allNines.tx 1 0 := by
  rw [allNines, powerOn_tx, CandidateSucceeds, allNines_withCandidate, nines_hash]
  decide +kernel

/-- With a path to FOUND, and one that has not found yet. -/
theorem witness_SearchFindsTheLeastOffset :
    allNines.err = false ∧ allNines.phase ≠ .searching ∧ 1 ≤ 1 ∧ 1 ≤ 243 ∧ CellsValid allNines 2673 ∧
    exec (.powInit 1) allNines = .next allNinesContext ∧ CandidateSucceeds allNines.tx 1 0 ∧
    (∀ k < 0, ¬ CandidateSucceeds allNines.tx 1 k) ∧
    allNines.params.lanes * (0 / allNines.params.lanes) + allNines.params.lanes ≤ 2 ^ 64 - 1 ∧
    SearchPath allNinesContext (tinyFound allNinesContext) 1 ∧ SearchPath allNinesContext allNinesContext 0 := by
  refine ⟨rfl, by decide, by decide, by decide, allNines_valid, allNines_powInit, allNines_succeeds, ?_, by decide,
    allNines_path, .start⟩
  exact fun k hk => absurd hk (Nat.not_lt_zero k)

theorem powFinal_then_hash (t : State) :
    ∃ u w, exec .powFinal t = .next u ∧ exec (.hash 2673) u = .next w := ⟨_, _, rfl, rfl⟩

theorem witness_FoundNonceGivesTrailingZeros :
    ∃ s c t u w : State, Memory.wf s.tx = true ∧ s.err = false ∧ s.phase ≠ .searching ∧ 1 ≤ 1 ∧ 1 ≤ 243 ∧
      CellsValid s 2673 ∧ exec (.powInit 1) s = .next c ∧ SearchPath c t 1 ∧ t.tx = c.tx ∧ t.phase = .found ∧
      exec .powFinal t = .next u ∧ exec (.hash 2673) u = .next w := by
  obtain ⟨u, w, hu, hw⟩ := powFinal_then_hash (tinyFound allNinesContext)
  refine ⟨allNines, allNinesContext, tinyFound allNinesContext, u, w, allNines_wf, rfl, by decide, by decide,
    by decide, allNines_valid, allNines_powInit, allNines_path, ?_, ?_, hu, hw⟩
  · exact tinyFound_tx allNinesContext
  · exact tinyFound_phase allNinesContext

theorem witness_AbortResult :
    (inPhase .searching).err = false ∧ (inPhase .searching).phase = .searching ∧
    (inPhase .found).err = false ∧ (inPhase .found).phase ≠ .searching := by decide

theorem witness_ScalarStateCommands : State.reset.err = false ∧ State.reset.phase ≠ .searching := by decide

theorem witness_SAbsorbResult :
    allNines.err = false ∧ allNines.phase ≠ .searching ∧ 0 < 81 ∧ 2673 % 81 = 0 ∧ 2673 ≤ 2673 ∧
    CellsValid allNines 2673 := ⟨rfl, by decide, by decide, by decide, by decide, allNines_valid⟩

theorem witness_HashResult :
    allNines.err = false ∧ allNines.phase ≠ .searching ∧ 0 < 81 ∧ 81 % 81 = 0 ∧ 81 ≤ 2673 ∧ CellsValid allNines 81 :=
  ⟨rfl, by decide, by decide, by decide, by decide, fun j hj => allNines_valid j (by omega)⟩

theorem witness_PowInitResult :
    allNines.err = false ∧ allNines.phase ≠ .searching ∧ 1 ≤ 1 ∧ 243 ≤ 243 ∧ CellsValid allNines 2673 :=
  ⟨rfl, by decide, by decide, by decide, allNines_valid⟩

theorem witness_PowStepResult :
    freshSearch.err = false ∧ freshSearch.phase = .ready ∧
    freshSearch.offset.toNat + freshSearch.params.lanes ≤ 2 ^ 64 - 1 := by decide

theorem witness_PowRunResult : (inPhase .ready).err = false ∧ (inPhase .ready).phase = .ready := by decide

theorem witness_PowFinalResult :
    (inPhase .found).err = false ∧ (inPhase .found).phase = .found ∧ Memory.wf (inPhase .found).tx = true := by decide

/-- TX[0..81) valid except TX[5]. -/
def badCell : State := { State.reset with tx := Memory.write (nines 81) 0x1005 0x61 }

theorem badCell_lowest : IsLowestBad badCell 81 5 := by
  unfold IsLowestBad
  decide +kernel

/-- One word per check, a word that passes the early ones, and both sides of the offset bound. -/
theorem witness_ChecksApplyInOrder :
    latched.err = true ∧ State.reset.err = false ∧
    earlyError .idle 0x00000101 = some .illegalCmd ∧ earlyError .searching 0x00640014 = some .busy ∧
    earlyError .idle 0x0AC20014 = some .length ∧ earlyError .idle 0x0000F420 = some .param ∧
    earlyError .found 0x00000021 = some .sequence ∧
    (earlyError .idle 0x00510011 = none ∧ cellsRead 0x00510011 = 81 ∧ IsLowestBad badCell 81 5) ∧
    (earlyError .ready 0x00000021 = none ∧ CellsValid (spent .ready) (cellsRead 0x00000021) ∧
      2 ^ 64 - 1 < (spent .ready).offset.toNat + (spent .ready).params.lanes) ∧
    (earlyError .ready 0x00000021 = none ∧ CellsValid freshSearch (cellsRead 0x00000021) ∧
      ¬ 2 ^ 64 - 1 < freshSearch.offset.toNat + freshSearch.params.lanes) :=
  ⟨rfl, rfl, by decide +kernel, by decide +kernel, by decide +kernel, by decide +kernel,
    by decide +kernel, ⟨by decide +kernel, by decide +kernel, badCell_lowest⟩,
    ⟨by decide +kernel, fun j hj => absurd hj (Nat.not_lt_zero j), by decide +kernel⟩,
    ⟨by decide +kernel, fun j hj => absurd hj (Nat.not_lt_zero j), by decide +kernel⟩⟩

theorem witness_LatchedCoreIsQuiet :
    latched.err = true ∧ (0x00000002 : HostWord) ≠ 0x00000001 ∧
    (aboutTo (.read 0x1A70 4) latched).err = true ∧ (aboutTo (.read 0x1A70 4) latched).host = .read 0x1A70 4 :: [] ∧
    (0x1A70 : HostAddr) ≠ 0x0001 ∧ 2672 < 2673 := ⟨rfl, by decide, rfl, rfl, by decide, by decide⟩

theorem witness_ErrorsChangeOnlyTheErrorRegisters :
    (∃ t, State.reset.issue 0x00000003 = .next t ∧ t.err = true) ∧
    (∃ t, badCell.issue 0x00510011 = .next t ∧ t.err = true ∧ t.errCode = 6) ∧
    State.reset.err = false ∧ badCell.err = false :=
  ⟨⟨_, rfl, by decide +kernel⟩, ⟨_, rfl, by decide +kernel, by decide +kernel⟩, rfl, rfl⟩

/-- A step that moves to SEARCHING, and one that raises an error. -/
theorem witness_PhaseChangesOnlyByTheTable :
    (∃ t, step ((inPhase .ready).withFetchWord 32 0x22) = .next t ∧ t.phase ≠ .ready) ∧
    (∃ t, step ((inPhase .idle).withFetchWord 32 0x22) = .next t ∧ t.err = true) :=
  ⟨⟨_, rfl, by decide +kernel⟩, ⟨_, rfl, by decide +kernel⟩⟩

theorem witness_ErrorLatchIsSticky :
    (latched.withFetchWord 32 1).err = true ∧ (latched.withFetchWord 32 1).event = .command 0x00000001 ∧
    (∃ t, step (latched.withFetchWord 32 1) = .next t) ∧
    (aboutTo (.hardReset []) latched).event = .hardReset ∧ (∃ t, step (aboutTo (.hardReset []) latched) = .next t) ∧
    (latched.withFetchWord 32 2).event = .command 0x00000002 ∧
    (∃ t, step (latched.withFetchWord 32 2) = .next t) :=
  ⟨rfl, rfl, ⟨_, rfl⟩, rfl, ⟨_, rfl⟩, rfl, ⟨_, rfl⟩⟩

/-- A state whose WORK is not what the next batch writes, and the step that runs that batch. -/
def staleWork : State := { freshSearch with work := Vector.replicate 729 2 }

theorem staleWork_step : step (staleWork.withFetchWord 32 0x21) = .next (tinyFound staleWork) :=
  tiny_powStep staleWork rfl rfl rfl rfl tiny_batch rfl

theorem witness_ElementsChangeOnlyByTheirEvents_work :
    ∃ t, step (staleWork.withFetchWord 32 0x21) = .next t ∧ staleWork.work.toList.take 1 = [2] ∧
      t.work.toList.take 1 = [1] := ⟨_, staleWork_step, by decide +kernel, by decide +kernel⟩

/-- A step that changes each other kind of element: the scalar state, DIGEST, the context with OFFSET falling, TX. -/
theorem witness_ElementsChangeOnlyByTheirEvents :
    seen (fun t => (t.sponge.toList.take 1, t.err))
      (step (State.withFetchWord { State.reset with sponge := oneSponge } 32 0x10)) = some ([.zero], false) ∧
    seen (fun t => t.digest.toList.take 1) (step (State.reset.withFetchWord 32 0x13)) = some [0x39] ∧
    seen (fun t => (t.mwm, t.offset))
      (step (State.withFetchWord { allNines with offset := 64 } 32 0x120)) = some (1, 0) ∧
    seen (fun t => t.tx) (step (aboutTo (.write 0x1A70 4 0x41) State.reset)) = some [(0x1A70, 0x41)] := by
  decide +kernel

theorem witness_SearchDoesNotReadTx : ∃ t, exec .powStep freshSearch = .next t := ⟨_, rfl⟩

/-- A state of the tiny build in READY that meets the invariant, and a step of it. -/
theorem witness_EveryStepKeepsTheInvariant :
    Inv freshSearch ∧ ∃ t, step (freshSearch.withFetchWord 32 0x21) = .next t := by
  refine ⟨⟨rfl, ?_, ?_, ⟨fun _ => ⟨rfl, rfl, rfl⟩, fun h => absurd h (by decide)⟩, fun _ => ?_, .inl ?_⟩, ⟨_, rfl⟩⟩
  · show WordsValid 2 (midState 2 zeroSponge)
    rw [tiny_midState]
    unfold WordsValid WordValid
    decide +kernel
  · show WordsValid 2 (Vector.replicate 729 (broadcast 2 .zero))
    unfold WordsValid WordValid
    decide +kernel
  · exact ⟨by decide, ⟨zeroSponge, rfl⟩, fun _ => ⟨rfl, rfl⟩, fun h => absurd h (by decide)⟩
  · decide +kernel

/-- Two states in IDLE that differ in WORK and NONCE, with a step that goes on and one that is refused. -/
theorem witness_UnspecifiedValuesAreNeverObserved :
    State.observable (aboutTo (.read 0x0001 4) State.reset) =
      State.observable (aboutTo (.read 0x0001 4) { State.reset with
        work := Vector.replicate 729 2, nonce := Vector.replicate 243 .pos, draws := 1 }) ∧
    (∃ t, step (aboutTo (.read 0x0001 4) State.reset) = .next t) ∧
    step (aboutTo (.read 0x0001 2) State.reset) = .refused (.accessSize 2) := ⟨rfl, ⟨_, rfl⟩, rfl⟩

theorem witness_ResetStateReadsZero :
    (0x0001 : HostAddr) ≠ 0x0002 ∧ (0x0FFF : HostAddr) ≠ 0x0002 ∧ (0x0FFF : HostAddr).toNat < 0x1000 := by decide

/-- The reset input while SEARCHING and while an error is latched, and another command while it is. -/
theorem witness_SresetIsAHardResetThatKeepsTx :
    (aboutTo (.hardReset [(0x1000, 0x41)]) (inPhase .searching)).host = .hardReset [(0x1000, 0x41)] :: [] ∧
    (aboutTo (.hardReset []) latched).host = .hardReset [] :: [] ∧ latched.err = true ∧ Instr.abort ≠ .sreset :=
  ⟨rfl, rfl, rfl, by decide⟩

/-- The search stays enabled along the schedule, to its end. -/
theorem witness_EnabledSearchStepIsTaken :
    ∃ t, stepRun 1 { inPhase .searching with schedule := [.host] } = .next t ∧ t.searchEnabled = true :=
  ⟨_, rfl, by decide +kernel⟩

theorem witness_WaitPowPollsStatus :
    (∃ t, hostTurn (aboutTo .waitPow (inPhase .found)) = .next t) ∧ (inPhase .found).phase ≠ .searching ∧
    (∃ t, hostTurn (aboutTo .waitPow (inPhase .searching)) = .next t) ∧
    (inPhase .searching).phase = .searching ∧ (inPhase .searching).err = false :=
  ⟨⟨_, rfl⟩, by decide, ⟨_, rfl⟩, rfl, rfl⟩

theorem witness_LoadTxFillsTheCells :
    Memory.wf State.reset.tx = true ∧ 0 + [(1 : SymIdx), 26].length ≤ 2673 ∧
    2671 + [(1 : SymIdx), 26].length ≤ 2673 := by decide

end Sys2Proof.Tests
end

