-- ==== Sys2Proof/Proofs/Balanced.lean ====
section
/-! The balanced-ternary representation of `00_scope.md` R13 and R14: the value of a digit sequence, its range, and
`balanced len v` as the one sequence of its length that represents v modulo 3^len. -/

namespace Sys2Proof.Machine

open Sys2Proof

/-! ### One digit -/

theorem abs_toInt_le_one (t : Trit) : |t.toInt| ≤ 1 := by cases t <;> decide

/-- The trits are a complete residue system modulo 3, so the digit of v is the one congruent to it. -/
theorem tritOfInt_eq_iff (v : Int) (t : Trit) : tritOfInt v = t ↔ (3 : Int) ∣ v - t.toInt := by
  unfold tritOfInt
  split
  next h0 => cases t <;> simp [Trit.toInt] <;> omega
  next h0 =>
    split
    next h1 => cases t <;> simp [Trit.toInt] <;> omega
    next h1 => cases t <;> simp [Trit.toInt] <;> omega

/-! ### Sequences of digits -/

@[simp] theorem tritsVal_nil : tritsVal [] = 0 := rfl

@[simp] theorem tritsVal_cons (t : Trit) (ts : List Trit) : tritsVal (t :: ts) = t.toInt + 3 * tritsVal ts := rfl

@[simp] theorem balanced_zero (v : Int) : balanced 0 v = [] := rfl

@[simp] theorem balanced_succ (len : Nat) (v : Int) :
    balanced (len + 1) v = tritOfInt v :: balanced len ((v - (tritOfInt v).toInt) / 3) := rfl

/-- The balanced range of R14 holds of every sequence, not of `balanced` alone. -/
theorem two_mul_abs_tritsVal_le (r : List Trit) : 2 * |tritsVal r| ≤ 3 ^ r.length - 1 := by
  induction r with
  | nil => simp
  | cons t ts ih =>
    have habs : |tritsVal (t :: ts)| ≤ |t.toInt| + 3 * |tritsVal ts| := by
      simpa [abs_mul] using abs_add_le t.toInt (3 * tritsVal ts)
    have ht := abs_toInt_le_one t
    rw [List.length_cons, pow_succ]
    omega

/-- A congruence modulo 3^(len + 1) is one modulo 3 on the first digit and one modulo 3^len on the quotient. -/
theorem pow_succ_dvd_cons_iff (len : Nat) (v : Int) (t : Trit) (ts : List Trit) :
    (3 : Int) ^ (len + 1) ∣ tritsVal (t :: ts) - v ↔
      tritOfInt v = t ∧ (3 : Int) ^ len ∣ tritsVal ts - (v - t.toInt) / 3 := by
  have hquot (h : (3 : Int) ∣ v - t.toInt) :
      tritsVal (t :: ts) - v = (tritsVal ts - (v - t.toInt) / 3) * 3 := by
    simp only [tritsVal_cons]
    omega
  have hmod (h : (3 : Int) ^ (len + 1) ∣ tritsVal (t :: ts) - v) : (3 : Int) ∣ v - t.toInt := by
    have h3 : (3 : Int) ∣ tritsVal (t :: ts) - v := (dvd_pow_self 3 len.succ_ne_zero).trans h
    simp only [tritsVal_cons] at h3
    omega
  rw [tritOfInt_eq_iff, ← and_iff_right_of_imp hmod]
  refine and_congr_right fun h => ?_
  rw [hquot h, pow_succ, mul_dvd_mul_iff_right (by decide)]

/-- A sequence is `balanced` of exactly the values it represents modulo 3^len. -/
theorem eq_balanced_iff (len : Nat) (v : Int) (r : List Trit) (hr : r.length = len) :
    r = balanced len v ↔ (3 : Int) ^ len ∣ tritsVal r - v := by
  induction len generalizing v r with
  | zero => simp [List.length_eq_zero_iff.mp hr]
  | succ len ih =>
    obtain ⟨t, ts, rfl⟩ := List.exists_cons_of_length_eq_add_one hr
    have hts : ts.length = len := by simpa using hr
    rw [pow_succ_dvd_cons_iff, ← ih _ ts hts, balanced_succ, List.cons.injEq, eq_comm (a := t)]
    exact and_congr_right fun h => by rw [h]

/-- `balanced len v` represents v modulo 3^len (R14). -/
theorem pow_dvd_tritsVal_balanced_sub (len : Nat) (v : Int) : (3 : Int) ^ len ∣ tritsVal (balanced len v) - v :=
  (eq_balanced_iff len v _ (balanced_length len v)).mp rfl

/-- `balanced len v` lies in the balanced range (R14). -/
theorem two_mul_abs_tritsVal_balanced_le (len : Nat) (v : Int) : 2 * |tritsVal (balanced len v)| ≤ 3 ^ len - 1 := by
  simpa [balanced_length] using two_mul_abs_tritsVal_le (balanced len v)

/-- Settles O15: uniqueness goes digit by digit, the congruence and the range follow for `balanced` itself. -/
theorem balancedIsTheUniqueRepresentation : Obligations.BalancedIsTheUniqueRepresentation :=
  fun len v => ⟨balanced_length len v, pow_dvd_tritsVal_balanced_sub len v, two_mul_abs_tritsVal_balanced_le len v,
    eq_balanced_iff len v⟩

end Sys2Proof.Machine
end

/-! Valid lane codes (`10_state.md` R41): the lane of every word operation, so that the words of a round, of a
permutation and of a batch hold valid codes when the words they start from do (`43_bitsliced.md` R177, R178, R182). -/

namespace Sys2Proof.Machine

open Sys2Proof

/-! ### A lane and its two bits -/

/-- The code h·2 + l of a lane (`30_encoding.md` R74). -/
theorem laneOf_eq_bits (w : LaneWord) (i : Nat) :
    laneOf w i = 2 * (w.testBit (2 * i + 1)).toNat + (w.testBit (2 * i)).toNat := by
  rw [laneOf, wordShr, Nat.toNat_testBit, Nat.toNat_testBit, Nat.shiftRight_eq_div_pow, pow_succ,
    ← Nat.div_div_eq_div_mul]
  omega

@[simp] theorem laneOf_and (a b : LaneWord) (i : Nat) : laneOf (a &&& b) i = laneOf a i &&& laneOf b i := by
  simp only [laneOf, wordShr, Nat.shiftRight_and_distrib]
  exact Nat.and_mod_two_pow (n := 2)

@[simp] theorem laneOf_or (a b : LaneWord) (i : Nat) : laneOf (a ||| b) i = laneOf a i ||| laneOf b i := by
  simp only [laneOf, wordShr, Nat.shiftRight_or_distrib]
  exact Nat.or_mod_two_pow (n := 2)

@[simp] theorem laneOf_xor (a b : LaneWord) (i : Nat) : laneOf (a ^^^ b) i = laneOf a i ^^^ laneOf b i := by
  simp only [laneOf, wordShr, Nat.shiftRight_xor_distrib]
  exact Nat.xor_mod_two_pow (n := 2)

theorem testBit_wordShl (W : Nat) (w : LaneWord) (k b : Nat) :
    (wordShl W w k).testBit b = (decide (b < W) && (decide (k ≤ b) && w.testBit (b - k))) := by
  simp [wordShl, Nat.testBit_mod_two_pow, Nat.testBit_shiftLeft]

section Width

variable {W i : Nat}

theorem laneOf_wordNot {w : LaneWord} (hw : w < 2 ^ W) (hi : i < W / 2) : laneOf (wordNot W w) i = 3 - laneOf w i := by
  have hbit (b : Nat) (hb : b < W) : (wordNot W w).testBit b = !w.testBit b := by
    rw [wordNot, Nat.sub_sub, Nat.add_comm 1 w, Nat.testBit_two_pow_sub_succ hw]
    simp [hb]
  rw [laneOf_eq_bits, laneOf_eq_bits, hbit (2 * i + 1) (by omega), hbit (2 * i) (by omega)]
  cases w.testBit (2 * i + 1) <;> cases w.testBit (2 * i) <;> rfl

/-- The low bit of a lane shifted right by one is its high bit. -/
theorem laneOf_wordShr_one_and_one (w : LaneWord) (i : Nat) : laneOf (wordShr w 1) i &&& 1 = laneOf w i / 2 := by
  have hbit : (wordShr w 1).testBit (2 * i) = w.testBit (2 * i + 1) := by
    rw [wordShr, Nat.testBit_shiftRight, Nat.add_comm]
  rw [laneOf_eq_bits, laneOf_eq_bits, hbit, Nat.and_one_is_mod]
  cases w.testBit (2 * i + 1) <;> cases w.testBit (2 * i) <;> simp [Nat.add_mod]

/-- The high bit of a lane shifted left by one is its low bit. -/
theorem laneOf_wordShl_one_and_two (w : LaneWord) (hi : i < W / 2) :
    laneOf (wordShl W w 1) i &&& 2 = laneOf w i % 2 * 2 := by
  have hbit : (wordShl W w 1).testBit (2 * i + 1) = w.testBit (2 * i) := by
    rw [testBit_wordShl]
    simp [show 2 * i + 1 < W by omega]
  rw [laneOf_eq_bits, laneOf_eq_bits w, hbit]
  cases w.testBit (2 * i + 1) <;> cases w.testBit (2 * i) <;> cases (wordShl W w 1).testBit (2 * i) <;> rfl

/-- A code shifted to lane i stands there, and every other lane is empty. -/
theorem laneOf_wordShl_code {c : Nat} (hc : c < 4) (hi : i < W / 2) (k : Nat) :
    laneOf (wordShl W c (2 * i)) k = if k = i then c else 0 := by
  have hhigh (b : Nat) : c.testBit (b + 2) = false :=
    Nat.testBit_lt_two_pow (hc.trans_le (Nat.pow_le_pow_right (n := 2) (by decide) (Nat.le_add_left 2 b)))
  rcases Nat.lt_trichotomy k i with hk | rfl | hk
  · rw [laneOf_eq_bits, testBit_wordShl, testBit_wordShl]
    simp [show ¬ 2 * i ≤ 2 * k + 1 by omega, show ¬ i ≤ k by omega, hk.ne]
  · rw [laneOf_eq_bits, testBit_wordShl, testBit_wordShl]
    simp only [show 2 * k < W by omega, show 2 * k + 1 < W by omega, decide_true, Bool.true_and, le_refl,
      Nat.le_add_right, Nat.sub_self, Nat.add_sub_cancel_left, if_true]
    interval_cases c <;> rfl
  · obtain ⟨d, rfl⟩ := Nat.exists_eq_add_of_lt hk
    rw [laneOf_eq_bits, testBit_wordShl, testBit_wordShl, show 2 * (i + d + 1) + 1 - 2 * i = 2 * d + 1 + 2 by omega,
      show 2 * (i + d + 1) - 2 * i = 2 * d + 2 by omega, hhigh, hhigh, if_neg (by omega)]
    simp

end Width

/-! ### Words given lane by lane -/

theorem wordOfLanes_lt (f : Nat → Trit) (n : Nat) : wordOfLanes f n < 2 ^ (2 * n) := by
  induction n with
  | zero => simp [wordOfLanes]
  | succ n ih =>
    have hcode : laneCode (f n) * 2 ^ (2 * n) ≤ 3 * 2 ^ (2 * n) :=
      Nat.mul_le_mul_right _ (Nat.le_of_lt_succ (laneCode_lt (f n)))
    rw [wordOfLanes, show 2 * (n + 1) = 2 * n + 2 by omega, pow_add]
    exact (Nat.add_lt_add_of_lt_of_le ih hcode).trans_eq (by ring)

theorem laneOf_wordOfLanes (f : Nat → Trit) {n i : Nat} (hi : i < n) : laneOf (wordOfLanes f n) i = laneCode (f i) := by
  induction n with
  | zero => omega
  | succ n ih =>
    rw [laneOf, wordShr, wordOfLanes, Nat.shiftRight_eq_div_pow]
    rcases Nat.lt_succ_iff_lt_or_eq.mp hi with hlt | rfl
    · have hrest : wordOfLanes f n / 2 ^ (2 * i) % 4 = laneCode (f i) := by
        rw [← Nat.shiftRight_eq_div_pow]
        exact ih hlt
      obtain ⟨d, rfl⟩ := Nat.exists_eq_add_of_lt hlt
      rw [show laneCode (f (i + d + 1)) * 2 ^ (2 * (i + d + 1)) =
          2 ^ (2 * i) * (4 * (laneCode (f (i + d + 1)) * 2 ^ (2 * d))) by ring,
        Nat.add_mul_div_left _ _ (by positivity), Nat.add_mul_mod_self_left, hrest]
    · rw [Nat.add_mul_div_right _ _ (by positivity), Nat.div_eq_of_lt (wordOfLanes_lt f i), Nat.zero_add,
        Nat.mod_eq_of_lt (laneCode_lt (f i))]

/-- bc(t) is the word that holds t in every lane (`43_bitsliced.md` R173). -/
theorem broadcast_eq_wordOfLanes (W : Nat) (t : Trit) : broadcast W t = wordOfLanes (fun _ => t) (W / 2) := by
  rw [broadcast, lowMask]
  induction W / 2 with
  | zero => simp [evenBits, wordOfLanes]
  | succ n ih => rw [evenBits, Nat.add_mul, ih, wordOfLanes, Nat.mul_comm (2 ^ _)]

theorem wordOfLanes_valid (W : Nat) (f : Nat → Trit) : WordValid W (wordOfLanes f (W / 2)) :=
  ⟨(wordOfLanes_lt f _).trans_le (Nat.pow_le_pow_right (by decide) (Nat.mul_div_le W 2)),
    fun i hi => by rw [laneOf_wordOfLanes f hi]; exact (laneCode_pos (f i)).ne'⟩

theorem broadcast_valid (W : Nat) (t : Trit) : WordValid W (broadcast W t) :=
  broadcast_eq_wordOfLanes W t ▸ wordOfLanes_valid W _

theorem laneOf_broadcast {W i : Nat} (t : Trit) (hi : i < W / 2) : laneOf (broadcast W t) i = laneCode t := by
  rw [broadcast_eq_wordOfLanes, laneOf_wordOfLanes _ hi]

theorem lowMask_eq_broadcast (W : Nat) : lowMask W = broadcast W .zero := (Nat.mul_one _).symm

theorem highMask_eq_broadcast (W : Nat) : highMask W = broadcast W .pos := by
  rw [highMask, wordShl, Nat.shiftLeft_eq]
  exact Nat.mod_eq_of_lt (broadcast_valid W .pos).1

theorem lowMask_lt (W : Nat) : lowMask W < 2 ^ W := lowMask_eq_broadcast W ▸ (broadcast_valid W .zero).1

theorem wordShl_lt (W : Nat) (w : LaneWord) (k : Nat) : wordShl W w k < 2 ^ W := Nat.mod_lt _ (by positivity)

@[simp] theorem laneOf_lowMask {W i : Nat} (hi : i < W / 2) : laneOf (lowMask W) i = 1 := by
  rw [lowMask_eq_broadcast, laneOf_broadcast _ hi, laneCode]

@[simp] theorem laneOf_highMask {W i : Nat} (hi : i < W / 2) : laneOf (highMask W) i = 2 := by
  rw [highMask_eq_broadcast, laneOf_broadcast _ hi, laneCode]

/-! ### The boolean formulas, lane by lane -/

section Formulas

variable {W i : Nat} {x y : LaneWord}

theorem mixC_lt (W : Nat) (x : LaneWord) : mixC W x < 2 ^ W :=
  Nat.or_lt_two_pow (Nat.and_lt_two_pow _ (lowMask_lt W)) (Nat.and_lt_two_pow _ (wordShl_lt W _ 1))

theorem mixD_lt (W : Nat) (b : LaneWord) {c : LaneWord} (hc : c < 2 ^ W) : mixD W b c < 2 ^ W :=
  Nat.xor_lt_two_pow (Nat.xor_lt_two_pow hc (Nat.and_lt_two_pow _ (wordShl_lt W _ 1)))
    ((Nat.and_le_left.trans Nat.and_le_left).trans_lt (lowMask_lt W))

theorem mixWord_lt (W : Nat) (x y : LaneWord) : mixWord W x y < 2 ^ W := mixD_lt W y (mixC_lt W x)

/-- c works on each lane alone (`43_bitsliced.md` R177, R178). -/
theorem laneOf_mixC (x : LaneWord) (hi : i < W / 2) : laneOf (mixC W x) i = laneCodeC (laneOf x i) := by
  have hshr := laneOf_wordShr_one_and_one x i
  have hshl := laneOf_wordShl_one_and_two x hi
  rw [mixC, laneOf_or, laneOf_and, laneOf_and, laneOf_xor, laneOf_lowMask hi, laneOf_highMask hi,
    Nat.and_xor_distrib_right, hshr, hshl]
  have hlt := laneOf_lt x i
  interval_cases laneOf x i <;> rfl

/-- d on one lane: each bit of c flips where the b and the c of the other bit say so. -/
theorem laneOf_mixD (hy : y < 2 ^ W) (hi : i < W / 2) :
    laneOf (mixD W y x) i = laneOf x i ^^^ (laneOf y i &&& ((laneOf y i &&& laneOf x i) % 2 * 2)) ^^^
      ((3 - laneOf y i) &&& ((laneOf y i &&& laneOf x i) / 2)) := by
  have hshr := laneOf_wordShr_one_and_one (y &&& x) i
  have hshl := laneOf_wordShl_one_and_two (y &&& x) hi
  rw [laneOf_and] at hshr hshl
  rw [mixD, laneOf_xor, laneOf_xor, laneOf_and, laneOf_and, laneOf_and, laneOf_and, laneOf_lowMask hi,
    laneOf_highMask hi, laneOf_wordNot hy hi, ← hshr, ← hshl]
  ac_rfl

/-- Tbs works on each lane alone (`43_bitsliced.md` R177, R178). -/
theorem laneOf_mixWord (x : LaneWord) (hy : y < 2 ^ W) (hi : i < W / 2) :
    laneOf (mixWord W x y) i = laneCodeT (laneOf x i) (laneOf y i) := by
  rw [mixWord, laneOf_mixD hy hi, laneOf_mixC x hi]
  have hx := laneOf_lt x i
  have hy := laneOf_lt y i
  interval_cases laneOf x i <;> interval_cases laneOf y i <;> rfl

theorem laneCodeT_ne_zero : ∀ x < 4, ∀ y < 4, x ≠ 0 → y ≠ 0 → laneCodeT x y ≠ 0 := by decide

theorem mixWord_valid (hx : WordValid W x) (hy : WordValid W y) : WordValid W (mixWord W x y) :=
  ⟨mixWord_lt W x y, fun i hi => by
    rw [laneOf_mixWord x hy.1 hi]
    exact laneCodeT_ne_zero _ (laneOf_lt x i) _ (laneOf_lt y i) (hx.2 i hi) (hy.2 i hi)⟩

/-! ### Writing one lane -/

theorem setLane_lt {w : LaneWord} (hw : w < 2 ^ W) (i : Nat) (t : Trit) : setLane W w i t < 2 ^ W :=
  Nat.or_lt_two_pow (Nat.and_le_left.trans_lt hw) (wordShl_lt W _ _)

/-- setlane writes lane i and keeps every other lane (`43_bitsliced.md` R172). -/
theorem laneOf_setLane {w : LaneWord} {k : Nat} (t : Trit) (hi : i < W / 2) (hk : k < W / 2) :
    laneOf (setLane W w i t) k = if k = i then laneCode t else laneOf w k := by
  rw [setLane, laneOf_or, laneOf_and, laneOf_wordNot (wordShl_lt W 3 _) hk, laneOf_wordShl_code (by decide) hi,
    laneOf_wordShl_code (laneCode_lt t) hi]
  have hlt := laneOf_lt w k
  by_cases h : k = i
  · simp [h]
  · rw [if_neg h, if_neg h, if_neg h]
    interval_cases laneOf w k <;> rfl

theorem setLane_valid {w : LaneWord} (hw : WordValid W w) (hi : i < W / 2) (t : Trit) :
    WordValid W (setLane W w i t) :=
  ⟨setLane_lt hw.1 i t, fun k hk => by
    rw [laneOf_setLane t hi hk]
    split
    · exact (laneCode_pos t).ne'
    · exact hw.2 k hk⟩

end Formulas

/-! ### Words of a round, a permutation and a batch -/

section Words

variable {α : Type}

theorem mem_interleave {a : α} {xs ys : List α} : a ∈ interleave xs ys ↔ a ∈ xs ∨ a ∈ ys := by
  fun_induction interleave xs ys with
  | case1 ys => simp
  | case2 x xs => simp
  | case3 x xs y ys ih => simp [ih]; tauto

theorem mem_walk {a : α} {old : List α} (h : a ∈ walk old) : a ∈ old := by
  rw [walk, mem_interleave, List.mem_reverse, List.mem_reverse] at h
  exact h.elim List.mem_of_mem_take List.mem_of_mem_drop

/-- What f keeps, every element of a round has. -/
theorem forall_mem_roundWith {P : α → Prop} {f : α → α → α} (hf : ∀ x y, P x → P y → P (f x y))
    {s : Vector α Config.stateLen} (hs : ∀ x ∈ s.toList, P x) : ∀ x ∈ (roundWith f s).toList, P x := by
  have hwalk : ∀ x ∈ walk s.toList, P x := fun x hx => hs x (mem_walk hx)
  have hstart : ∀ x ∈ s.toList.take 1 ++ walk s.toList, P x := fun x hx =>
    (List.mem_append.mp hx).elim (fun h => hs x (List.mem_of_mem_take h)) (hwalk x)
  intro z hz
  rw [roundWith_toList, roundList, ← List.map_uncurry_zip_eq_zipWith, List.mem_map] at hz
  obtain ⟨⟨x, y⟩, hxy, rfl⟩ := hz
  obtain ⟨hx, hy⟩ := List.of_mem_zip hxy
  exact hf x y (hstart x hx) (hwalk y hy)

theorem iterate_keeps {P : α → Prop} {f : α → α} (hf : ∀ a, P a → P (f a)) (n : Nat) {a : α} (ha : P a) :
    P (iterate f n a) := by
  induction n generalizing a with
  | zero => exact ha
  | succ n ih => exact ih (hf a ha)

theorem forall_mem_overwriteSlot {P : α → Prop} {s : Vector α Config.stateLen} {t : Vector α Config.hashLen}
    (hs : ∀ x ∈ s.toList, P x) (ht : ∀ x ∈ t.toList, P x) : ∀ x ∈ (overwriteSlot s t).toList, P x := by
  intro x hx
  rw [overwriteSlot_toList, List.mem_append] at hx
  exact hx.elim (ht x) fun h => hs x (List.mem_of_mem_drop h)

end Words

section WordsValid

variable {W : Nat} {ws : Vector LaneWord Config.stateLen}

theorem slicedRound_valid (h : WordsValid W ws) : WordsValid W (slicedRound W ws) :=
  forall_mem_roundWith (fun _ _ => mixWord_valid) h

theorem slicedPermute_valid (h : WordsValid W ws) : WordsValid W (slicedPermute W ws) :=
  iterate_keeps (P := WordsValid W) (fun _ => slicedRound_valid) Config.rounds h

theorem map_broadcast_valid {n : Nat} (t : Vector Trit n) : ∀ w ∈ (t.map (broadcast W)).toList, WordValid W w := by
  intro w hw
  rw [Vector.toList_map, List.mem_map] at hw
  obtain ⟨a, -, rfl⟩ := hw
  exact broadcast_valid W a

/-- The mid-state holds valid codes, whatever the scalar state (`44_pow.md` R202). -/
theorem midState_valid (W : Nat) (s : Vector Trit Config.stateLen) : WordsValid W (midState W s) := by
  refine forall_mem_overwriteSlot (map_broadcast_valid s) fun w hw => ?_
  rw [Vector.toList_replicate] at hw
  rw [List.eq_of_mem_replicate hw]
  exact broadcast_valid W .zero

theorem slicedAbsorb_valid (h : WordsValid W ws) (t : Vector Trit Config.hashLen) :
    WordsValid W (slicedAbsorb W ws t) :=
  slicedPermute_valid (forall_mem_overwriteSlot h (map_broadcast_valid t))

theorem writeLane_valid {i : Nat} (hi : i < W / 2) (l : List LaneWord) (ts : List Trit)
    (h : ∀ w ∈ l, WordValid W w) : ∀ w ∈ writeLane W i l ts, WordValid W w := by
  induction l generalizing ts with
  | nil => exact h
  | cons w l ih =>
    obtain ⟨hw, hl⟩ := List.forall_mem_cons.mp h
    cases ts with
    | nil => exact h
    | cons t ts => exact List.forall_mem_cons.mpr ⟨setLane_valid hw hi t, ih ts hl⟩

theorem seedLanes_valid (ts : List (Vector Trit Config.hashLen)) (i : Nat) (hi : i + ts.length ≤ W / 2)
    (h : WordsValid W ws) : WordsValid W (seedLanes W i ws ts) := by
  induction ts generalizing i ws with
  | nil => exact h
  | cons t ts ih =>
    rw [List.length_cons] at hi
    exact ih (i + 1) (by omega) (writeLane_valid (by omega) _ _ h)

theorem candidateRun_length (n : Nat) (t : Vector Trit Config.hashLen) : (candidateRun n t).length = n := by
  induction n generalizing t with
  | zero => rfl
  | succ n ih => rw [candidateRun, List.length_cons, ih]

/-- A batch from valid words leaves valid words in WORK (`44_pow.md` R205). -/
theorem batch_valid (p : Params) {mid : Vector LaneWord Config.stateLen} (h : WordsValid p.wordBits mid)
    (nonce trunk branch : Vector Trit Config.hashLen) (o : Nat) :
    WordsValid p.wordBits (batch p mid nonce trunk branch o) := by
  have hlanes : 0 + (candidates p.lanes nonce o).length ≤ p.wordBits / 2 := by
    rw [candidates, candidateRun_length, Nat.zero_add]
    exact p.lanes_le
  exact slicedAbsorb_valid (slicedAbsorb_valid (slicedPermute_valid (seedLanes_valid _ 0 hlanes h)) trunk) branch

/-- The free words a reset leaves hold valid codes (log 4). -/
theorem ofFn_wordOfLanes_valid (W : Nat) (f : Nat → Nat → Trit) :
    WordsValid W (Vector.ofFn fun k => wordOfLanes (f k.val) (W / 2)) := by
  intro w hw
  rw [Vector.mem_toList_iff, Vector.mem_ofFn] at hw
  obtain ⟨k, rfl⟩ := hw
  exact wordOfLanes_valid W _

end WordsValid

end Sys2Proof.Machine

/-! What one step can do, said once: the event of a step decides which of the effects of the commands, of the search
engine, of a TX write and of the resets it has. Each claim about every step is a case split over these effects. -/

namespace Sys2Proof.Machine

open Sys2Proof

/-! ### A decoded command and its word -/

/-- The fields of a word whose RSV is 0 make up the word (`30_encoding.md` R76, R79). -/
theorem ofNat_fields (v : HostWord) (hrsv : rsvField v = 0) :
    BitVec.ofNat 32 ((lenField v <<< 16) ||| (mwmField v <<< 8) ||| (opcField v).toNat) = v := by
  have hopc : (opcField v).toNat = v.toNat % 256 := by simp [opcField]
  have hmwm : mwmField v = v.toNat / 256 % 256 := by simp [mwmField, Nat.shiftRight_eq_div_pow]
  have hlen : lenField v = v.toNat / 65536 % 4096 := by simp [lenField, Nat.shiftRight_eq_div_pow]
  have htop : v.toNat / 268435456 % 16 = 0 := by simpa [rsvField, Nat.shiftRight_eq_div_pow] using hrsv
  have hlow : mwmField v <<< 8 + (opcField v).toNat < 2 ^ 16 := by rw [Nat.shiftLeft_eq]; omega
  rw [Nat.or_assoc, ← Nat.shiftLeft_add_eq_or_of_lt (opcField v).isLt, ← Nat.shiftLeft_add_eq_or_of_lt hlow]
  refine BitVec.eq_of_toNat_eq ?_
  rw [BitVec.toNat_ofNat, Nat.shiftLeft_eq, Nat.shiftLeft_eq]
  omega

/-- What the decoder checked of a word that it gives the command i. -/
structure CarriesFields (v : HostWord) (i : Instr) : Prop where
  opcode : (opcField v).toNat = i.opcode
  len : lenField v = i.lenOperand
  mwm : mwmField v = i.mwmOperand
  rsv : rsvField v = 0
  wellFormed : i.wellFormed = true

theorem CarriesFields.encode_eq {v : HostWord} {i : Instr} (h : CarriesFields v i) : encode i = v := by
  rw [encode, ← h.len, ← h.mwm, ← h.opcode, ofNat_fields v h.rsv]

theorem lenField_lt (v : HostWord) : lenField v < 4096 := (v.extractLsb' 16 12).isLt

theorem mwmField_lt (v : HostWord) : mwmField v < 256 := (v.extractLsb' 8 8).isLt

/-! One row of the decoder for each format: its opcode matches and its must-be-zero fields are zero, or a later row
matches. -/

namespace CarriesFields

variable {v : HostWord} {i : Instr} {n : Byte} {rest : Except IllegalWord Instr}

theorem of_rowC0 (j : Instr) (hn : n.toNat = j.opcode)
    (hj : j.lenOperand = 0 ∧ j.mwmOperand = 0 ∧ j.wellFormed = true) (later : rest = .ok i → CarriesFields v i)
    (h : (if opcField v = n then decodeC0 v j else rest) = .ok i) : CarriesFields v i := by
  rcases ite_eq_iff.mp h with ⟨ho, h⟩ | ⟨-, h⟩
  · obtain ⟨hlen, hmwm, hwf⟩ := hj
    obtain ⟨⟨hm, hl, hr⟩, h⟩ | ⟨-, h⟩ := ite_eq_iff.mp h
    · obtain rfl := Except.ok.inj h
      exact ⟨ho ▸ hn, hl.trans hlen.symm, hm.trans hmwm.symm, hr, hwf⟩
    · cases h
  · exact later h

theorem of_rowCL (row : Nat → Instr) (hn : ∀ len, n.toNat = (row len).opcode)
    (hrow : ∀ len < 4096, (row len).lenOperand = len ∧ (row len).mwmOperand = 0 ∧ (row len).wellFormed = true)
    (later : rest = .ok i → CarriesFields v i)
    (h : (if opcField v = n then decodeCL v row else rest) = .ok i) : CarriesFields v i := by
  rcases ite_eq_iff.mp h with ⟨ho, h⟩ | ⟨-, h⟩
  · obtain ⟨hlen, hmwm, hwf⟩ := hrow _ (lenField_lt v)
    obtain ⟨⟨hm, hr⟩, h⟩ | ⟨-, h⟩ := ite_eq_iff.mp h
    · obtain rfl := Except.ok.inj h
      exact ⟨ho ▸ hn _, hlen.symm, hm.trans hmwm.symm, hr, hwf⟩
    · cases h
  · exact later h

theorem of_rowCM (row : Nat → Instr) (hn : ∀ m, n.toNat = (row m).opcode)
    (hrow : ∀ m < 256, (row m).lenOperand = 0 ∧ (row m).mwmOperand = m ∧ (row m).wellFormed = true)
    (later : rest = .ok i → CarriesFields v i)
    (h : (if opcField v = n then decodeCM v row else rest) = .ok i) : CarriesFields v i := by
  rcases ite_eq_iff.mp h with ⟨ho, h⟩ | ⟨-, h⟩
  · obtain ⟨hlen, hmwm, hwf⟩ := hrow _ (mwmField_lt v)
    obtain ⟨⟨hl, hr⟩, h⟩ | ⟨-, h⟩ := ite_eq_iff.mp h
    · obtain rfl := Except.ok.inj h
      exact ⟨ho ▸ hn _, hl.trans hlen.symm, hmwm.symm, hr, hwf⟩
    · cases h
  · exact later h

/-- Row by row of `30_encoding.md` R80, in the decoder's order. -/
theorem of_decode : decode v = .ok i → CarriesFields v i := by
  unfold decode
  have hlen (len : Nat) (h : len < 4096) : decide (len < 4096) = true := decide_eq_true h
  have hmwm (m : Nat) (h : m < 256) : decide (m < 256) = true := decide_eq_true h
  refine of_rowC0 .nop rfl (by decide) <| of_rowC0 .sreset rfl (by decide) <| of_rowC0 .abort rfl (by decide) <|
    of_rowC0 .sClear rfl (by decide) <|
    of_rowCL .sAbsorb (fun _ => rfl) (fun len h => ⟨rfl, rfl, hlen len h⟩) <|
    of_rowC0 .sPermute rfl (by decide) <| of_rowC0 .sFinalize rfl (by decide) <|
    of_rowCL .hash (fun _ => rfl) (fun len h => ⟨rfl, rfl, hlen len h⟩) <|
    of_rowCM .powInit (fun _ => rfl) (fun m h => ⟨rfl, rfl, hmwm m h⟩) <|
    of_rowC0 .powStep rfl (by decide) <| of_rowC0 .powRun rfl (by decide) <|
    of_rowC0 .powFinal rfl (by decide) fun h => nomatch h

end CarriesFields

/-- The TX window, 0x1000 to 0x1A70 (`20_memory.md` R52). -/
theorem inTxWindow_iff (a : Nat) : inTxWindow a = true ↔ 0x1000 ≤ a ∧ a ≤ 0x1A70 := by
  simp only [inTxWindow, txBase, Config.txLen, Bool.and_eq_true, decide_eq_true_eq]
  omega

/-! ### The effects of a step -/

/-- The state in which the outside world has moved on: its operations, its schedule and its last read (log 1, log 7). -/
def State.movedOn (s : State) (ops : List HostOp) (turns : List Agent) (data : HostWord) : State :=
  { s with host := ops, schedule := turns, readData := data }

/-- The state after a POW_INIT m that no check refused (`44_pow.md` R201). -/
def State.withContext (s : State) (m : Nat) : State :=
  { s with
    sponge := headerState s.tx
    mid := midState s.params.wordBits (headerState s.tx)
    nonce := txField s.tx Config.nonceOff
    trunk := txField s.tx Config.trunkOff
    branch := txField s.tx Config.branchOff
    mwm := BitVec.ofNat 8 m
    offset := 0
    winOffset := 0
    winLane := 0
    phase := .ready }

section WithContext

variable (s : State) (m : Nat)

@[simp] theorem withContext_params : (s.withContext m).params = s.params := by rw [State.withContext]
@[simp] theorem withContext_work : (s.withContext m).work = s.work := by rw [State.withContext]
@[simp] theorem withContext_err : (s.withContext m).err = s.err := by rw [State.withContext]
@[simp] theorem withContext_tx : (s.withContext m).tx = s.tx := by rw [State.withContext]
@[simp] theorem withContext_digest : (s.withContext m).digest = s.digest := by rw [State.withContext]

end WithContext

/-- `StepEffect s e t`: the event e takes s to t, s being the state that the outside world has moved on already. -/
inductive StepEffect (s : State) : Event → State → Prop where
  /-- A read, NOP, an ignored word, an ignored write, a turn without an operation. -/
  | nothing (e : Event) : StepEffect s e s
  /-- A command word that a check refuses (`60_exceptions.md` R242, R243). -/
  | error (v : HostWord) (code : ErrorCode) (info : Nat) (live : s.err = false) (inTx : info < Config.txLen)
      (noIndex : code ≠ .symbol → info = 0) : StepEffect s (.command v) (s.raise code v info)
  | sreset : StepEffect s (.command (encode .sreset)) (s.resetAll s.tx)
  | hardReset (cells : List Host.Cell) : StepEffect s .hardReset (s.hardReset cells)
  | abort (searching : s.phase = .searching) : StepEffect s (.command (encode .abort)) { s with phase := .ready }
  | sClear : StepEffect s (.command (encode .sClear)) { s with sponge := zeroSponge }
  | sAbsorb (len : Nat) (wellFormed : (Instr.sAbsorb len).wellFormed = true) :
      StepEffect s (.command (encode (.sAbsorb len))) { s with sponge := absorb s.sponge (txChunks s.tx len) }
  | sPermute : StepEffect s (.command (encode .sPermute)) { s with sponge := permute s.sponge }
  | sFinalize : StepEffect s (.command (encode .sFinalize)) { s with digest := digestCells s.sponge }
  | hash (len : Nat) (wellFormed : (Instr.hash len).wellFormed = true) :
      StepEffect s (.command (encode (.hash len))) { s with
        sponge := absorb zeroSponge (txChunks s.tx len)
        digest := digestCells (absorb zeroSponge (txChunks s.tx len)) }
  | powInit (m : Nat) (wellFormed : (Instr.powInit m).wellFormed = true) (notSearching : s.phase ≠ .searching)
      (accepted : 1 ≤ m ∧ m ≤ Config.hashLen) : StepEffect s (.command (encode (.powInit m))) (s.withContext m)
  | powStep (ready : s.phase = .ready) :
      StepEffect s (.command (encode .powStep)) (s.searchStep (encode .powStep))
  | engine (searching : s.phase = .searching) : StepEffect s .searchStep (s.searchStep 0x00000022)
  | powRun (ready : s.phase = .ready) : StepEffect s (.command (encode .powRun)) { s with phase := .searching }
  | powFinal (found : s.phase = .found) :
      StepEffect s (.command (encode .powFinal)) { s with
        tx := Memory.writeAll s.tx (txBase + Config.nonceOff) s.winningCells
        phase := .idle }
  | txWrite (addr : HostAddr) (v : HostWord) (window : inTxWindow addr.toNat = true) :
      StepEffect s (.write addr v) { s with tx := Memory.write s.tx addr.toNat (v.setWidth 8) }

/-! ### The latch and the checks: refuse with an error, or go on -/

namespace StepEffect

variable {s done : State} {v : HostWord}

theorem of_unlessLatched {e : Event} (go : s.err = false → StepEffect s e done) :
    StepEffect s e (s.unlessLatched done) := by
  cases h : s.err with
  | true => exact (unlessLatched_latched s done h).symm ▸ nothing e
  | false => exact (unlessLatched_live s done h).symm ▸ go h

theorem of_checkBusy (live : s.err = false) (go : s.phase ≠ .searching → StepEffect s (.command v) done) :
    StepEffect s (.command v) (s.checkBusy v done) := by
  by_cases h : s.phase = .searching
  · exact checkBusy_fail s v done h ▸ error v .busy 0 live (by decide) fun _ => rfl
  · exact (checkBusy_pass s v done h).symm ▸ go h

theorem of_checkLength {len : Nat} (live : s.err = false)
    (go : len ≤ Config.txLen → StepEffect s (.command v) done) :
    StepEffect s (.command v) (s.checkLength v len done) := by
  cases h : lengthAccepted len with
  | true => exact (checkLength_pass s v done len h).symm ▸ go ((lengthAccepted_iff len).mp h).2.2
  | false => exact checkLength_fail s v done len h ▸ error v .length 0 live (by decide) fun _ => rfl

theorem of_checkParam {m : Nat} (live : s.err = false)
    (go : 1 ≤ m ∧ m ≤ Config.hashLen → StepEffect s (.command v) done) :
    StepEffect s (.command v) (s.checkParam v m done) := by
  cases h : mwmAccepted m with
  | true => exact (checkParam_pass s v done m h).symm ▸ go ((mwmAccepted_iff m).mp h)
  | false => exact checkParam_fail s v done m h ▸ error v .param 0 live (by decide) fun _ => rfl

theorem of_checkSequence {p : Phase} (live : s.err = false) (go : s.phase = p → StepEffect s (.command v) done) :
    StepEffect s (.command v) (s.checkSequence v p done) := by
  by_cases h : s.phase = p
  · exact (checkSequence_pass s v done p h).symm ▸ go h
  · exact checkSequence_fail s v done p h ▸ error v .sequence 0 live (by decide) fun _ => rfl

theorem of_checkSymbols {len : Nat} (live : s.err = false) (hlen : len ≤ Config.txLen)
    (go : StepEffect s (.command v) done) : StepEffect s (.command v) (s.checkSymbols v len done) := by
  cases h : lowestBadCell s.tx len with
  | none => exact (checkSymbols_pass s v done len h).symm ▸ go
  | some j =>
    have hj : j < Config.txLen := ((lowestBadCell_some s.tx len j).mp h).1.trans_le hlen
    exact checkSymbols_fail s v done len j h ▸ error v .symbol j live hj (absurd rfl)

end StepEffect

/-! ### Every step has one of the effects -/

open StepEffect in
/-- Each command is its latch and its checks, in the order of `60_exceptions.md` R242, and then its effect. -/
theorem exists_exec_effect {i : Instr} (s : State) (hwf : i.wellFormed = true) :
    ∃ t, exec i s = .next t ∧ StepEffect s (.command (encode i)) t := by
  cases i with
  | nop => exact ⟨_, rfl, of_unlessLatched fun _ => nothing _⟩
  | sreset => exact ⟨_, rfl, sreset⟩
  | abort =>
    refine ⟨_, rfl, of_unlessLatched fun _ => ?_⟩
    split
    next searching => exact abort searching
    next => exact nothing _
  | sClear => exact ⟨_, rfl, of_unlessLatched fun live => of_checkBusy live fun _ => sClear⟩
  | sAbsorb len =>
    exact ⟨_, rfl, of_unlessLatched fun live => of_checkBusy live fun _ => of_checkLength live fun hlen =>
      of_checkSymbols live hlen (sAbsorb len hwf)⟩
  | sPermute => exact ⟨_, rfl, of_unlessLatched fun live => of_checkBusy live fun _ => sPermute⟩
  | sFinalize => exact ⟨_, rfl, of_unlessLatched fun live => of_checkBusy live fun _ => sFinalize⟩
  | hash len =>
    exact ⟨_, rfl, of_unlessLatched fun live => of_checkBusy live fun _ => of_checkLength live fun hlen =>
      of_checkSymbols live hlen (hash len hwf)⟩
  | powInit m =>
    exact ⟨_, rfl, of_unlessLatched fun live => of_checkBusy live fun busy => of_checkParam live fun hm =>
      of_checkSymbols live (Nat.le_refl _) (powInit m hwf busy hm)⟩
  | powStep => exact ⟨_, rfl, of_unlessLatched fun live => of_checkBusy live fun _ => of_checkSequence live powStep⟩
  | powRun => exact ⟨_, rfl, of_unlessLatched fun live => of_checkBusy live fun _ => of_checkSequence live powRun⟩
  | powFinal => exact ⟨_, rfl, of_unlessLatched fun live => of_checkBusy live fun _ => of_checkSequence live powFinal⟩

theorem exec_effect {i : Instr} {s t : State} (hwf : i.wellFormed = true) (h : exec i s = .next t) :
    StepEffect s (.command (encode i)) t := by
  obtain ⟨u, hu, heffect⟩ := exists_exec_effect s hwf
  obtain rfl := Host.Outcome.next.inj (hu.symm.trans h)
  exact heffect

theorem issue_effect {s t : State} {v : HostWord} (h : s.issue v = .next t) : StepEffect s (.command v) t := by
  cases hv : decode v with
  | ok i =>
    have hf := CarriesFields.of_decode hv
    rw [issue_ok s v i hv] at h
    exact hf.encode_eq ▸ exec_effect hf.wellFormed h
  | error e =>
    rw [issue_illegal s v e hv] at h
    obtain rfl := Host.Outcome.next.inj h
    exact .of_unlessLatched fun live => .error v .illegalCmd 0 live (by decide) fun _ => rfl

theorem memWrite_effect {s t : State} {addr : HostAddr} {v : HostWord} (h : s.memWrite addr v = .next t) :
    StepEffect s (if addr = 0 then .command v else .write addr v) t := by
  by_cases h0 : addr = 0
  · subst h0
    exact issue_effect h
  · rw [if_neg h0]
    cases hw : inTxWindow addr.toNat with
    | true =>
      rw [memWrite_tx s addr v hw] at h
      obtain rfl := Host.Outcome.next.inj h
      exact .txWrite addr v hw
    | false =>
      rw [memWrite_ignored s addr v h0 hw] at h
      obtain rfl := Host.Outcome.next.inj h
      exact .nothing _

/-- A step is the turn of the agent that is next, its turn taken off the schedule. -/
theorem step_eq_turn (s : State) : step s = turn s.nextAgent { s with schedule := s.schedule.tail } := by
  cases h : s.schedule with
  | nil =>
    have hnext : s.nextAgent = s.defaultAgent := by simp [State.nextAgent, h]
    rw [step_unscheduled s h, hnext, List.tail_nil, ← h]
  | cons a rest =>
    have hnext : s.nextAgent = a := by simp [State.nextAgent, h]
    rw [step_scheduled s a rest h, hnext, List.tail_cons]

theorem event_of_engine {s : State} (h : s.nextAgent = .engine) :
    s.event = if s.searchEnabled then .searchStep else .none := by
  simp [State.event, h]

/-- The event of the host's first operation. -/
def hostEvent : List HostOp → Event
  | .write addr 4 v :: _ => if addr = 0 then .command v else .write addr v
  | .hardReset _ :: _ => .hardReset
  | _ => .none

theorem event_of_host {s : State} (h : s.nextAgent = .host) : s.event = hostEvent s.host := by
  unfold State.event hostEvent
  split <;> simp_all

theorem hostTurn_effect {s t : State} (h : hostTurn s = .next t) :
    ∃ ops data, StepEffect (s.movedOn ops s.schedule data) (hostEvent s.host) t := by
  cases hops : s.host with
  | nil =>
    rw [hostTurn_idle s hops] at h
    obtain rfl := Host.Outcome.next.inj h
    exact ⟨s.host, s.readData, .nothing _⟩
  | cons op rest =>
    cases op with
    | write addr size v =>
      by_cases hsize : size = 4
      · subst hsize
        rw [hostTurn_write s addr v rest hops] at h
        exact ⟨rest, s.readData, memWrite_effect h⟩
      · simp [hostTurn, hops, hsize] at h
    | hardReset cells =>
      rw [hostTurn_hardReset s cells rest hops] at h
      obtain rfl := Host.Outcome.next.inj h
      exact ⟨rest, s.readData, .hardReset cells⟩
    | read addr size =>
      by_cases hsize : size = 4
      · subst hsize
        rw [hostTurn_read s addr rest hops] at h
        obtain rfl := Host.Outcome.next.inj h
        exact ⟨rest, _, .nothing _⟩
      · simp [hostTurn, hops, hsize] at h
    | poll | waitPow | finalIfFound =>
      simp only [hostTurn, hops] at h
      split at h <;> obtain rfl := Host.Outcome.next.inj h <;> exact ⟨_, _, .nothing _⟩

theorem engineTurn_effect (s : State) :
    StepEffect s (if s.searchEnabled then .searchStep else .none) (engineTurn s) := by
  cases h : s.searchEnabled with
  | true => exact engineTurn_enabled s h ▸ .engine ((searchEnabled_iff s).mp h).1
  | false => exact (engineTurn_disabled s h).symm ▸ .nothing _

/-- Every step has the effect of its event, on the state that the outside world has moved on. -/
theorem step_effect {s t : State} (h : step s = .next t) :
    ∃ ops turns data, StepEffect (s.movedOn ops turns data) s.event t := by
  rw [step_eq_turn] at h
  cases hnext : s.nextAgent with
  | host =>
    rw [hnext, turn_host] at h
    rw [event_of_host hnext]
    obtain ⟨ops, data, heffect⟩ := hostTurn_effect h
    exact ⟨ops, _, data, heffect⟩
  | engine =>
    rw [hnext, turn_engine] at h
    obtain rfl := Host.Outcome.next.inj h
    rw [event_of_engine hnext]
    exact ⟨s.host, s.schedule.tail, s.readData, engineTurn_effect (s.movedOn s.host s.schedule.tail s.readData)⟩

end Sys2Proof.Machine

/-! The invariant of the machine, the table of PHASE, and the events that change each element: a case split over the
effects of a step, for each of the three statements about every step. -/

namespace Sys2Proof.Machine

open Sys2Proof

/-! ### What a search step leaves unchanged -/

section SearchStep

variable (s : State) (cmd : HostWord)

theorem searchStep_frame : s.searchStep cmd = { s with
    work := (s.searchStep cmd).work, offset := (s.searchStep cmd).offset, winOffset := (s.searchStep cmd).winOffset,
    winLane := (s.searchStep cmd).winLane, phase := (s.searchStep cmd).phase, err := (s.searchStep cmd).err,
    errCode := (s.searchStep cmd).errCode, errCmd := (s.searchStep cmd).errCmd,
    errIndex := (s.searchStep cmd).errIndex } := by
  obtain ⟨-, heq⟩ | ⟨-, i, -, heq⟩ | ⟨-, -, heq⟩ := searchStep_cases s cmd
  · rw [heq]; rfl
  · rw [heq]
  · rw [heq]

@[simp] theorem searchStep_params : (s.searchStep cmd).params = s.params := by rw [searchStep_frame]
@[simp] theorem searchStep_sponge : (s.searchStep cmd).sponge = s.sponge := by rw [searchStep_frame]
@[simp] theorem searchStep_mid : (s.searchStep cmd).mid = s.mid := by rw [searchStep_frame]
@[simp] theorem searchStep_nonce : (s.searchStep cmd).nonce = s.nonce := by rw [searchStep_frame]
@[simp] theorem searchStep_trunk : (s.searchStep cmd).trunk = s.trunk := by rw [searchStep_frame]
@[simp] theorem searchStep_branch : (s.searchStep cmd).branch = s.branch := by rw [searchStep_frame]
@[simp] theorem searchStep_mwm : (s.searchStep cmd).mwm = s.mwm := by rw [searchStep_frame]
@[simp] theorem searchStep_tx : (s.searchStep cmd).tx = s.tx := by rw [searchStep_frame]
@[simp] theorem searchStep_digest : (s.searchStep cmd).digest = s.digest := by rw [searchStep_frame]

/-- A search step that does not keep PHASE has found a lane (`44_pow.md` R209). -/
theorem searchStep_phase_eq_found (h : (s.searchStep cmd).phase ≠ s.phase) : (s.searchStep cmd).phase = .found := by
  obtain ⟨-, heq⟩ | ⟨-, i, -, heq⟩ | ⟨-, -, heq⟩ := searchStep_cases s cmd
  · exact absurd (by rw [heq, raise_phase]) h
  · rw [heq]
  · exact absurd (by rw [heq]) h

/-- A search step that raises OFFSET keeps PHASE (`60_exceptions.md` R244). -/
theorem searchStep_phase_of_error (live : s.err = false) (herr : (s.searchStep cmd).err = true) :
    (s.searchStep cmd).phase = s.phase := by
  obtain ⟨-, heq⟩ | ⟨-, i, -, heq⟩ | ⟨-, -, heq⟩ := searchStep_cases s cmd
  · rw [heq, raise_phase]
  · rw [heq] at herr
    exact nomatch live.symm.trans herr
  · rw [heq]

theorem offsetSpent_eq_false_iff : s.offsetSpent = false ↔ s.offset.toNat + s.params.lanes ≤ 2 ^ 64 - 1 := by
  rw [State.offsetSpent, decide_eq_false_iff_not, Nat.not_lt]

theorem toNat_offset_add {n : Nat} (h : s.offset.toNat + n ≤ 2 ^ 64 - 1) :
    (s.offset + BitVec.ofNat 64 n).toNat = s.offset.toNat + n := by
  rw [BitVec.toNat_add, BitVec.toNat_ofNat, Nat.add_mod_mod]
  exact Nat.mod_eq_of_lt (by omega)

/-- OFFSET never falls in a search step: the bound keeps its sum from wrapping (`44_pow.md` R208). -/
theorem not_searchStep_offset_lt : ¬ (s.searchStep cmd).offset < s.offset := by
  obtain ⟨-, heq⟩ | ⟨-, i, -, heq⟩ | ⟨hfits, -, heq⟩ := searchStep_cases s cmd <;> rw [heq]
  · exact BitVec.lt_irrefl s.offset
  · exact BitVec.lt_irrefl s.offset
  · rw [BitVec.lt_def, toNat_offset_add s ((offsetSpent_eq_false_iff s).mp hfits)]
    omega

end SearchStep

/-! ### The invariant, part by part -/

theorem ErrorRecordOk.of_eq {s t : State} (h : ErrorRecordOk s) (herr : t.err = s.err) (hcode : t.errCode = s.errCode)
    (hcmd : t.errCmd = s.errCmd) (hindex : t.errIndex = s.errIndex) : ErrorRecordOk t := by
  rwa [ErrorRecordOk, herr, hcode, hcmd, hindex]

theorem DigestOk.of_eq {s t : State} (h : DigestOk s) (hdigest : t.digest = s.digest) : DigestOk t := by
  rwa [DigestOk, hdigest]

theorem validSymbol_symbolCode : ∀ j : SymIdx, validSymbol (symbolCode j) = true := by decide

theorem errorRecordOk_raise (s : State) (code : ErrorCode) (cmd : HostWord) {info : Nat} (hinfo : info < Config.txLen)
    (hindex : code ≠ .symbol → info = 0) : ErrorRecordOk (s.raise code cmd info) := by
  refine ⟨fun h => absurd h (by simp), fun _ => ?_⟩
  have hnat : (BitVec.ofNat 12 info).toNat = info := Nat.mod_eq_of_lt (hinfo.trans (by decide))
  rw [raise_errCode, raise_errIndex, hnat]
  refine ⟨by cases code <;> decide, by cases code <;> decide, hinfo, fun hcode => ?_⟩
  rw [hindex (by rintro rfl; exact hcode rfl)]
  rfl

theorem lanes_lt (p : Params) : p.lanes < 2 ^ 16 := by
  have hlanes := p.lanes_le
  have hwidth := p.wordBits_le
  omega

theorem winningCells_length (s : State) : s.winningCells.length = Config.hashSyms := by
  rw [State.winningCells, tritsToCells, List.length_map]
  exact tritsToSymbols_length _ _ Vector.length_toList

/-- POW_FINAL writes 81 cells of TX, so TX stays canonical (`44_pow.md` R213). -/
theorem writeAll_winningCells_wf {s : State} (htx : Memory.wf s.tx = true) :
    Memory.wf (Memory.writeAll s.tx (txBase + Config.nonceOff) s.winningCells) = true := by
  refine Memory.writeAll_wf _ _ _ (fun k hk => ?_) htx
  rw [winningCells_length, Config.hashSyms] at hk
  rw [inTxWindow_iff, txBase, Config.nonceOff]
  omega

/-! ### The invariant after each effect -/

namespace Inv

variable {s : State}

/-- The invariant is about the core alone. -/
theorem movedOn (hi : Inv s) (ops : List HostOp) (turns : List Agent) (data : HostWord) :
    Inv (s.movedOn ops turns data) :=
  ⟨hi.tx_wf, hi.mid_valid, hi.work_valid, hi.error_record, hi.search_registers, hi.digest⟩

theorem withSponge (hi : Inv s) (sponge : Vector Trit Config.stateLen) : Inv { s with sponge := sponge } :=
  ⟨hi.tx_wf, hi.mid_valid, hi.work_valid, hi.error_record, hi.search_registers, hi.digest⟩

theorem withTx (hi : Inv s) {tx : List Host.Cell} (htx : Memory.wf tx = true) : Inv { s with tx := tx } :=
  ⟨htx, hi.mid_valid, hi.work_valid, hi.error_record, hi.search_registers, hi.digest⟩

theorem withPhase (hi : Inv s) {p : Phase} (hs : SearchRegistersOk { s with phase := p }) :
    Inv { s with phase := p } :=
  ⟨hi.tx_wf, hi.mid_valid, hi.work_valid, hi.error_record, hs, hi.digest⟩

theorem withDigestCells (hi : Inv s) (final : Vector Trit Config.stateLen) :
    Inv { s with digest := digestCells final } := by
  refine ⟨hi.tx_wf, hi.mid_valid, hi.work_valid, hi.error_record, hi.search_registers, .inr fun b hb => ?_⟩
  rw [digestCells_toList, List.mem_map] at hb
  obtain ⟨j, -, rfl⟩ := hb
  exact validSymbol_symbolCode j

theorem raise (hi : Inv s) (code : ErrorCode) (cmd : HostWord) {info : Nat} (hinfo : info < Config.txLen)
    (hindex : code ≠ .symbol → info = 0) : Inv (s.raise code cmd info) :=
  ⟨hi.tx_wf, hi.mid_valid, hi.work_valid, errorRecordOk_raise s code cmd hinfo hindex, hi.search_registers, hi.digest⟩

/-- A reset establishes the invariant from any state (`70_reset_and_hazards.md` R270, R272). -/
theorem of_resetAll (s : State) {tx : List Host.Cell} (htx : Memory.wf tx = true) : Inv (s.resetAll tx) where
  tx_wf := htx
  mid_valid := ofFn_wordOfLanes_valid _ fun k => Config.freeMid s.draws k
  work_valid := ofFn_wordOfLanes_valid _ fun k => Config.freeWork s.draws k
  error_record := ⟨fun _ => ⟨rfl, rfl, rfl⟩, fun h => absurd h (by simp)⟩
  search_registers := fun h => absurd rfl h
  digest := .inl fun b hb => by
    rw [resetAll_digest, Vector.toList_replicate] at hb
    exact List.eq_of_mem_replicate hb

/-- POW_INIT m establishes the search registers from an accepted m (`44_pow.md` R201, R202). -/
theorem withContext (hi : Inv s) {m : Nat} (hm : 1 ≤ m ∧ m ≤ Config.hashLen) : Inv (s.withContext m) := by
  have hnat : (BitVec.ofNat 8 m).toNat = m := Nat.mod_eq_of_lt (Nat.lt_of_le_of_lt hm.2 (by decide))
  unfold State.withContext
  exact ⟨hi.tx_wf, midState_valid _ _, hi.work_valid, hi.error_record.of_eq rfl rfl rfl rfl,
    fun _ => ⟨hnat.symm ▸ hm, ⟨_, rfl⟩, fun _ => ⟨rfl, rfl⟩, fun h => nomatch h⟩, hi.digest.of_eq rfl⟩

/-- MWM and MID fit every PHASE but IDLE alike, so READY and SEARCHING may follow each other. -/
theorem searchRegistersOk_of_running (hi : Inv s) (hidle : s.phase ≠ .idle) (hfound : s.phase ≠ .found) {p : Phase}
    (hp : p ≠ .found) : SearchRegistersOk { s with phase := p } := by
  obtain ⟨hmwm, hmid, hnone, -⟩ := hi.search_registers hidle
  exact fun _ => ⟨hmwm, hmid, fun _ => hnone hfound, fun h => absurd h hp⟩

/-- A search step from READY or SEARCHING (`44_pow.md` R209, `60_exceptions.md` R244). -/
theorem searchStep (hi : Inv s) (hidle : s.phase ≠ .idle) (hfound : s.phase ≠ .found) (cmd : HostWord) :
    Inv (s.searchStep cmd) := by
  have hwork : WordsValid s.params.wordBits s.batchWork := batch_valid s.params hi.mid_valid _ _ _ _
  obtain ⟨hmwm, hmid, hnone, -⟩ := hi.search_registers hidle
  obtain ⟨-, heq⟩ | ⟨hfits, i, hwin, heq⟩ | ⟨hfits, -, heq⟩ := searchStep_cases s cmd <;> rw [heq]
  · exact hi.raise .offset cmd (by decide) fun _ => rfl
  · have hbound := (offsetSpent_eq_false_iff s).mp hfits
    have hlt : i < s.params.lanes := ((winningLane_some _ _ _ _).mp hwin).1
    have hlane : (BitVec.ofNat 16 i).toNat = i := Nat.mod_eq_of_lt (hlt.trans (lanes_lt s.params))
    have hoffset : (s.offset + BitVec.ofNat 64 i).toNat = s.offset.toNat + i := toNat_offset_add s (by omega)
    exact ⟨hi.tx_wf, hi.mid_valid, hwork, hi.error_record.of_eq rfl rfl rfl rfl,
      fun _ => ⟨hmwm, hmid, fun h => (h rfl).elim, fun _ => ⟨hlane.symm ▸ hlt, by rw [hoffset, hlane], hbound⟩⟩,
      hi.digest.of_eq rfl⟩
  · exact ⟨hi.tx_wf, hi.mid_valid, hwork, hi.error_record.of_eq rfl rfl rfl rfl,
      fun _ => ⟨hmwm, hmid, fun _ => hnone hfound, fun h => absurd h hfound⟩, hi.digest.of_eq rfl⟩

end Inv

namespace StepEffect

variable {s t : State} {e : Event}

theorem keeps_inv (h : StepEffect s e t) (hi : Inv s) : Inv t := by
  cases h with
  | nothing => exact hi
  | error v code info live inTx noIndex => exact hi.raise code v inTx noIndex
  | sreset => exact Inv.of_resetAll s hi.tx_wf
  | hardReset cells => exact Inv.of_resetAll s (Memory.ofCells_wf cells)
  | abort searching =>
    exact hi.withPhase (hi.searchRegistersOk_of_running (by simp [searching]) (by simp [searching]) (by decide))
  | sClear => exact hi.withSponge _
  | sAbsorb => exact hi.withSponge _
  | sPermute => exact hi.withSponge _
  | sFinalize => exact hi.withDigestCells _
  | hash => exact (hi.withDigestCells _).withSponge _
  | powInit m _ _ accepted => exact hi.withContext accepted
  | powStep ready => exact hi.searchStep (by simp [ready]) (by simp [ready]) _
  | engine searching => exact hi.searchStep (by simp [searching]) (by simp [searching]) _
  | powRun ready =>
    exact hi.withPhase (hi.searchRegistersOk_of_running (by simp [ready]) (by simp [ready]) (by decide))
  | powFinal => exact (hi.withTx (writeAll_winningCells_wf hi.tx_wf)).withPhase fun h => absurd rfl h
  | txWrite addr v window => exact hi.withTx (Memory.write_wf _ _ _ window hi.tx_wf)

end StepEffect

/-- Settles O53: each effect of a step keeps the invariant. -/
theorem everyStepKeepsTheInvariant : Obligations.EveryStepKeepsTheInvariant := by
  intro s t hi h
  obtain ⟨ops, turns, data, heffect⟩ := step_effect h
  exact heffect.keeps_inv (hi.movedOn ops turns data)

/-! ### PHASE -/

/-- The table of `10_state.md` R32. -/
def PhaseRow (s : State) (e : Event) (t : State) : Prop :=
  (t.phase = .idle ∧ (e = .hardReset ∨ e = .command 0x00000001)) ∨
  (s.phase ≠ .searching ∧ t.phase = .ready ∧ ∃ m, 1 ≤ m ∧ m ≤ 243 ∧ e = .command (encode (.powInit m))) ∨
  (s.phase = .ready ∧ t.phase = .found ∧ e = .command 0x00000021) ∨
  (s.phase = .ready ∧ t.phase = .searching ∧ e = .command 0x00000022) ∨
  (s.phase = .searching ∧ t.phase = .found ∧ e = .searchStep) ∨
  (s.phase = .searching ∧ t.phase = .ready ∧ e = .command 0x00000002) ∨
  (s.phase = .found ∧ t.phase = .idle ∧ e = .command 0x00000023)

namespace StepEffect

variable {s t : State} {e : Event}

theorem phase_of_error (h : StepEffect s e t) (live : s.err = false) (herr : t.err = true) : t.phase = s.phase := by
  cases h with
  | error => rfl
  | sreset | hardReset => exact nomatch herr
  | powStep | engine => exact searchStep_phase_of_error s _ live herr
  | powInit m => exact nomatch live.symm.trans ((withContext_err s m).symm.trans herr)
  | _ => exact nomatch live.symm.trans herr

theorem phaseRow (h : StepEffect s e t) (hne : t.phase ≠ s.phase) : PhaseRow s e t := by
  unfold PhaseRow
  cases h with
  | hardReset => exact .inl ⟨rfl, .inl rfl⟩
  | sreset => exact .inl ⟨rfl, .inr rfl⟩
  | powInit m _ notSearching accepted => exact .inr (.inl ⟨notSearching, rfl, m, accepted.1, accepted.2, rfl⟩)
  | powStep ready => exact .inr (.inr (.inl ⟨ready, searchStep_phase_eq_found s _ hne, rfl⟩))
  | powRun ready => exact .inr (.inr (.inr (.inl ⟨ready, rfl, rfl⟩)))
  | engine searching =>
    exact .inr (.inr (.inr (.inr (.inl ⟨searching, searchStep_phase_eq_found s _ hne, rfl⟩))))
  | abort searching => exact .inr (.inr (.inr (.inr (.inr (.inl ⟨searching, rfl, rfl⟩)))))
  | powFinal found => exact .inr (.inr (.inr (.inr (.inr (.inr ⟨found, rfl, rfl⟩)))))
  | _ => exact absurd rfl hne

end StepEffect

/-- Settles O48: an effect that changes PHASE is a row of the table, and an error is none. -/
theorem phaseChangesOnlyByTheTable : Obligations.PhaseChangesOnlyByTheTable := by
  intro s t h
  obtain ⟨ops, turns, data, heffect⟩ := step_effect h
  exact ⟨heffect.phase_of_error, heffect.phaseRow⟩

/-! ### The elements -/

/-! The kinds of events that the clauses name. -/

/-- The reset input, or SRESET. -/
def Event.IsReset (e : Event) : Prop := e = .hardReset ∨ e = .command 0x00000001

/-- POW_INIT with an operand that fits its field. -/
def Event.IsInit (e : Event) : Prop :=
  ∃ m, (Instr.powInit m).wellFormed = true ∧ e = .command (encode (.powInit m))

/-- A search step, or POW_STEP. -/
def Event.IsBatch (e : Event) : Prop := e = .searchStep ∨ e = .command 0x00000021

/-- HASH with an operand that fits its field. -/
def Event.IsHash (e : Event) : Prop := ∃ len, (Instr.hash len).wellFormed = true ∧ e = .command (encode (.hash len))

/-- S_ABSORB with an operand that fits its field. -/
def Event.IsAbsorb (e : Event) : Prop :=
  ∃ len, (Instr.sAbsorb len).wellFormed = true ∧ e = .command (encode (.sAbsorb len))

namespace StepEffect

variable {s t : State} {e : Event}

theorem params_eq (h : StepEffect s e t) : t.params = s.params := by
  cases h with
  | powStep | engine => exact searchStep_params s _
  | powInit m => exact withContext_params s m
  | _ => rfl

theorem event_of_sponge_ne (h : StepEffect s e t) (hne : t.sponge ≠ s.sponge) :
    e.IsReset ∨ e.IsInit ∨ e.IsHash ∨ e.IsAbsorb ∨ e = .command 0x00000010 ∨ e = .command 0x00000012 := by
  cases h with
  | hardReset => exact .inl (.inl rfl)
  | sreset => exact .inl (.inr rfl)
  | powInit m wellFormed => exact .inr (.inl ⟨m, wellFormed, rfl⟩)
  | hash len wellFormed => exact .inr (.inr (.inl ⟨len, wellFormed, rfl⟩))
  | sAbsorb len wellFormed => exact .inr (.inr (.inr (.inl ⟨len, wellFormed, rfl⟩)))
  | sClear => exact .inr (.inr (.inr (.inr (.inl rfl))))
  | sPermute => exact .inr (.inr (.inr (.inr (.inr rfl))))
  | powStep | engine => exact absurd (searchStep_sponge s _) hne
  | _ => exact absurd rfl hne

theorem event_of_digest_ne (h : StepEffect s e t) (hne : t.digest ≠ s.digest) :
    e.IsReset ∨ e.IsHash ∨ e = .command 0x00000013 := by
  cases h with
  | hardReset => exact .inl (.inl rfl)
  | sreset => exact .inl (.inr rfl)
  | hash len wellFormed => exact .inr (.inl ⟨len, wellFormed, rfl⟩)
  | sFinalize => exact .inr (.inr rfl)
  | powStep | engine => exact absurd (searchStep_digest s _) hne
  | powInit m => exact absurd (withContext_digest s m) hne
  | _ => exact absurd rfl hne

theorem event_of_context_ne (h : StepEffect s e t)
    (hne : (t.mid, t.nonce, t.trunk, t.branch, t.mwm) ≠ (s.mid, s.nonce, s.trunk, s.branch, s.mwm)) :
    e.IsReset ∨ e.IsInit := by
  cases h with
  | hardReset => exact .inl (.inl rfl)
  | sreset => exact .inl (.inr rfl)
  | powInit m wellFormed => exact .inr ⟨m, wellFormed, rfl⟩
  | powStep | engine => exact absurd (by simp) hne
  | _ => exact absurd rfl hne

theorem event_of_work_ne (h : StepEffect s e t) (hne : t.work ≠ s.work) : e.IsReset ∨ e.IsBatch := by
  cases h with
  | hardReset => exact .inl (.inl rfl)
  | sreset => exact .inl (.inr rfl)
  | engine => exact .inr (.inl rfl)
  | powStep => exact .inr (.inr rfl)
  | powInit m => exact absurd (withContext_work s m) hne
  | _ => exact absurd rfl hne

theorem event_of_counters_ne (h : StepEffect s e t)
    (hne : (t.offset, t.winOffset, t.winLane) ≠ (s.offset, s.winOffset, s.winLane)) :
    e.IsReset ∨ e.IsInit ∨ e.IsBatch := by
  cases h with
  | hardReset => exact .inl (.inl rfl)
  | sreset => exact .inl (.inr rfl)
  | powInit m wellFormed => exact .inr (.inl ⟨m, wellFormed, rfl⟩)
  | engine => exact .inr (.inr (.inl rfl))
  | powStep => exact .inr (.inr (.inr rfl))
  | _ => exact absurd rfl hne

theorem event_of_offset_lt (h : StepEffect s e t) (hlt : t.offset < s.offset) : e.IsReset ∨ e.IsInit := by
  cases h with
  | hardReset => exact .inl (.inl rfl)
  | sreset => exact .inl (.inr rfl)
  | powInit m wellFormed => exact .inr ⟨m, wellFormed, rfl⟩
  | powStep | engine => exact absurd hlt (not_searchStep_offset_lt s _)
  | _ => exact absurd hlt (BitVec.lt_irrefl s.offset)

theorem event_of_tx_ne (h : StepEffect s e t) (hne : t.tx ≠ s.tx) :
    e = .hardReset ∨ e = .command 0x00000023 ∨
      ∃ addr v, e = .write addr v ∧ 0x1000 ≤ addr.toNat ∧ addr.toNat ≤ 0x1A70 := by
  cases h with
  | hardReset => exact .inl rfl
  | powFinal => exact .inr (.inl rfl)
  | txWrite addr v window =>
    exact .inr (.inr ⟨addr, v, rfl, (inTxWindow_iff _).mp window⟩)
  | powStep | engine => exact absurd (searchStep_tx s _) hne
  | powInit m => exact absurd (withContext_tx s m) hne
  | _ => exact absurd rfl hne

end StepEffect

/-- Settles O50: element by element, over the effects that write it. -/
theorem elementsChangeOnlyByTheirEvents : Obligations.ElementsChangeOnlyByTheirEvents := by
  intro s t h
  obtain ⟨ops, turns, data, heffect⟩ := step_effect h
  exact ⟨heffect.params_eq, heffect.event_of_sponge_ne, heffect.event_of_digest_ne, heffect.event_of_context_ne,
    heffect.event_of_work_ne, heffect.event_of_counters_ne, heffect.event_of_offset_lt, heffect.event_of_tx_ne⟩

end Sys2Proof.Machine

/-! The host's view of the core (`20_memory.md` R50 to R57): what each location reads, what each write stores, and what
neither of them changes. -/

namespace Sys2Proof.Machine

open Sys2Proof

/-! ### What each location reads -/

section Reads

variable (s : State)

@[simp] theorem memRead_cmd : s.memRead 0x0000 = 0 := rfl
@[simp] theorem memRead_status : s.memRead 0x0001 = s.status := rfl
@[simp] theorem memRead_params : s.memRead 0x0002 = paramsWord s.params := rfl
@[simp] theorem memRead_mwm : s.memRead 0x0003 = s.mwm.setWidth 32 := rfl
@[simp] theorem memRead_offset_low : s.memRead 0x0004 = s.offset.extractLsb' 0 32 := rfl
@[simp] theorem memRead_offset_high : s.memRead 0x0005 = s.offset.extractLsb' 32 32 := rfl
@[simp] theorem memRead_winOffset_low : s.memRead 0x0006 = s.winOffset.extractLsb' 0 32 := rfl
@[simp] theorem memRead_winOffset_high : s.memRead 0x0007 = s.winOffset.extractLsb' 32 32 := rfl
@[simp] theorem memRead_winLane : s.memRead 0x0008 = s.winLane.setWidth 32 := rfl
@[simp] theorem memRead_errCmd : s.memRead 0x0009 = s.errCmd := rfl
@[simp] theorem memRead_errIndex : s.memRead 0x000A = s.errIndex.setWidth 32 := rfl

/-- The DIGEST window, 0x0100 to 0x0150 (`20_memory.md` R52). -/
theorem inDigestWindow_iff (a : Nat) : inDigestWindow a = true ↔ 0x0100 ≤ a ∧ a ≤ 0x0150 := by
  simp only [inDigestWindow, Config.hashSyms, Bool.and_eq_true, decide_eq_true_eq]
  omega

/-- Above the registers an address is of the DIGEST window, of the TX window, or unmapped. -/
theorem memRead_above_registers {addr : HostAddr} (h : 0x000A < addr.toNat) :
    s.memRead addr =
      if inDigestWindow addr.toNat then (s.digest.toList.getD (addr.toNat - 0x0100) 0).setWidth 32
      else if inTxWindow addr.toNat then (Memory.read s.tx addr.toNat).setWidth 32
      else 0 := by
  have hne (k : Nat) (hk : k ≤ 0x000A) : addr.toNat ≠ k := by omega
  simp [State.memRead, hne]

theorem memRead_digestWindow {addr : HostAddr} (h : inDigestWindow addr.toNat = true) :
    s.memRead addr = (s.digest.toList.getD (addr.toNat - 0x0100) 0).setWidth 32 := by
  have hrange := (inDigestWindow_iff _).mp h
  rw [memRead_above_registers s (by omega), if_pos h]

theorem memRead_txWindow {addr : HostAddr} (h : inTxWindow addr.toNat = true) :
    s.memRead addr = (Memory.read s.tx addr.toNat).setWidth 32 := by
  have hrange := (inTxWindow_iff _).mp h
  have hdigest : ¬ inDigestWindow addr.toNat = true := by rw [inDigestWindow_iff]; omega
  rw [memRead_above_registers s (by omega), if_neg hdigest, if_pos h]

/-- DIGEST[j] is at 0x0100 + j and reads zero-extended (`20_memory.md` R55). -/
theorem memRead_digest {j : Nat} (hj : j < 81) :
    s.memRead (BitVec.ofNat 16 (0x0100 + j)) = s.digest[j].setWidth 32 := by
  have haddr : (BitVec.ofNat 16 (0x0100 + j)).toNat = 0x0100 + j := Nat.mod_eq_of_lt (by omega)
  have hwindow : inDigestWindow (BitVec.ofNat 16 (0x0100 + j)).toNat = true := by
    rw [inDigestWindow_iff, haddr]
    omega
  rw [memRead_digestWindow s hwindow, haddr, Nat.add_sub_cancel_left]
  simp [hj]

/-- CMD and the three holes of the map read 0 (`20_memory.md` R53). -/
theorem memRead_unmapped {addr : HostAddr}
    (h : addr = 0 ∨ (0x000A < addr.toNat ∧ addr.toNat < 0x0100) ∨ (0x0150 < addr.toNat ∧ addr.toNat < 0x1000) ∨
      0x1A70 < addr.toNat) : s.memRead addr = 0 := by
  obtain rfl | hole := h
  · exact memRead_cmd s
  · have hdigest : ¬ inDigestWindow addr.toNat = true := by rw [inDigestWindow_iff]; omega
    have htx : ¬ inTxWindow addr.toNat = true := by rw [inTxWindow_iff]; omega
    rw [memRead_above_registers s (by omega), if_neg hdigest, if_neg htx]

/-- The outside world is no location of the map. -/
@[simp] theorem memRead_movedOn (ops : List HostOp) (turns : List Agent) (data : HostWord) (addr : HostAddr) :
    (s.movedOn ops turns data).memRead addr = s.memRead addr := rfl

end Reads

/-! ### The fields of the words read -/

section Fields

variable (s : State)

theorem status_phase : s.status.extractLsb' 0 2 = s.phase.toBits := BitVec.extractLsb'_append_eq_right

theorem status_err : s.status.getLsbD 2 = s.err := by
  rw [State.status, BitVec.getLsbD_append, if_neg (by decide), BitVec.getLsbD_append, if_pos (by decide)]
  cases s.err <;> rfl

theorem status_bit_three : s.status.getLsbD 3 = false := by
  rw [State.status, BitVec.getLsbD_append, if_neg (by decide), BitVec.getLsbD_append, if_neg (by decide),
    BitVec.getLsbD_append, if_pos (by decide)]
  rfl

theorem status_extract_above (k n : Nat) :
    s.status.extractLsb' (4 + k) n = ((0 : BitVec 24) ++ s.errCode).extractLsb' k n := by
  rw [State.status, BitVec.extractLsb'_append_eq_of_le (by omega), BitVec.extractLsb'_append_eq_of_le (by omega),
    BitVec.extractLsb'_append_eq_of_le (by omega)]
  congr 1
  omega

theorem status_errCode : s.status.extractLsb' 4 4 = s.errCode :=
  (status_extract_above s 0 4).trans BitVec.extractLsb'_append_eq_right

theorem status_top : s.status.extractLsb' 8 24 = 0 :=
  (status_extract_above s 4 24).trans BitVec.extractLsb'_append_eq_left

theorem wordBits_lt (p : Params) : p.wordBits < 2 ^ 16 := Nat.lt_of_le_of_lt p.wordBits_le (by decide)

/-- W and LANES both fit their half of PARAMS (`00_scope.md` R6, R7). -/
theorem paramsWord_toNat (p : Params) : (paramsWord p).toNat = 2 ^ 16 * p.lanes + p.wordBits := by
  have hwidth := wordBits_lt p
  rw [paramsWord, BitVec.toNat_append, BitVec.toNat_ofNat, BitVec.toNat_ofNat, Nat.mod_eq_of_lt hwidth,
    Nat.mod_eq_of_lt (lanes_lt p), ← Nat.shiftLeft_add_eq_or_of_lt hwidth, Nat.shiftLeft_eq, Nat.mul_comm]

end Fields

/-! ### What a write stores -/

/-- To store what a cell already reads as changes nothing: the form is canonical. -/
theorem Memory.write_read_self (m : List Host.Cell) (a : Nat) (h : Memory.wf m = true) :
    Memory.write m a (Memory.read m a) = m := by
  induction m with
  | nil => rfl
  | cons c rest ih =>
    obtain ⟨b, w⟩ := c
    obtain ⟨-, listed, above, wf⟩ := (Memory.wf_cons _ _).mp h
    rw [Memory.write, Memory.read_cons]
    rcases Nat.lt_trichotomy a b with hab | rfl | hba
    · have hrest : Memory.read rest a = Memory.unlisted :=
        Memory.read_of_above rest a fun d hd => hab.trans (above d hd)
      rw [if_neg hab.ne', hrest, if_pos hab, if_pos rfl]
    · rw [if_pos rfl, if_neg (Nat.lt_irrefl a), if_pos rfl, if_neg listed]
    · rw [if_neg hba.ne, if_neg hba.asymm, if_neg hba.ne', ih wf]

theorem Memory.write_write_same (m : List Host.Cell) (a : Nat) (v : Byte) (ha : inTxWindow a = true)
    (h : Memory.wf m = true) : Memory.write (Memory.write m a v) a v = Memory.write m a v := by
  have hself := Memory.write_read_self (Memory.write m a v) a (Memory.write_wf m a v ha h)
  rwa [Memory.read_write_same m a v h] at hself

/-- A write away from CMD stores a TX cell, or it is of no TX cell and does nothing (`20_memory.md` R53, R54). -/
theorem memWrite_cases {s t : State} {addr : HostAddr} {v : HostWord} (h0 : addr ≠ 0)
    (h : s.memWrite addr v = .next t) :
    (inTxWindow addr.toNat = true ∧ t = { s with tx := Memory.write s.tx addr.toNat (v.setWidth 8) }) ∨
    (inTxWindow addr.toNat = false ∧ t = s) := by
  cases hw : inTxWindow addr.toNat with
  | true => exact .inl ⟨rfl, (Host.Outcome.next.inj ((memWrite_tx s addr v hw).symm.trans h)).symm⟩
  | false => exact .inr ⟨rfl, (Host.Outcome.next.inj ((memWrite_ignored s addr v h0 hw).symm.trans h)).symm⟩

/-! ### The host's accesses -/

theorem hostTurn_read_refused (s : State) (addr : HostAddr) (size : Nat) (rest : List HostOp)
    (h : s.host = .read addr size :: rest) (hsize : size ≠ 4) : hostTurn s = .refused (.accessSize size) := by
  simp [hostTurn, h, hsize]

theorem hostTurn_write_refused (s : State) (addr : HostAddr) (v : HostWord) (size : Nat) (rest : List HostOp)
    (h : s.host = .write addr size v :: rest) (hsize : size ≠ 4) : hostTurn s = .refused (.accessSize size) := by
  simp [hostTurn, h, hsize]

/-- Settles O7: a host turn for each access and each of the two kinds of size. -/
theorem accessesAreOfOneWord : Obligations.AccessesAreOfOneWord := fun s addr v size ops =>
  ⟨hostTurn_read s addr ops, hostTurn_write s addr v ops, hostTurn_read_refused s addr size ops,
    hostTurn_write_refused s addr v size ops⟩

/-- Settles O9: reads of the holes, and writes of what is neither CMD nor a TX cell. -/
theorem unmappedAndReadOnlyAccesses : Obligations.UnmappedAndReadOnlyAccesses := by
  refine fun s addr v ops => ⟨fun hole => ?_, fun h0 outside => ?_⟩
  · have hread : s.memRead addr = 0 := memRead_unmapped s hole
    exact ⟨hread, fun hops => by rw [hostTurn_read s addr ops hops, hread]⟩
  · have hwindow : inTxWindow addr.toNat = false := by
      rw [← Bool.not_eq_true, inTxWindow_iff]
      omega
    exact ⟨memWrite_ignored s addr v h0 hwindow, fun hops => by
      rw [hostTurn_write s addr v ops hops, memWrite_ignored _ addr v h0 hwindow]⟩

/-- Settles O10: location by location, from the fields of each word. -/
theorem registerMapReads : Obligations.RegisterMapReads := by
  intro s
  rw [memRead_status, memRead_params, memRead_mwm, memRead_offset_low, memRead_offset_high, memRead_winOffset_low,
    memRead_winOffset_high, memRead_winLane, memRead_errCmd, memRead_errIndex]
  have hwidth := wordBits_lt s.params
  refine ⟨⟨status_phase s, status_err s, status_bit_three s, status_errCode s, status_top s⟩, ?params,
    BitVec.toNat_setWidth_of_le (by decide),
    BitVec.extractLsb'_append_extractLsb', BitVec.extractLsb'_append_extractLsb',
    BitVec.toNat_setWidth_of_le (by decide), rfl, BitVec.toNat_setWidth_of_le (by decide), ?digest⟩
  case params =>
    rw [paramsWord_toNat]
    omega
  case digest =>
    intro j hj
    rw [memRead_digest s hj, BitVec.toNat_setWidth_of_le (by decide)]

/-- Settles O8: the write is `Memory.write` at the cell's address, so the laws of TX say what each cell reads. -/
theorem txCellsStoreTheLowByte : Obligations.TxCellsStoreTheLowByte := by
  intro s j v hwf hj
  have haddr : (BitVec.ofNat 16 (0x1000 + j)).toNat = txBase + j := Nat.mod_eq_of_lt (by omega)
  have hcell : inTxWindow (txBase + j) = true := by
    rw [inTxWindow_iff, txBase]
    omega
  have hwindow : inTxWindow (BitVec.ofNat 16 (0x1000 + j)).toNat = true := by rwa [haddr]
  have hnew := Memory.read_write_same s.tx (txBase + j) (v.setWidth 8) hwf
  refine ⟨by rw [memRead_txWindow s hwindow, haddr, txCell_eq], _, memWrite_tx s _ v hwindow, rfl, ?_⟩
  rw [memRead_txWindow _ hwindow, txCell_eq, haddr]
  exact ⟨Memory.write_wf s.tx _ _ hcell hwf, hnew, by rw [hnew],
    fun a hne => Memory.read_write_other s.tx _ a _ hne⟩

/-- Settles O11: a read moves only the outside world on, and a TX cell that is written again keeps its byte. -/
theorem readsHaveNoSideEffect : Obligations.ReadsHaveNoSideEffect := by
  refine ⟨fun s t addr ops hops h => ?_, fun s t addr v hwf h0 h => ?_⟩
  · obtain rfl : s.movedOn ops s.schedule (s.memRead addr) = t :=
      Host.Outcome.next.inj ((hostTurn_read s addr ops hops).symm.trans h)
    exact ⟨rfl, rfl, memRead_movedOn ..⟩
  · obtain ⟨hwindow, rfl⟩ | ⟨-, rfl⟩ := memWrite_cases h0 h
    · exact ⟨rfl, by rw [memWrite_tx _ addr v hwindow, Memory.write_write_same _ _ _ hwindow hwf]⟩
    · exact ⟨rfl, h⟩

/-! ### The search and TX -/

/-- s with other TX contents. -/
def State.withTx (s : State) (tx : List Host.Cell) : State := { s with tx := tx }

section OtherTx

variable (s done : State) (tx : List Host.Cell) (cmd : HostWord)

theorem unlessLatched_withTx :
    (s.withTx tx).unlessLatched (done.withTx tx) = (s.unlessLatched done).withTx tx :=
  (apply_ite (State.withTx · tx) (s.err = true) s done).symm

theorem checkBusy_withTx :
    (s.withTx tx).checkBusy cmd (done.withTx tx) = (s.checkBusy cmd done).withTx tx :=
  (apply_ite (State.withTx · tx) (s.phase = .searching) (s.raise .busy cmd 0) done).symm

theorem checkSequence_withTx (p : Phase) :
    (s.withTx tx).checkSequence cmd p (done.withTx tx) = (s.checkSequence cmd p done).withTx tx :=
  (apply_ite (State.withTx · tx) (s.phase = p) done (s.raise .sequence cmd 0)).symm

theorem recordBatch_withTx (work : Vector LaneWord Config.stateLen) :
    (s.withTx tx).recordBatch work = (s.recordBatch work).withTx tx := by
  have hlane : winningLane (s.withTx tx).params work (s.withTx tx).mwm.toNat =
      winningLane s.params work s.mwm.toNat := rfl
  rw [State.recordBatch, State.recordBatch, hlane]
  cases winningLane s.params work s.mwm.toNat with
  | some i => rfl
  | none => rfl

/-- The batch and its bound are of the registers, so a search step carries other TX contents along. -/
theorem searchStep_withTx : (s.withTx tx).searchStep cmd = (s.searchStep cmd).withTx tx := by
  have hwork : (s.withTx tx).batchWork = s.batchWork := rfl
  rw [State.searchStep, hwork, recordBatch_withTx]
  exact (apply_ite (State.withTx · tx) (s.offsetSpent = true) (s.raise .offset cmd 0) _).symm

theorem engineTurn_withTx : engineTurn (s.withTx tx) = (engineTurn s).withTx tx := by
  rw [engineTurn, searchStep_withTx]
  exact (apply_ite (State.withTx · tx) (s.searchEnabled = true) _ s).symm

/-- POW_STEP: its latch, its checks and its batch (`44_pow.md` R210). -/
theorem exec_powStep : exec .powStep s = .next (s.unlessLatched (s.checkBusy (encode .powStep)
    (s.checkSequence (encode .powStep) .ready (s.searchStep (encode .powStep))))) := rfl

theorem exec_powStep_withTx {t : State} (h : exec .powStep s = .next t) :
    exec .powStep (s.withTx tx) = .next (t.withTx tx) := by
  obtain rfl := Host.Outcome.next.inj ((exec_powStep s).symm.trans h)
  rw [exec_powStep, searchStep_withTx, checkSequence_withTx, checkBusy_withTx, unlessLatched_withTx]

end OtherTx

/-- Settles O51: the latch, the checks and the search step each carry other TX contents along. -/
theorem searchDoesNotReadTx : Obligations.SearchDoesNotReadTx :=
  fun s tx => ⟨engineTurn_withTx s tx, fun _ h => exec_powStep_withTx s tx h⟩

end Sys2Proof.Machine

/-! Decoding and encoding (`30_encoding.md` R76 to R82): a word decodes to a command exactly when it carries the
command's opcode and operands in its fields, which is the match and mask selection of the table of R80. -/

namespace Sys2Proof.Machine

open Sys2Proof

/-! ### The fields of an encoded command -/

theorem toNat_opcField (v : HostWord) : (opcField v).toNat = v.toNat % 256 := by simp [opcField]

theorem mwmField_eq (v : HostWord) : mwmField v = v.toNat / 256 % 256 := by
  simp [mwmField, Nat.shiftRight_eq_div_pow]

theorem lenField_eq (v : HostWord) : lenField v = v.toNat / 65536 % 4096 := by
  simp [lenField, Nat.shiftRight_eq_div_pow]

theorem rsvField_eq (v : HostWord) : rsvField v = v.toNat / 268435456 % 16 := by
  simp [rsvField, Nat.shiftRight_eq_div_pow]

theorem opcode_lt (i : Instr) : i.opcode < 256 := by cases i <;> simp [Instr.opcode]

/-- The operands of a well-formed command fit their fields, the absent ones as 0 (`30_encoding.md` R78, R79). -/
theorem operands_lt {i : Instr} (h : i.wellFormed = true) : i.lenOperand < 4096 ∧ i.mwmOperand < 256 := by
  cases i with
  | sAbsorb len | hash len => exact ⟨of_decide_eq_true h, Nat.zero_lt_succ _⟩
  | powInit m => exact ⟨Nat.zero_lt_succ _, of_decide_eq_true h⟩
  | nop | sreset | abort | sClear | sPermute | sFinalize | powStep | powRun | powFinal =>
    exact ⟨Nat.zero_lt_succ _, Nat.zero_lt_succ _⟩

/-- The three fields of an encoded command do not overlap, so its `|||` is a sum (`30_encoding.md` R79). -/
theorem toNat_encode {i : Instr} (h : i.wellFormed = true) :
    (encode i).toNat = i.lenOperand * 65536 + i.mwmOperand * 256 + i.opcode := by
  obtain ⟨hlen, hmwm⟩ := operands_lt h
  have hopc := opcode_lt i
  have hlow : i.mwmOperand <<< 8 + i.opcode < 2 ^ 16 := by rw [Nat.shiftLeft_eq]; omega
  rw [encode, Nat.or_assoc, ← Nat.shiftLeft_add_eq_or_of_lt (show i.opcode < 2 ^ 8 from hopc),
    ← Nat.shiftLeft_add_eq_or_of_lt hlow, BitVec.toNat_ofNat, Nat.shiftLeft_eq, Nat.shiftLeft_eq]
  omega

theorem CarriesFields.of_encode {i : Instr} (h : i.wellFormed = true) : CarriesFields (encode i) i := by
  obtain ⟨hlen, hmwm⟩ := operands_lt h
  have hopc := opcode_lt i
  have hword := toNat_encode h
  refine ⟨?opcode, ?len, ?mwm, ?rsv, h⟩
  case opcode => rw [toNat_opcField]; omega
  case len => rw [lenField_eq]; omega
  case mwm => rw [mwmField_eq]; omega
  case rsv => rw [rsvField_eq]; omega

/-! ### Decoding is reading the fields -/

/-- The opcode leads the decoder to its row, whose format finds its must-be-zero fields zero. -/
theorem CarriesFields.decode_eq {v : HostWord} {i : Instr} (h : CarriesFields v i) : decode v = .ok i := by
  obtain ⟨hopc, hlen, hmwm, hrsv, -⟩ := h
  have hbits : opcField v = BitVec.ofNat 8 i.opcode := by rw [← hopc, BitVec.ofNat_toNat, BitVec.setWidth_eq]
  cases i with
  | nop | sreset | abort | sClear | sPermute | sFinalize | powStep | powRun | powFinal =>
    have hzero : mwmField v = 0 ∧ lenField v = 0 ∧ rsvField v = 0 := ⟨hmwm, hlen, hrsv⟩
    simp [decode, decodeC0, hbits, Instr.opcode, hzero]
  | sAbsorb len | hash len =>
    have hoperand : lenField v = len := hlen
    have hzero : mwmField v = 0 ∧ rsvField v = 0 := ⟨hmwm, hrsv⟩
    simp [decode, decodeCL, hbits, Instr.opcode, hzero, hoperand]
  | powInit m =>
    have hoperand : mwmField v = m := hmwm
    have hzero : lenField v = 0 ∧ rsvField v = 0 := ⟨hlen, hrsv⟩
    simp [decode, decodeCM, hbits, Instr.opcode, hzero, hoperand]

theorem decode_eq_ok_iff {v : HostWord} {i : Instr} : decode v = .ok i ↔ CarriesFields v i :=
  ⟨CarriesFields.of_decode, CarriesFields.decode_eq⟩

/-- Settles O1: the encoding carries the command's fields. -/
theorem decodeEncodeRoundTrip : Obligations.DecodeEncodeRoundTrip :=
  fun _ h => (CarriesFields.of_encode h).decode_eq

/-- Settles O2: a decoded word carries the command's fields, which make up the word. -/
theorem encodeDecodeRoundTrip : Obligations.EncodeDecodeRoundTrip := fun _ _ h =>
  have fields := CarriesFields.of_decode h
  ⟨fields.wellFormed, fields.encode_eq⟩

/-! ### The table of rows -/

theorem rowMask_cases (i : Instr) : i.rowMask = 0xFFFFFFFF ∨ i.rowMask = 0xF000FFFF ∨ i.rowMask = 0xFFFF00FF := by
  cases i <;> simp [Instr.rowMask]

/-- A match word is its opcode, the other fields 0 (`30_encoding.md` R80). -/
theorem toNat_rowMatch (i : Instr) : i.rowMatch.toNat = i.opcode :=
  Nat.mod_eq_of_lt ((opcode_lt i).trans (by decide))

section Rows

variable {v mask : HostWord} {i : Instr}

/-- Where the mask covers a field, a word that fits the row has the match word's. -/
theorem extractLsb'_of_row {start len : Nat} (h : v &&& i.rowMask = i.rowMatch) (hmask : i.rowMask = mask)
    (covered : mask.extractLsb' start len = BitVec.allOnes len) :
    v.extractLsb' start len = i.rowMatch.extractLsb' start len := by
  rw [← h, hmask, BitVec.extractLsb'_and, covered, BitVec.and_allOnes]

theorem mwmField_of_row (h : v &&& i.rowMask = i.rowMatch) (hmask : i.rowMask = mask)
    (covered : mask.extractLsb' 8 8 = BitVec.allOnes 8) : mwmField v = 0 := by
  have hopc := opcode_lt i
  rw [mwmField, extractLsb'_of_row h hmask covered, ← mwmField, mwmField_eq, toNat_rowMatch]
  omega

theorem lenField_of_row (h : v &&& i.rowMask = i.rowMatch) (hmask : i.rowMask = mask)
    (covered : mask.extractLsb' 16 12 = BitVec.allOnes 12) : lenField v = 0 := by
  have hopc := opcode_lt i
  rw [lenField, extractLsb'_of_row h hmask covered, ← lenField, lenField_eq, toNat_rowMatch]
  omega

/-- Every mask covers OPC (`30_encoding.md` R80). -/
theorem toNat_opcField_of_row (h : v &&& i.rowMask = i.rowMatch) : (opcField v).toNat = i.opcode := by
  have covered : i.rowMask.extractLsb' 0 8 = BitVec.allOnes 8 := by
    rcases rowMask_cases i with hmask | hmask | hmask <;> rw [hmask] <;> rfl
  rw [opcField, extractLsb'_of_row h rfl covered, ← opcField, toNat_opcField, toNat_rowMatch,
    Nat.mod_eq_of_lt (opcode_lt i)]

/-- Every mask covers RSV (`30_encoding.md` R80). -/
theorem rsvField_of_row (h : v &&& i.rowMask = i.rowMatch) : rsvField v = 0 := by
  have covered : i.rowMask.extractLsb' 28 4 = BitVec.allOnes 4 := by
    rcases rowMask_cases i with hmask | hmask | hmask <;> rw [hmask] <;> rfl
  have hopc := opcode_lt i
  rw [rsvField, extractLsb'_of_row h rfl covered, ← rsvField, rsvField_eq, toNat_rowMatch]
  omega

end Rows

/-- The twelve commands in the table's order, with these operands. -/
def commands (len m : Nat) : List Instr :=
  [.nop, .sreset, .abort, .sClear, .sAbsorb len, .sPermute, .sFinalize, .hash len, .powInit m, .powStep, .powRun,
    .powFinal]

/-- The rows of the commands are the literal table of `30_encoding.md` R80. -/
theorem map_commands (len m : Nat) : (commands len m).map (fun i => (i.opcode, i.rowMatch, i.rowMask)) = rowTable := rfl

theorem mem_commands (i : Instr) : i ∈ commands i.lenOperand i.mwmOperand := by
  cases i <;> simp [commands, Instr.lenOperand, Instr.mwmOperand]

/-- The row a word fits, its fields as the operands, is the command the word carries. -/
theorem CarriesFields.of_row {v : HostWord} {i : Instr} (hmem : i ∈ commands (lenField v) (mwmField v))
    (h : v &&& i.rowMask = i.rowMatch) : CarriesFields v i := by
  have hopc := toNat_opcField_of_row h
  have hrsv := rsvField_of_row h
  cases i with
  | nop | sreset | abort | sClear | sPermute | sFinalize | powStep | powRun | powFinal =>
    exact ⟨hopc, lenField_of_row h rfl rfl, mwmField_of_row h rfl rfl, hrsv, rfl⟩
  | sAbsorb len | hash len =>
    obtain rfl : len = lenField v := by simpa [commands] using hmem
    exact ⟨hopc, rfl, mwmField_of_row (mask := 0xF000FFFF) h rfl rfl, hrsv, decide_eq_true (lenField_lt v)⟩
  | powInit m =>
    obtain rfl : m = mwmField v := by simpa [commands] using hmem
    exact ⟨hopc, lenField_of_row (mask := 0xFFFF00FF) h rfl rfl, rfl, hrsv, decide_eq_true (mwmField_lt v)⟩

theorem encode_and_rowMask {i : Instr} (h : i.wellFormed = true) : encode i &&& i.rowMask = i.rowMatch := by
  cases i with
  | nop => exact Laws.EncodesToRow.nop h
  | sreset => exact Laws.EncodesToRow.sreset h
  | abort => exact Laws.EncodesToRow.abort h
  | sClear => exact Laws.EncodesToRow.sClear h
  | sAbsorb len => exact Laws.EncodesToRow.sAbsorb len h
  | sPermute => exact Laws.EncodesToRow.sPermute h
  | sFinalize => exact Laws.EncodesToRow.sFinalize h
  | hash len => exact Laws.EncodesToRow.hash len h
  | powInit m => exact Laws.EncodesToRow.powInit m h
  | powStep => exact Laws.EncodesToRow.powStep h
  | powRun => exact Laws.EncodesToRow.powRun h
  | powFinal => exact Laws.EncodesToRow.powFinal h

theorem CarriesFields.and_rowMask {v : HostWord} {i : Instr} (h : CarriesFields v i) :
    v &&& i.rowMask = i.rowMatch := by
  have hrow := encode_and_rowMask h.wellFormed
  rwa [h.encode_eq] at hrow

theorem CarriesFields.mem_commands {v : HostWord} {i : Instr} (h : CarriesFields v i) :
    i ∈ commands (lenField v) (mwmField v) := by
  rw [h.len, h.mwm]
  exact Machine.mem_commands i

theorem carriesFields_iff_row {v : HostWord} {i : Instr} : CarriesFields v i ↔
    v &&& i.rowMask = i.rowMatch ∧ i.lenOperand = lenField v ∧ i.mwmOperand = mwmField v :=
  ⟨fun h => ⟨h.and_rowMask, h.len.symm, h.mwm.symm⟩,
    fun ⟨hrow, hlen, hmwm⟩ => .of_row (hlen ▸ hmwm ▸ mem_commands i) hrow⟩

theorem matchesRow_iff (v : HostWord) (len m : Nat) :
    matchesRow v = true ↔ ∃ i ∈ commands len m, v &&& i.rowMask = i.rowMatch := by
  simp [matchesRow, ← map_commands len m]

theorem exists_decode_iff_matchesRow (v : HostWord) : (∃ i, decode v = .ok i) ↔ matchesRow v = true := by
  rw [matchesRow_iff v (lenField v) (mwmField v)]
  constructor
  · rintro ⟨i, h⟩
    have fields := CarriesFields.of_decode h
    exact ⟨i, fields.mem_commands, fields.and_rowMask⟩
  · rintro ⟨i, hmem, hrow⟩
    exact ⟨i, (CarriesFields.of_row hmem hrow).decode_eq⟩

theorem opcode_of_mem_rowTable {v : HostWord} :
    ∀ r ∈ rowTable, v &&& r.2.2 = r.2.1 → r.1 = (opcField v).toNat := by
  intro r hmem hrow
  rw [← map_commands 0 0] at hmem
  obtain ⟨i, -, rfl⟩ := List.mem_map.mp hmem
  exact (toNat_opcField_of_row hrow).symm

/-- The rows differ in OPC, which every mask covers (`30_encoding.md` R80). -/
theorem length_filter_rowTable_le_one (v : HostWord) :
    (rowTable.filter fun r => v &&& r.2.2 == r.2.1).length ≤ 1 := by
  have hnodup : (rowTable.map Prod.fst).Nodup := by decide
  calc (rowTable.filter fun r => v &&& r.2.2 == r.2.1).length
      = rowTable.countP fun r => v &&& r.2.2 == r.2.1 := List.countP_eq_length_filter.symm
    _ ≤ rowTable.countP fun r => r.1 == (opcField v).toNat :=
        List.countP_mono_left fun r hmem hrow => by
          simpa using opcode_of_mem_rowTable r hmem (by simpa using hrow)
    _ = (rowTable.map Prod.fst).count (opcField v).toNat :=
        (List.countP_map (p := (· == (opcField v).toNat)) (f := Prod.fst)).symm
    _ ≤ 1 := List.nodup_iff_count_le_one.mp hnodup _

/-- Settles O3: decoding is reading the fields, the mask covers all but the operand, and the opcodes differ. -/
theorem decodeSelectsTheTableRow : Obligations.DecodeSelectsTheTableRow :=
  ⟨fun _ _ => decode_eq_ok_iff.trans carriesFields_iff_row, exists_decode_iff_matchesRow,
    length_filter_rowTable_le_one, map_commands⟩

/-- Settles O4: the decoder on nine closed words. -/
theorem specWordsDecode : Obligations.SpecWordsDecode := by
  unfold Obligations.SpecWordsDecode
  decide

/-- Settles O5: no row fits the word, so the decoder rejects it and the issue raises the error. -/
theorem unmatchedWordRaisesIllegalCmd : Obligations.UnmatchedWordRaisesIllegalCmd := by
  intro s v unmatched live
  cases hv : decode v with
  | ok i => exact absurd ((exists_decode_iff_matchesRow v).mp ⟨i, hv⟩) (by simp [unmatched])
  | error e =>
    rw [issue_illegal s v e hv, unlessLatched_live s _ live]
    rfl

end Sys2Proof.Machine

/-! Symbols and their storage codes (`30_encoding.md` R71), the tryte table (R72) and the lane masks (R75). -/

namespace Sys2Proof.Machine

open Sys2Proof

/-! ### Symbols -/

theorem validSymbol_iff (b : Byte) :
    validSymbol b = true ↔ b.toNat = 0x39 ∨ 0x41 ≤ b.toNat ∧ b.toNat ≤ 0x5A := by
  simp [validSymbol]

theorem toNat_symbolCode_letter {j : SymIdx} (h : 1 ≤ j.val) : (symbolCode j).toNat = 0x40 + j.val := by
  rw [symbolCode, if_neg (by omega), BitVec.toNat_ofNat]
  omega

theorem symbolOf_symbolCode : ∀ j : SymIdx, symbolOf (symbolCode j) = j := by decide

/-- A valid byte is the code of `9` or of the letter whose index its distance from 0x40 is. -/
theorem exists_symbolCode_eq {b : Byte} (h : validSymbol b = true) : ∃ j : SymIdx, symbolCode j = b := by
  obtain nine | ⟨hlow, hhigh⟩ := (validSymbol_iff b).mp h
  · exact ⟨0, BitVec.eq_of_toNat_eq nine.symm⟩
  · refine ⟨⟨b.toNat - 0x40, by omega⟩, BitVec.eq_of_toNat_eq ?_⟩
    rw [toNat_symbolCode_letter (by simp only; omega)]
    simp only
    omega

/-- Settles O13: the codes symbol by symbol, and the valid bytes as their range. -/
theorem storageCodes : Obligations.StorageCodes :=
  ⟨rfl, fun _ => toNat_symbolCode_letter, symbolOf_symbolCode,
    fun _ => ⟨exists_symbolCode_eq, fun ⟨j, hj⟩ => hj ▸ validSymbol_symbolCode j⟩⟩

/-- The value of a row of the tryte table (`30_encoding.md` R72). -/
theorem tritsVal_tryte :
    ∀ j : SymIdx, tritsVal (tryte j) = if j.val ≤ 13 then (j.val : Int) else (j.val : Int) - 27 := by
  decide

/-- Settles O12: a row is three trits, and its value is that of the triple. -/
theorem tryteRowsAreBalanced : Obligations.TryteRowsAreBalanced := by
  intro j
  obtain ⟨t0, t1, t2, hrow⟩ := List.length_eq_three.mp (tryte_length j)
  have hval := tritsVal_tryte j
  rw [hrow, tritsVal_cons, tritsVal_cons, tritsVal_cons, tritsVal_nil] at hval
  exact ⟨t0, t1, t2, hrow, by rw [← hval]; ring⟩

/-! ### The lane masks -/

theorem evenBits_eq_sum (n : Nat) : evenBits n = ∑ i ∈ Finset.range n, 2 ^ (2 * i) := by
  induction n with
  | zero => rfl
  | succ n ih => rw [evenBits, ih, Finset.sum_range_succ]

/-- A bit of a word is a bit of its lane. -/
theorem testBit_eq_testBit_laneOf (w : LaneWord) (b : Nat) : w.testBit b = (laneOf w (b / 2)).testBit (b % 2) := by
  have hb : b % 2 < 2 := Nat.mod_lt b (by decide)
  rw [laneOf, wordShr, Nat.testBit_mod_two_pow (j := 2), Nat.testBit_shiftRight, Nat.div_add_mod]
  simp [hb]

/-- Bit by bit, bc(t) repeats the code of t over the W bits. -/
theorem testBit_broadcast {W : Nat} (heven : W % 2 = 0) (t : Trit) (b : Nat) :
    (broadcast W t).testBit b = (decide (b < W) && (laneCode t).testBit (b % 2)) := by
  by_cases hb : b < W
  · rw [testBit_eq_testBit_laneOf, laneOf_broadcast t (by omega)]
    simp [hb]
  · have hword := (broadcast_valid W t).1
    rw [Nat.testBit_lt_two_pow (hword.trans_le (Nat.pow_le_pow_right (by decide) (by omega)))]
    simp [hb]

theorem testBit_lowMask {W : Nat} (heven : W % 2 = 0) (b : Nat) :
    (lowMask W).testBit b = (decide (b < W) && decide (b % 2 = 0)) := by
  rw [lowMask_eq_broadcast, testBit_broadcast heven]
  obtain h | h := Nat.mod_two_eq_zero_or_one b <;> rw [h] <;> rfl

theorem testBit_highMask {W : Nat} (heven : W % 2 = 0) (b : Nat) :
    (highMask W).testBit b = (decide (b < W) && decide (b % 2 = 1)) := by
  rw [highMask_eq_broadcast, testBit_broadcast heven]
  obtain h | h := Nat.mod_two_eq_zero_or_one b <;> rw [h] <;> rfl

/-- Settles O22: the sum is the recursion of the mask, and each mask repeats one lane code. -/
theorem laneMasks : Obligations.LaneMasks :=
  ⟨fun W heven => ⟨evenBits_eq_sum (W / 2), rfl, fun b =>
      ⟨testBit_lowMask heven b, testBit_highMask heven b⟩⟩,
    by decide, by decide⟩

end Sys2Proof.Machine

/-! The pseudo-instructions of the host (`30_encoding.md` R84): WAITPOW polls STATUS, and LOADTX writes TX. -/

namespace Sys2Proof.Machine

open Sys2Proof

/-! ### WAITPOW -/

theorem status_and_three (s : State) : s.status &&& 3 = s.phase.toBits.setWidth 32 := by
  rw [← status_phase]
  refine BitVec.eq_of_toNat_eq ?_
  simp [Nat.and_two_pow_sub_one_eq_mod _ 2]
  omega

theorem status_and_four (s : State) : s.status &&& 4 = if s.err then 4 else 0 := by
  rw [← status_err]
  exact BitVec.and_twoPow s.status 2

/-- WAITPOW ends on STATUS exactly when the search is over or an error is latched. -/
theorem searchOver_status_iff (s : State) : searchOver s.status = true ↔ s.phase ≠ .searching ∨ s.err = true := by
  have hphase : s.phase.toBits.setWidth 32 = (2 : HostWord) ↔ s.phase = .searching := by
    cases s.phase <;> decide
  have herr : (if s.err then (4 : HostWord) else 0) ≠ 0 ↔ s.err = true := by cases s.err <;> decide
  rw [searchOver, status_and_three, status_and_four, Bool.or_eq_true, decide_eq_true_iff, decide_eq_true_iff, herr,
    Ne, hphase]

theorem hostTurn_waitPow {s : State} {rest : List HostOp} (h : s.host = .waitPow :: rest) :
    hostTurn s = .next { s with
      host := if searchOver s.status then rest else s.host
      readData := s.status } := by
  cases hover : searchOver s.status <;> simp [hostTurn, h, hover]

/-- Settles O58: the turn reads STATUS, and its two bits decide whether the poll stays. -/
theorem waitPowPollsStatus : Obligations.WaitPowPollsStatus := by
  intro s t ops hops h
  obtain rfl := Host.Outcome.next.inj ((hostTurn_waitPow hops).symm.trans h)
  refine ⟨rfl, rfl, fun hover => ?_, fun searching live => ?_⟩
  · exact if_pos ((searchOver_status_iff s).mpr hover)
  · refine if_neg fun hover => ?_
    simp [searchOver_status_iff, searching, live] at hover

/-! ### LOADTX -/

theorem loadOps_cons (j : Nat) (x : SymIdx) (symbols : List SymIdx) :
    loadOps j (x :: symbols) = writeOp (txBase + j) (symbolCode x).toNat :: loadOps (j + 1) symbols := by
  simp [loadOps, List.zipIdx_succ, Function.comp_def, Nat.add_assoc, Nat.add_comm 1]

theorem inTxWindow_cell {j : Nat} (hj : j < 2673) : inTxWindow (txBase + j) = true := by
  rw [inTxWindow_iff, txBase]
  omega

theorem hostTurn_writeOp_tx {s : State} {j : Nat} {b : Byte} {rest : List HostOp} (hj : j < 2673)
    (h : s.host = writeOp (txBase + j) b.toNat :: rest) :
    hostTurn s = .next { s with host := rest, tx := Memory.write s.tx (txBase + j) b } := by
  have haddr : (BitVec.ofNat 16 (txBase + j)).toNat = txBase + j :=
    Nat.mod_eq_of_lt (by rw [txBase]; omega)
  have hbyte : (BitVec.ofNat 32 b.toNat).setWidth 8 = b := BitVec.eq_of_toNat_eq (by simp)
  rw [hostTurn_write s _ _ rest h, memWrite_tx _ _ _ (haddr.symm ▸ inTxWindow_cell hj), haddr, hbyte]

/-- The writes of LOADTX are one run of cells. -/
theorem hostRun_loadOps (s : State) (j : Nat) (symbols : List SymIdx) (ops : List HostOp)
    (hfit : j + symbols.length ≤ 2673) :
    hostRun symbols.length { s with host := loadOps j symbols ++ ops } =
      .next { s with host := ops, tx := Memory.writeAll s.tx (txBase + j) (symbols.map symbolCode) } := by
  induction symbols generalizing s j with
  | nil => rfl
  | cons x symbols ih =>
    rw [List.length_cons] at hfit
    rw [List.length_cons, hostRun, loadOps_cons, List.cons_append, hostTurn_writeOp_tx (by omega) rfl]
    exact ih { s with tx := Memory.write s.tx (txBase + j) (symbolCode x) } (j + 1) (by omega)

/-- Settles O59: the writes are one run of cells, so the laws of such a run say what each cell then reads. -/
theorem loadTxFillsTheCells : Obligations.LoadTxFillsTheCells := by
  intro s j symbols ops hwf hfit
  have hcells : ∀ k < (symbols.map symbolCode).length, inTxWindow (txBase + j + k) = true := by
    intro k hk
    rw [List.length_map] at hk
    exact Nat.add_assoc txBase j k ▸ inTxWindow_cell (by omega)
  refine ⟨_, hostRun_loadOps s j symbols ops hfit, rfl, Memory.writeAll_wf _ _ _ hcells hwf, fun k hk => ?_,
    fun a outside => Memory.read_writeAll_other _ _ _ _ (by rwa [List.length_map])⟩
  have hread := Memory.read_writeAll s.tx (txBase + j) k (symbols.map symbolCode) hcells hwf (by simpa using hk)
  rw [txCell_eq, ← Nat.add_assoc, hread]
  simp [hk]

end Sys2Proof.Machine

/-! The commands as such (`40_commands.md` R100 to R105): a CMD write runs the decoded command, the three control
commands, and what a command that raises an error leaves unchanged. -/

namespace Sys2Proof.Machine

open Sys2Proof

/-! ### A CMD write runs the command -/

theorem hostTurn_command {s : State} {v : HostWord} {i : Instr} {ops : List HostOp}
    (hops : s.host = .write 0x0000 4 v :: ops) (hv : decode v = .ok i) :
    hostTurn s = exec i { s with host := ops } := by
  rw [hostTurn_write s _ v ops hops, memWrite_cmd, issue_ok _ v i hv]

theorem step_command_scheduled {s : State} {v : HostWord} {i : Instr} {turns : List Agent} {ops : List HostOp}
    (hturns : s.schedule = .host :: turns) (hops : s.host = .write 0x0000 4 v :: ops) (hv : decode v = .ok i) :
    step s = exec i { s with schedule := turns, host := ops } := by
  rw [step_scheduled s _ turns hturns, turn_host]
  exact hostTurn_command hops hv

/-- The host moves where the schedule is spent and no search step is enabled. -/
theorem defaultAgent_disabled {s : State} (h : s.searchEnabled = false) : s.defaultAgent = .host := by
  simp [State.defaultAgent, h]

theorem withFetchWord_toNat (s : State) (v : HostWord) : s.withFetchWord 32 v.toNat = s.withCommand v := by
  rw [State.withFetchWord, Nat.mod_eq_of_lt v.isLt, BitVec.ofNat_toNat, BitVec.setWidth_eq]

/-- Settles O6: the host's turn issues the word, on the schedule and past its end; `withFetchWord` is the scheduled
case. -/
theorem stepRunsTheDecodedCommand : Obligations.StepRunsTheDecodedCommand := by
  refine ⟨fun s v i turns ops => step_command_scheduled, fun s v i ops hturns hdisabled hops hv => ?_,
    fun s v i hv => ?_⟩
  · rw [step_unscheduled s hturns, defaultAgent_disabled hdisabled, turn_host, hostTurn_command hops hv]
  · rw [withFetchWord_toNat]
    exact step_command_scheduled (withCommand_schedule s v) (withCommand_host s v) hv

/-! ### The control commands -/

theorem exec_nop (s : State) : exec .nop s = .next (s.unlessLatched s) := rfl

theorem exec_sreset (s : State) : exec .sreset s = .next (s.resetAll s.tx) := rfl

theorem exec_abort (s : State) :
    exec .abort s = .next (s.unlessLatched (if s.phase = .searching then { s with phase := .ready } else s)) := rfl

/-- Settles O35: latched or not, the state stays. -/
theorem nopChangesNothing : Obligations.NopChangesNothing := fun s => by
  rw [exec_nop, State.unlessLatched, ite_self]

/-- Settles O37: a split on PHASE. -/
theorem abortResult : Obligations.AbortResult := by
  intro s live
  rw [exec_abort, unlessLatched_live s _ live]
  exact ⟨fun searching => by rw [if_pos searching], fun other => by rw [if_neg other]⟩

/-- A reset leaves IDLE without an error, so STATUS reads 0 (`20_memory.md` R52). -/
@[simp] theorem resetAll_status (s : State) (cells : List Host.Cell) : (s.resetAll cells).status = 0 := by
  rw [State.status, resetAll_phase, resetAll_err, resetAll_errCode]
  rfl

@[simp] theorem resetAll_searchEnabled (s : State) (cells : List Host.Cell) :
    (s.resetAll cells).searchEnabled = false := by
  rw [State.searchEnabled, resetAll_phase]
  rfl

/-- Settles O36: SRESET is the reset that keeps TX, and the free words it leaves hold valid codes. -/
theorem sresetResult : Obligations.SresetResult := fun s =>
  ⟨_, exec_sreset s, resetAll_sponge s s.tx, resetAll_phase s s.tx, resetAll_err s s.tx, resetAll_errCode s s.tx,
    resetAll_errCmd s s.tx, resetAll_errIndex s s.tx, resetAll_mwm s s.tx, resetAll_offset s s.tx,
    resetAll_winOffset s s.tx, resetAll_winLane s s.tx, resetAll_digest s s.tx, resetAll_tx s s.tx,
    resetAll_params s s.tx, resetAll_host s s.tx, resetAll_schedule s s.tx, resetAll_readData s s.tx,
    resetAll_status s s.tx, resetAll_searchEnabled s s.tx,
    ofFn_wordOfLanes_valid s.params.wordBits fun k => Config.freeMid s.draws k,
    ofFn_wordOfLanes_valid s.params.wordBits fun k => Config.freeWork s.draws k⟩

/-! ### The errors of a command -/

/-- `RaisedBy s v n t`: t is s in which the word v has raised an error, and SYMBOL at the lowest bad cell of
TX[0..n) (`60_exceptions.md` R242, R243). -/
inductive RaisedBy (s : State) (v : HostWord) (n : Nat) : State → Prop where
  | refused (code : ErrorCode) (other : code ≠ .symbol) : RaisedBy s v n (s.raise code v 0)
  | badCell (j : Nat) (lowest : lowestBadCell s.tx n = some j) : RaisedBy s v n (s.raise .symbol v j)

/-- Where t has an error, it is one that the word v has raised in s. -/
def OnlyRaises (s : State) (v : HostWord) (n : Nat) (t : State) : Prop := t.err = true → RaisedBy s v n t

namespace OnlyRaises

variable {s t : State} {v : HostWord} {n : Nat}

theorem of_live (h : t.err = false) : OnlyRaises s v n t := fun herr => nomatch h.symm.trans herr

theorem of_raise (code : ErrorCode) (other : code ≠ .symbol) : OnlyRaises s v n (s.raise code v 0) :=
  fun _ => .refused code other

theorem unlessLatched (live : s.err = false) (h : OnlyRaises s v n t) : OnlyRaises s v n (s.unlessLatched t) := by
  rwa [unlessLatched_live s t live]

theorem checkBusy (h : OnlyRaises s v n t) : OnlyRaises s v n (s.checkBusy v t) := by
  unfold State.checkBusy
  split
  · exact of_raise .busy (by decide)
  · exact h

theorem checkLength (len : Nat) (h : OnlyRaises s v n t) : OnlyRaises s v n (s.checkLength v len t) := by
  unfold State.checkLength
  split
  · exact h
  · exact of_raise .length (by decide)

theorem checkParam (m : Nat) (h : OnlyRaises s v n t) : OnlyRaises s v n (s.checkParam v m t) := by
  unfold State.checkParam
  split
  · exact h
  · exact of_raise .param (by decide)

theorem checkSequence (p : Phase) (h : OnlyRaises s v n t) : OnlyRaises s v n (s.checkSequence v p t) := by
  unfold State.checkSequence
  split
  · exact h
  · exact of_raise .sequence (by decide)

theorem checkSymbols (h : OnlyRaises s v n t) : OnlyRaises s v n (s.checkSymbols v n t) := by
  cases hbad : lowestBadCell s.tx n with
  | some j => exact checkSymbols_fail s v t n j hbad ▸ fun _ => .badCell j hbad
  | none => exact (checkSymbols_pass s v t n hbad).symm ▸ h

theorem searchStep (live : s.err = false) : OnlyRaises s v n (s.searchStep v) := by
  obtain ⟨-, heq⟩ | ⟨-, i, -, heq⟩ | ⟨-, -, heq⟩ := searchStep_cases s v <;> rw [heq]
  · exact of_raise .offset (by decide)
  · exact of_live live
  · exact of_live live

end OnlyRaises

/-- How many TX cells a decoded word's command reads, by its opcode and its length operand. -/
theorem CarriesFields.cellsRead_eq {v : HostWord} {i : Instr} (h : CarriesFields v i) :
    cellsRead v = if i.opcode = 0x11 ∨ i.opcode = 0x14 then i.lenOperand else if i.opcode = 0x20 then 2673 else 0 := by
  rw [cellsRead, ← h.opcode, ← h.len, toNat_opcField, lenField_eq]
  rfl

theorem cellsRead_lt (v : HostWord) : cellsRead v < 4096 := by
  simp only [cellsRead]
  split
  · exact Nat.mod_lt _ (by decide)
  · split <;> decide

open OnlyRaises in
/-- The checks of each command raise its word's errors, and past them only a search step raises one. -/
theorem exec_onlyRaises {s : State} {v : HostWord} {i : Instr} (hf : CarriesFields v i) (live : s.err = false) :
    ∃ t, exec i s = .next t ∧ OnlyRaises s v (cellsRead v) t := by
  obtain rfl := hf.encode_eq
  cases i with
  | nop => exact ⟨_, rfl, unlessLatched live (of_live live)⟩
  | sreset => exact ⟨_, rfl, of_live (resetAll_err s s.tx)⟩
  | abort =>
    refine ⟨_, rfl, unlessLatched live (of_live ?_)⟩
    split <;> exact live
  | sClear => exact ⟨_, rfl, unlessLatched live (checkBusy (of_live live))⟩
  | sAbsorb len =>
    have hcells : cellsRead (encode (.sAbsorb len)) = len := hf.cellsRead_eq
    rw [hcells]
    exact ⟨_, rfl, unlessLatched live (checkBusy (checkLength len (checkSymbols (of_live live))))⟩
  | sPermute => exact ⟨_, rfl, unlessLatched live (checkBusy (of_live live))⟩
  | sFinalize => exact ⟨_, rfl, unlessLatched live (checkBusy (of_live live))⟩
  | hash len =>
    have hcells : cellsRead (encode (.hash len)) = len := hf.cellsRead_eq
    rw [hcells]
    exact ⟨_, rfl, unlessLatched live (checkBusy (checkLength len (checkSymbols (of_live live))))⟩
  | powInit m =>
    have hcells : cellsRead (encode (.powInit m)) = Config.txLen := hf.cellsRead_eq
    rw [hcells]
    exact ⟨_, rfl, unlessLatched live (checkBusy (checkParam m (checkSymbols (of_live live))))⟩
  | powStep => exact ⟨_, rfl, unlessLatched live (checkBusy (checkSequence .ready (searchStep live)))⟩
  | powRun => exact ⟨_, rfl, unlessLatched live (checkBusy (checkSequence .ready (of_live live)))⟩
  | powFinal => exact ⟨_, rfl, unlessLatched live (checkBusy (checkSequence .found (of_live live)))⟩

/-- A word written to CMD raises no error but its own. -/
theorem issue_onlyRaises {s t : State} {v : HostWord} (live : s.err = false) (h : s.issue v = .next t) :
    OnlyRaises s v (cellsRead v) t := by
  cases hv : decode v with
  | ok i =>
    obtain ⟨u, hu, hraises⟩ := exec_onlyRaises (.of_decode hv) live
    rw [issue_ok s v i hv, hu] at h
    exact Host.Outcome.next.inj h ▸ hraises
  | error e =>
    rw [issue_illegal s v e hv] at h
    exact Host.Outcome.next.inj h ▸ .unlessLatched live (.of_raise .illegalCmd (by decide))

theorem ErrorCode.toBits_eq_six_iff (code : ErrorCode) : code.toBits = 6 ↔ code = .symbol := by
  cases code <;> decide

/-- Settles O47: the raised error is one of the word's own, so its record says the whole next state. -/
theorem errorsChangeOnlyTheErrorRegisters : Obligations.ErrorsChangeOnlyTheErrorRegisters := by
  intro s t v live h herr
  cases issue_onlyRaises live h herr with
  | refused code other => exact ⟨rfl, fun hsix => absurd ((ErrorCode.toBits_eq_six_iff code).mp hsix) other⟩
  | badCell j lowest =>
    have hlowest : IsLowestBad s (cellsRead v) j := (lowestBadCell_some s.tx _ j).mp lowest
    have hindex : (BitVec.ofNat 12 j).toNat = j := Nat.mod_eq_of_lt (hlowest.1.trans (cellsRead_lt v))
    exact ⟨rfl, fun _ => by rwa [raise_errIndex, hindex]⟩

end Sys2Proof.Machine

/-! Trits and symbols (`41_codec.md` R120 to R122), and the arithmetic on balanced-ternary sequences (R123 to R125):
`add` and `increment` are `balanced` of the sum, so that their laws are those of congruence modulo 3^L. -/

namespace Sys2Proof.Machine

open Sys2Proof

/-! ### Symbols to trits and back -/

@[simp] theorem symbolsToTrits_cons (j : SymIdx) (s : List SymIdx) :
    symbolsToTrits (j :: s) = tryte j ++ symbolsToTrits s := rfl

@[simp] theorem tritsToSymbols_group (t0 t1 t2 : Trit) (ts : List Trit) :
    tritsToSymbols (t0 :: t1 :: t2 :: ts) = groupSymbol t0 t1 t2 :: tritsToSymbols ts := rfl

/-- TRYTE inverts the map of R121 on each of the 27 triples. -/
theorem tryte_groupSymbol (t0 t1 t2 : Trit) : tryte (groupSymbol t0 t1 t2) = [t0, t1, t2] := by
  cases t0 <;> cases t1 <;> cases t2 <;> rfl

/-- No two symbols share a row, as the rows differ in value. -/
theorem tryte_injective {j k : SymIdx} (h : tryte j = tryte k) : j = k := by
  have hval : tritsVal (tryte j) = tritsVal (tryte k) := congrArg tritsVal h
  rw [tritsVal_tryte, tritsVal_tryte] at hval
  exact Fin.ext (by omega)

theorem tritsToSymbols_tryte_append (j : SymIdx) (ts : List Trit) :
    tritsToSymbols (tryte j ++ ts) = j :: tritsToSymbols ts := by
  obtain ⟨t0, t1, t2, hrow⟩ := List.length_eq_three.mp (tryte_length j)
  have hj : groupSymbol t0 t1 t2 = j := tryte_injective ((tryte_groupSymbol t0 t1 t2).trans hrow.symm)
  simp [hrow, hj]

theorem tritsToSymbols_symbolsToTrits (s : List SymIdx) : tritsToSymbols (symbolsToTrits s) = s := by
  induction s with
  | nil => rfl
  | cons j s ih => rw [symbolsToTrits_cons, tritsToSymbols_tryte_append, ih]

theorem symbolsToTrits_tritsToSymbols (t : List Trit) (h : t.length % 3 = 0) :
    symbolsToTrits (tritsToSymbols t) = t := by
  fun_induction tritsToSymbols t with
  | case1 => rfl
  | case2 t0 => simp at h
  | case3 t0 t1 => simp at h
  | case4 t0 t1 t2 ts ih =>
    have hts : ts.length % 3 = 0 := by
      simp only [List.length_cons] at h
      omega
    simp [tryte_groupSymbol, ih hts]

/-- Settles O14: one symbol and one group of three trits at a time. -/
theorem codecRoundTrip : Obligations.CodecRoundTrip :=
  ⟨tritsToSymbols_symbolsToTrits, symbolsToTrits_tritsToSymbols⟩

/-! ### The value of a sum -/

/-- The digit loop of `add` on one digit: a digit sum from -1 to 4 is a trit and three times its carry. -/
theorem toInt_tritOfInt_add_carry {d : Int} (hlow : -1 ≤ d) (hhigh : d ≤ 4) :
    (tritOfInt d).toInt + 3 * ((if 1 < d then 1 else 0 : Nat) : Int) = d := by
  interval_cases d <;> rfl

/-- What the digit loop leaves of n and the carry stands at the weight 3^L, and nothing of the sum is lost. -/
theorem tritsVal_addDigits (t : List Trit) (n c : Nat) (hc : c ≤ 1) :
    tritsVal (addDigits t n c).1 + ((addDigits t n c).2 : Int) * 3 ^ t.length = tritsVal t + n + c := by
  induction t generalizing n c with
  | nil => simp [addDigits]
  | cons t ts ih =>
    have ht := abs_le.mp (abs_toInt_le_one t)
    have hdigit := toInt_tritOfInt_add_carry (d := t.toInt + ((n % 3 + c : Nat) : Int)) (by omega) (by omega)
    have hrest := ih (n / 3) (if 1 < t.toInt + ((n % 3 + c : Nat) : Int) then 1 else 0) (by split <;> decide)
    have hn : ((n % 3 + c : Nat) : Int) + 3 * ((n / 3 : Nat) : Int) = n + c := by omega
    rw [addDigits, tritsVal_cons, tritsVal_cons, List.length_cons, pow_succ]
    linear_combination hdigit + 3 * hrest + hn

/-- The value semantics of `add` as one equation (R123). -/
theorem tritsVal_addTrits (t : List Trit) (n : Nat) :
    tritsVal (addTrits t n).1 + ((addTrits t n).2 : Int) * 3 ^ t.length = tritsVal t + n := by
  simpa [addTrits] using tritsVal_addDigits t n 0 (by decide)

theorem addTrits_eq_balanced (t : List Trit) (n : Nat) :
    (addTrits t n).1 = balanced t.length (tritsVal t + n) := by
  refine (eq_balanced_iff _ _ (addTrits t n).1 (addDigits_length t n 0)).mpr ⟨-((addTrits t n).2 : Int), ?_⟩
  linarith [tritsVal_addTrits t n]

/-- Settles O16: the equation of the sum gives the carry, and the congruence modulo 3^L gives the trits. -/
theorem addMeetsTheValueSemantics : Obligations.AddMeetsTheValueSemantics :=
  fun t n => ⟨addTrits_eq_balanced t n, eq_sub_of_add_eq' (tritsVal_addTrits t n)⟩

/-! ### Laws of the arithmetic -/

/-- An increment adds one, or rolls a sequence of 1 digits over and drops 3^L. -/
theorem pow_dvd_tritsVal_incrementTrits_sub (t : List Trit) :
    (3 : Int) ^ t.length ∣ tritsVal (incrementTrits t) - (tritsVal t + 1) := by
  fun_induction incrementTrits t with
  | case1 => simp
  | case2 ts ih =>
    obtain ⟨q, hq⟩ := ih
    refine ⟨q, ?_⟩
    simp only [tritsVal_cons, Trit.toInt, List.length_cons, pow_succ]
    linarith
  | case3 ts => simp [Trit.toInt, add_comm]
  | case4 ts => simp [Trit.toInt]

theorem incrementTrits_eq_balanced (t : List Trit) : incrementTrits t = balanced t.length (tritsVal t + 1) :=
  (eq_balanced_iff _ _ _ (incrementTrits_length t)).mpr (pow_dvd_tritsVal_incrementTrits_sub t)

/-- A sum modulo 3^len may be reduced to len trits on the way. -/
theorem balanced_tritsVal_balanced_add (len : Nat) (v k : Int) :
    balanced len (tritsVal (balanced len v) + k) = balanced len (v + k) := by
  refine (eq_balanced_iff len _ _ (balanced_length len _)).mpr ?_
  obtain ⟨q, hq⟩ := pow_dvd_tritsVal_balanced_sub len (tritsVal (balanced len v) + k)
  obtain ⟨r, hr⟩ := pow_dvd_tritsVal_balanced_sub len v
  exact ⟨q + r, by linarith⟩

theorem addTrits_balanced (len : Nat) (v : Int) (n : Nat) : (addTrits (balanced len v) n).1 = balanced len (v + n) := by
  rw [addTrits_eq_balanced, balanced_length, balanced_tritsVal_balanced_add]

theorem incrementTrits_balanced (len : Nat) (v : Int) : incrementTrits (balanced len v) = balanced len (v + 1) := by
  rw [incrementTrits_eq_balanced, balanced_length, balanced_tritsVal_balanced_add]

theorem iterate_incrementTrits_balanced (len : Nat) (v : Int) (i : Nat) :
    iterate incrementTrits i (balanced len v) = balanced len (v + i) := by
  induction i with
  | zero => simp [iterate]
  | succ i ih => rw [iterate_succ, ih, incrementTrits_balanced, Nat.cast_succ, add_assoc]

/-- Settles O17: every result is `balanced` of a sum, and `balanced` carries on from `balanced`. -/
theorem arithmeticLaws : Obligations.ArithmeticLaws :=
  ⟨fun t => (incrementTrits_eq_balanced t).trans (addTrits_eq_balanced t 1).symm,
    fun t m n => by rw [addTrits_eq_balanced t m, addTrits_balanced],
    fun t o i => by rw [addTrits_eq_balanced t o, iterate_incrementTrits_balanced]⟩

end Sys2Proof.Machine

/-! The sponge (`42_sponge.md`): the index pattern of a round, uniform states, the chunks that TX is absorbed in, and the
five commands on the scalar state. -/

namespace Sys2Proof.Machine

open Sys2Proof

/-! ### The round along the walk -/

section Round

variable {α : Type}

theorem getElem?_interleave_even {xs ys : List α} {k : Nat} (hx : k < xs.length) (hy : k ≤ ys.length) :
    (interleave xs ys)[2 * k]? = xs[k]? := by
  fun_induction interleave xs ys generalizing k with
  | case1 => simp at hx
  | case2 x xs => simp [show k = 0 by simpa using hy]
  | case3 x xs y ys ih =>
    cases k with
    | zero => rfl
    | succ k => simpa [Nat.mul_succ] using ih (by simpa using hx) (by simpa using hy)

theorem getElem?_interleave_odd {xs ys : List α} {k : Nat} (hx : k < xs.length) (hy : k < ys.length) :
    (interleave xs ys)[2 * k + 1]? = ys[k]? := by
  fun_induction interleave xs ys generalizing k with
  | case1 => simp at hx
  | case2 x xs => simp at hy
  | case3 x xs y ys ih =>
    cases k with
    | zero => rfl
    | succ k => simpa [Nat.mul_succ] using ih (by simpa using hx) (by simpa using hy)

/-- The even places of the walk are the positions 364 down to 0. -/
theorem getElem?_walk_even (s : Vector α 729) {k p : Nat} (h : p + k = 364) :
    (walk s.toList)[2 * k]? = some s[p] := by
  rw [walk, getElem?_interleave_even (by simp; omega) (by simp; omega)]
  simp [show k < 365 by omega, show 364 - k = p by omega]

/-- The odd places of the walk are the positions 728 down to 365. -/
theorem getElem?_walk_odd (s : Vector α 729) {k p : Nat} (hk : k < 364) (h : p + k = 728) :
    (walk s.toList)[2 * k + 1]? = some s[p] := by
  rw [walk, getElem?_interleave_odd (by simp; omega) (by simp; omega)]
  simp [hk, show 365 + (363 - k) = p by omega]

/-- An element of a round mixes two neighbours of the walk, which starts at position 0. -/
theorem getElem_roundWith (f : α → α → α) (s : Vector α 729) {j : Nat} (hj : j < 729) {x y : α}
    (hx : (s.toList.take 1 ++ walk s.toList)[j]? = some x) (hy : (walk s.toList)[j]? = some y) :
    (roundWith f s : Vector α 729)[j] = f x y := by
  have hlist : (roundWith f s).toList[j]? = some (f x y) := by
    rw [roundWith_toList, roundList, List.getElem?_zipWith, hx, hy]
  rw [Vector.getElem?_toList] at hlist
  exact (Vector.getElem?_eq_some_iff.mp hlist).2

theorem getElem?_take_one_append_zero (s : Vector α 729) (l : List α) : (s.toList.take 1 ++ l)[0]? = some s[0] := by
  simp

theorem getElem?_take_one_append_succ (s : Vector α 729) (l : List α) (j : Nat) :
    (s.toList.take 1 ++ l)[j + 1]? = l[j]? := by
  rw [List.getElem?_append_right (by simp)]
  simp

/-- The index pattern of a round (`42_sponge.md` R141), over trits and words alike. -/
theorem roundWith_index_pattern (f : α → α → α) (s : Vector α 729) :
    let new : Vector α 729 := roundWith f s
    new[0] = f s[0] s[364] ∧
    ∀ (i : Nat) (h : i < 364),
      new[2 * i + 1] = f s[364 - i] s[728 - i] ∧ new[2 * i + 2] = f s[728 - i] s[363 - i] := by
  refine ⟨getElem_roundWith f s _ (getElem?_take_one_append_zero s _) (getElem?_walk_even s (k := 0) rfl),
    fun i h => ⟨?_, ?_⟩⟩
  · exact getElem_roundWith f s _ ((getElem?_take_one_append_succ s _ _).trans (getElem?_walk_even s (by omega)))
      (getElem?_walk_odd s h (by omega))
  · exact getElem_roundWith f s _ ((getElem?_take_one_append_succ s _ _).trans (getElem?_walk_odd s h (by omega)))
      (getElem?_walk_even s (k := i + 1) (by omega))

theorem iterate_eq_iterate (f : α → α) (n : Nat) (a : α) : iterate f n a = f^[n] a := by
  induction n generalizing a with
  | zero => rfl
  | succ n ih => exact ih (f a)

end Round

/-- Settles O19: both rounds are `roundWith` of their mixing function. -/
theorem roundIndexPattern : Obligations.RoundIndexPattern :=
  ⟨roundWith_index_pattern mixTrit, fun W => roundWith_index_pattern (mixWord W),
    iterate_eq_iterate spongeRound Config.rounds, fun W => iterate_eq_iterate (slicedRound W) Config.rounds⟩

/-- Settles O18: the nine entries. -/
theorem mixIsTheTruthTable : Obligations.MixIsTheTruthTable := by
  intro x y
  cases x <;> cases y <;> rfl

/-! ### Uniform states and the input slot -/

/-- T(t, t) runs through the three trits in turn, and 27 rounds are nine such turns (`42_sponge.md` R143). -/
theorem permute_replicate (t : Trit) : permute (Vector.replicate 729 t) = Vector.replicate 729 t := by
  have turns : iterate (fun b => mixTrit b b) Config.rounds t = t := by cases t <;> rfl
  exact (permuteWith_replicate mixTrit t).trans (congrArg _ turns)

theorem tritsToSymbols_replicate_zero (n : Nat) :
    tritsToSymbols (List.replicate (3 * n) .zero) = List.replicate n 0 := by
  rw [← symbolsToTrits_replicate, tritsToSymbols_symbolsToTrits]

theorem finalize_zeroSponge : finalize zeroSponge = List.replicate 81 0 := by
  rw [finalize, digestTrits, zeroSponge, Vector.toList_replicate, List.take_replicate]
  exact tritsToSymbols_replicate_zero 81

theorem hashSymbols_replicate_zero (n : Nat) : hashSymbols (List.replicate n 0) = List.replicate 81 0 := by
  rw [hashSymbols, symbolsToTrits_replicate, tritChunks_replicate, absorb_zeroSponge, finalize_zeroSponge]

/-- Settles O20: zero chunks keep the zero state, and its digest is all `9`. -/
theorem uniformStatesAreFixed : Obligations.UniformStatesAreFixed :=
  ⟨permute_replicate, fun k _ => hashSymbols_replicate_zero (81 * k)⟩

/-- What the slot held is not part of the result (`42_sponge.md` R144). -/
theorem overwriteSlot_congr {α : Type} {s s' : Vector α Config.stateLen} (t : Vector α Config.hashLen)
    (h : s.toList.drop Config.hashLen = s'.toList.drop Config.hashLen) : overwriteSlot s t = overwriteSlot s' t := by
  rw [← Vector.toList_inj, overwriteSlot_toList, overwriteSlot_toList, h]

/-- Settles O21: the first chunk already meets equal states. -/
theorem absorbOverwritesTheInputSlot : Obligations.AbsorbOverwritesTheInputSlot := by
  intro s s' t ts h
  rw [absorb_cons, absorb_cons, absorbChunk, absorbChunk, overwriteSlot_congr t h]

/-! ### The chunks of TX -/

theorem txCells_append (tx : List Host.Cell) (j m n : Nat) :
    txCells tx j (m + n) = txCells tx j m ++ txCells tx (j + m) n := by
  simp [txCells_eq, List.range_add, Nat.add_assoc]

theorem cellsToTrits_append (a b : List Byte) : cellsToTrits (a ++ b) = cellsToTrits a ++ cellsToTrits b := by
  simp [cellsToTrits, symbolsToTrits]

theorem cellsToTrits_length (cells : List Byte) : (cellsToTrits cells).length = 3 * cells.length := by
  rw [cellsToTrits, symbolsToTrits_length, List.length_map]

/-- What stands behind the first n elements is cut. -/
theorem fitLength_append {α : Type} {n : Nat} (fill : α) {a : List α} (b : List α) (h : a.length = n) :
    fitLength n fill (a ++ b) = fitLength n fill a := by
  subst h
  simp [fitLength]

/-- Chunk c of the trits of the first len cells is the field of TX at cell 81·c. -/
theorem fitLength_drop_cellsToTrits (tx : List Host.Cell) {len c : Nat} (h : 81 * c + 81 ≤ len) :
    fitLength Config.hashLen .zero ((cellsToTrits (txCells tx 0 len)).drop (Config.hashLen * c)) =
      txField tx (81 * c) := by
  obtain ⟨r, rfl⟩ := Nat.exists_eq_add_of_le h
  have hbefore : (cellsToTrits (txCells tx 0 (81 * c))).length = Config.hashLen * c := by
    rw [cellsToTrits_length, txCells_length, ← Nat.mul_assoc]
  have hchunk : (cellsToTrits (txCells tx (81 * c) 81)).length = Config.hashLen := by
    rw [cellsToTrits_length, txCells_length]
  rw [Nat.add_assoc, txCells_append, Nat.zero_add, txCells_append, cellsToTrits_append, cellsToTrits_append,
    List.drop_left' hbefore, fitLength_append _ _ hchunk, txField]

/-- The chunks that the absorbing commands take are those of the trits of the first len cells. -/
theorem txChunks_eq (tx : List Host.Cell) (len : Nat) :
    txChunks tx len = tritChunks (len / 81) (cellsToTrits (txCells tx 0 len)) := by
  refine List.map_congr_left fun c hc => (fitLength_drop_cellsToTrits tx ?_).symm
  have : c < len / 81 := List.mem_range.mp hc
  omega

/-- The symbols of the first len cells, one by one. -/
theorem map_symbolOf_txCells (s : State) (len : Nat) :
    (txCells s.tx 0 len).map symbolOf = (List.range len).map fun j => symbolOf (s.txCell j) := by
  simp [txCells_eq, txCell_eq]

theorem txChunks_eq_tritChunks (s : State) (len : Nat) :
    txChunks s.tx len =
      tritChunks (len / 81) (symbolsToTrits ((List.range len).map fun j => symbolOf (s.txCell j))) := by
  rw [txChunks_eq, cellsToTrits, map_symbolOf_txCells]

/-- The hash of the first len cells, by their symbols (`42_sponge.md` R146). -/
theorem finalize_absorb_txChunks (s : State) (len : Nat) :
    finalize (absorb zeroSponge (txChunks s.tx len)) =
      hashSymbols ((List.range len).map fun j => symbolOf (s.txCell j)) := by
  rw [txChunks_eq_tritChunks, hashSymbols, List.length_map, List.length_range]

/-! ### The commands on the scalar state

Each command past its latch and its checks. -/

section Commands

variable {s : State} (live : s.err = false) (idle : s.phase ≠ .searching)
include live idle

theorem exec_sClear : exec .sClear s = .next { s with sponge := zeroSponge } := by
  rw [exec, execSClear, unlessLatched_live _ _ live, checkBusy_pass _ _ _ idle]

theorem exec_sPermute : exec .sPermute s = .next { s with sponge := permute s.sponge } := by
  rw [exec, execSPermute, unlessLatched_live _ _ live, checkBusy_pass _ _ _ idle]

theorem exec_sFinalize : exec .sFinalize s = .next { s with digest := digestCells s.sponge } := by
  rw [exec, execSFinalize, unlessLatched_live _ _ live, checkBusy_pass _ _ _ idle]

variable {len : Nat} (hlen : lengthAccepted len = true) (hcells : CellsValid s len)
include hlen hcells

theorem exec_sAbsorb :
    exec (.sAbsorb len) s = .next { s with sponge := absorb s.sponge (txChunks s.tx len) } := by
  rw [exec, execSAbsorb, unlessLatched_live _ _ live, checkBusy_pass _ _ _ idle,
    checkLength_pass _ _ _ _ hlen, checkSymbols_pass _ _ _ _ ((lowestBadCell_none s.tx len).mpr hcells)]

theorem exec_hash :
    exec (.hash len) s = .next { s with
      sponge := absorb zeroSponge (txChunks s.tx len)
      digest := digestCells (absorb zeroSponge (txChunks s.tx len)) } := by
  rw [exec, execHash, unlessLatched_live _ _ live, checkBusy_pass _ _ _ idle,
    checkLength_pass _ _ _ _ hlen, checkSymbols_pass _ _ _ _ ((lowestBadCell_none s.tx len).mpr hcells)]

end Commands

/-- Settles O38: the three commands past their checks. -/
theorem scalarStateCommands : Obligations.ScalarStateCommands := fun s live idle =>
  ⟨exec_sClear live idle, exec_sPermute live idle, _, exec_sFinalize live idle, rfl, digestCells_toList s.sponge⟩

/-- Settles O39: the fields that S_ABSORB reads are the chunks of the trits of its cells. -/
theorem sAbsorbResult : Obligations.SAbsorbResult := by
  intro s len live idle hpos hmod hle hcells
  rw [exec_sAbsorb live idle ((lengthAccepted_iff len).mpr ⟨hpos, hmod, hle⟩) hcells, txChunks_eq_tritChunks]

/-- Settles O40: S_CLEAR and S_ABSORB leave the state that HASH computes, and keep the phase, ERR and TX that the checks
look at. -/
theorem hashResult : Obligations.HashResult := by
  intro s len live idle hpos hmod hle hcells
  have hlen : lengthAccepted len = true := (lengthAccepted_iff len).mpr ⟨hpos, hmod, hle⟩
  have hdigest : (digestCells (absorb zeroSponge (txChunks s.tx len))).toList =
      (hashSymbols ((List.range len).map fun j => symbolOf (s.txCell j))).map symbolCode := by
    rw [digestCells_toList, finalize_absorb_txChunks]
  refine ⟨{ s with sponge := zeroSponge }, { s with sponge := absorb zeroSponge (txChunks s.tx len) }, _,
    exec_hash live idle hlen hcells, rfl, hdigest, exec_sClear live idle, ?_, ?_⟩
  · exact exec_sAbsorb (s := { s with sponge := zeroSponge }) live idle hlen hcells
  · exact exec_sFinalize (s := { s with sponge := absorb zeroSponge (txChunks s.tx len) }) live idle

end Sys2Proof.Machine

/-! The bit-sliced permutation (`43_bitsliced.md`): the lane laws of setlane, bc, c and Tbs, and the simulation of the
scalar permutation by each lane. Lane i of a sliced round is the round of `laneCodeT` over the codes of lane i, whatever
the width, and the scalar round is the same round over the codes of its trits. -/

namespace Sys2Proof.Machine

open Sys2Proof

/-! ### Lane codes -/

theorem laneTrit_eq_some_iff {c : Nat} {t : Trit} : laneTrit c = some t ↔ c = laneCode t := by
  refine ⟨fun h => ?_, fun h => h ▸ laneTrit_laneCode t⟩
  unfold laneTrit at h
  split at h <;> cases h <;> rfl

/-- On the codes of trits, Tbs is T (`43_bitsliced.md` R177). -/
theorem laneCodeT_laneCode (a b : Trit) : laneCodeT (laneCode a) (laneCode b) = laneCode (mixTrit a b) := by
  simp only [laneCodeT, laneTrit_laneCode]

/-- bc(-1) sets every bit of the word (`43_bitsliced.md` R173). -/
theorem broadcast_neg {W : Nat} (heven : W % 2 = 0) : broadcast W .neg = 2 ^ W - 1 := by
  refine Nat.eq_of_testBit_eq fun b => ?_
  rw [testBit_broadcast heven, Nat.testBit_two_pow_sub_one]
  obtain h | h := Nat.mod_two_eq_zero_or_one b <;> rw [h] <;> exact Bool.and_true _

/-- Settles O23: the written lane and the others are the two branches of one lane law. -/
theorem setLaneReplacesOneLane : Obligations.SetLaneReplacesOneLane := fun _ _ i t _ hw hi =>
  ⟨setLane_lt hw i t, (laneOf_setLane t hi hi).trans (if_pos rfl),
    fun _ hk hne => (laneOf_setLane t hi hk).trans (if_neg hne)⟩

/-- Settles O24: the masks are the broadcast of 0 and of 1, and every bit of bc(-1) is set. -/
theorem broadcastFillsEveryLane : Obligations.BroadcastFillsEveryLane := fun W heven =>
  ⟨fun t => ⟨rfl, (broadcast_valid W t).1, fun _ => laneOf_broadcast t⟩,
    (lowMask_eq_broadcast W).symm, (highMask_eq_broadcast W).symm, broadcast_neg heven⟩

/-- Settles O25: the lane laws of c and of Tbs. -/
theorem lanesAreIndependent : Obligations.LanesAreIndependent := fun _ _ x _ _ _ hy hi =>
  ⟨laneOf_mixC x hi, laneOf_mixWord x hy hi⟩

/-- Settles O27: Tbs keeps valid words, so a round and a permutation do. -/
theorem laneCodesStayValid : Obligations.LaneCodesStayValid := fun W _ =>
  ⟨fun _ h => ⟨slicedRound_valid h, slicedPermute_valid h⟩, fun _ _ => mixWord_valid,
    fun _ _ t hw hi => setLane_valid hw hi t, broadcast_valid W⟩

/-! ### Rounds under a map -/

section MapRound

variable {α β : Type}

/-- An element of a round mixes two positions of the old state that depend on the element alone. -/
theorem exists_getElem_roundWith {k : Nat} (hk : k < 729) :
    ∃ p q : Fin 729, ∀ {α : Type} (f : α → α → α) (s : Vector α 729),
      (roundWith f s : Vector α 729)[k] = f s[p] s[q] := by
  have hcases : k = 0 ∨ ∃ i < 364, k = 2 * i + 1 ∨ k = 2 * i + 2 := by
    by_cases h0 : k = 0
    · exact .inl h0
    · exact .inr ⟨(k - 1) / 2, by omega, by omega⟩
  obtain rfl | ⟨i, hi, rfl | rfl⟩ := hcases
  · exact ⟨0, 364, fun f s => (roundWith_index_pattern f s).1⟩
  · exact ⟨⟨364 - i, by omega⟩, ⟨728 - i, by omega⟩, fun f s => ((roundWith_index_pattern f s).2 i hi).1⟩
  · exact ⟨⟨728 - i, by omega⟩, ⟨363 - i, by omega⟩, fun f s => ((roundWith_index_pattern f s).2 i hi).2⟩

variable {P : α → Prop} {f : α → α → α} {f' : β → β → β} {g : α → β}

/-- A map that takes f to f' takes a round of f to a round of f'. -/
theorem map_roundWith (hg : ∀ x y, P x → P y → g (f x y) = f' (g x) (g y)) {s : Vector α Config.stateLen}
    (hs : ∀ x ∈ s.toList, P x) : (roundWith f s).map g = roundWith f' (s.map g) := by
  have hP (p : Fin 729) : P s[p] := hs _ (Vector.mem_toList_iff.mpr (Vector.getElem_mem p.isLt))
  refine Vector.ext fun k hk => ?_
  obtain ⟨p, q, hround⟩ := exists_getElem_roundWith hk
  calc ((roundWith f s).map g)[k]
      = g (roundWith f s)[k] := Vector.getElem_map g hk
    _ = g (f s[p] s[q]) := congrArg g (hround f s)
    _ = f' (g s[p]) (g s[q]) := hg _ _ (hP p) (hP q)
    _ = f' (s.map g)[p] (s.map g)[q] := by simp
    _ = (roundWith f' (s.map g))[k] := (hround f' (s.map g)).symm

/-- A map that takes f to f' takes the permutation by f to the permutation by f'. -/
theorem map_permuteWith (hf : ∀ x y, P x → P y → P (f x y))
    (hg : ∀ x y, P x → P y → g (f x y) = f' (g x) (g y)) {s : Vector α Config.stateLen}
    (hs : ∀ x ∈ s.toList, P x) : (permuteWith f s).map g = permuteWith f' (s.map g) := by
  rw [permuteWith, permuteWith]
  induction Config.rounds generalizing s with
  | zero => rfl
  | succ n ih => rw [iterate, iterate, ih (forall_mem_roundWith hf hs), map_roundWith hg hs]

end MapRound

/-! ### The scalar permutation over lane codes -/

theorem map_laneCode_spongeRound (s : Vector Trit Config.stateLen) :
    (spongeRound s).map laneCode = roundWith laneCodeT (s.map laneCode) :=
  map_roundWith (P := fun _ => True) (fun x y _ _ => (laneCodeT_laneCode x y).symm) fun _ _ => trivial

theorem map_laneCode_permute (s : Vector Trit Config.stateLen) :
    (permute s).map laneCode = permuteWith laneCodeT (s.map laneCode) :=
  map_permuteWith (P := fun _ => True) (fun _ _ _ _ => trivial) (fun x y _ _ => (laneCodeT_laneCode x y).symm)
    fun _ _ => trivial

/-! ### One lane of the sliced permutation -/

section Lane

variable {W i : Nat} {ws : Vector LaneWord Config.stateLen}

/-- Lane i of a round is the round of the per-lane function over lane i (`43_bitsliced.md` R178, R179). -/
theorem map_laneOf_slicedRound (hi : i < W / 2) (hws : WordsBounded W ws) :
    (slicedRound W ws).map (laneOf · i) = roundWith laneCodeT (ws.map (laneOf · i)) :=
  map_roundWith (fun x _ _ hy => laneOf_mixWord x hy hi) hws

/-- Lane i of the permutation is the permutation by the per-lane function over lane i (`43_bitsliced.md` R178, R180). -/
theorem map_laneOf_slicedPermute (hi : i < W / 2) (hws : WordsBounded W ws) :
    (slicedPermute W ws).map (laneOf · i) = permuteWith laneCodeT (ws.map (laneOf · i)) :=
  map_permuteWith (fun x y _ _ => mixWord_lt W x y) (fun x _ _ hy => laneOf_mixWord x hy hi) hws

/-- A lane holds a scalar state when its codes are those of the trits (`43_bitsliced.md` R171). -/
theorem laneHolds_iff {s : Vector Trit Config.stateLen} :
    LaneHolds i ws s ↔ ws.map (laneOf · i) = s.map laneCode := by
  simp only [LaneHolds, projectLane, Vector.ext_iff, Vector.getElem_map, laneTritOf, laneTrit_eq_some_iff]

variable {s : Vector Trit Config.stateLen} (hi : i < W / 2) (hws : WordsBounded W ws) (h : LaneHolds i ws s)
include hi hws h

theorem laneHolds_slicedRound : LaneHolds i (slicedRound W ws) (spongeRound s) := by
  rw [laneHolds_iff] at h ⊢
  rw [map_laneOf_slicedRound hi hws, h, map_laneCode_spongeRound]

theorem laneHolds_slicedPermute : LaneHolds i (slicedPermute W ws) (permute s) := by
  rw [laneHolds_iff] at h ⊢
  rw [map_laneOf_slicedPermute hi hws, h, map_laneCode_permute]

end Lane

/-- Settles O26: the lane and the scalar state meet in the permutation over lane codes. -/
theorem slicedPermutationMatchesTheScalarOne : Obligations.SlicedPermutationMatchesTheScalarOne :=
  fun _ _ _ _ _ hi hws h => ⟨laneHolds_slicedRound hi hws h, laneHolds_slicedPermute hi hws h⟩

/-- Settles O28: neither width is left in the permutation over the codes of a lane. -/
theorem widthIndependence : Obligations.WidthIndependence := by
  intro W W' L ws ws' _ _ hW hW' hws hws' hlanes i hi
  have hiW : i < W / 2 := by omega
  have hiW' : i < W' / 2 := by omega
  rw [map_laneOf_slicedRound hiW hws, map_laneOf_slicedRound hiW' hws', map_laneOf_slicedPermute hiW hws,
    map_laneOf_slicedPermute hiW' hws', hlanes i hi]
  exact ⟨rfl, rfl⟩

end Sys2Proof.Machine

/-! A batch of the search (`44_pow.md` R203 to R206): the candidates are `balanced` of consecutive sums, lane i of the
batch is the scalar absorb of candidate i, and that absorb ends the hash of the transaction with candidate i. -/

namespace Sys2Proof.Machine

open Sys2Proof

/-! ### Candidates -/

theorem candidateAt_toList (nonce : Vector Trit Config.hashLen) (o : Nat) :
    (candidateAt nonce o).toList = balanced Config.hashLen (tritsVal nonce.toList + o) :=
  fitLength_toList _ _ _ (balanced_length _ _)

theorem addField_eq_candidateAt (nonce : Vector Trit Config.hashLen) (o : Nat) :
    addField nonce o = candidateAt nonce o := by
  rw [← Vector.toList_inj, addField_toList, candidateAt_toList, addTrits_eq_balanced, Vector.length_toList]

theorem incrementField_candidateAt (nonce : Vector Trit Config.hashLen) (o : Nat) :
    incrementField (candidateAt nonce o) = candidateAt nonce (o + 1) := by
  rw [← Vector.toList_inj, incrementField_toList, candidateAt_toList, candidateAt_toList, incrementTrits_balanced,
    Nat.cast_succ, add_assoc]

theorem candidateRun_candidateAt (n : Nat) (nonce : Vector Trit Config.hashLen) (o : Nat) :
    candidateRun n (candidateAt nonce o) = (List.range n).map fun i => candidateAt nonce (o + i) := by
  induction n generalizing o with
  | zero => rfl
  | succ n ih =>
    rw [candidateRun, incrementField_candidateAt, ih, List.range_succ_eq_map, List.map_cons, List.map_map]
    simp [Function.comp_def, Nat.add_assoc, Nat.add_comm 1]

/-- The candidates of a batch, by their absolute offsets (`44_pow.md` R204). -/
theorem candidates_eq (lanes : Nat) (nonce : Vector Trit Config.hashLen) (o : Nat) :
    candidates lanes nonce o = (List.range lanes).map fun i => candidateAt nonce (o + i) := by
  rw [candidates, addField_eq_candidateAt, candidateRun_candidateAt]

theorem getElem?_candidates {lanes i : Nat} (hi : i < lanes) (nonce : Vector Trit Config.hashLen) (o : Nat) :
    (candidates lanes nonce o)[i]? = some (candidateAt nonce (o + i)) := by
  simp [candidates_eq, hi]

/-- Settles O29: adding o and then i ones is `balanced` of the sum. -/
theorem candidateLaw : Obligations.CandidateLaw := fun lanes nonce o i hi =>
  ⟨getElem?_candidates hi nonce o, by
    rw [candidateAt_toList, Nat.cast_add, add_assoc]⟩

/-! ### Seeding the lanes -/

theorem map_overwriteSlot {α β : Type} (g : α → β) (s : Vector α Config.stateLen)
    (t : Vector α Config.hashLen) : (overwriteSlot s t).map g = overwriteSlot (s.map g) (t.map g) := by
  rw [← Vector.toList_inj, Vector.toList_map, overwriteSlot_toList, overwriteSlot_toList, Vector.toList_map,
    Vector.toList_map, List.map_append, List.map_drop]

theorem overwriteSlot_overwriteSlot {α : Type} (s : Vector α Config.stateLen) (t u : Vector α Config.hashLen) :
    overwriteSlot (overwriteSlot s t) u = overwriteSlot s u :=
  overwriteSlot_congr u (by rw [overwriteSlot_toList, List.drop_left' Vector.length_toList])

section Seeding

variable {W i k : Nat}

theorem map_laneOf_writeLane_same (hi : i < W / 2) (ws : List LaneWord) (ts : List Trit)
    (hlen : ts.length ≤ ws.length) :
    (writeLane W i ws ts).map (laneOf · i) = ts.map laneCode ++ (ws.map (laneOf · i)).drop ts.length := by
  fun_induction writeLane W i ws ts with
  | case1 ts => simp_all
  | case2 w ws => simp
  | case3 w ws t ts ih => simp [laneOf_setLane t hi hi, ih (by simpa using hlen)]

theorem map_laneOf_writeLane_other (hi : i < W / 2) (hk : k < W / 2) (hne : k ≠ i) (ws : List LaneWord)
    (ts : List Trit) : (writeLane W i ws ts).map (laneOf · k) = ws.map (laneOf · k) := by
  fun_induction writeLane W i ws ts with
  | case1 ts => rfl
  | case2 w ws => rfl
  | case3 w ws t ts ih => simp [laneOf_setLane t hi hk, hne, ih]

variable {ws : Vector LaneWord Config.stateLen}

/-- The seeded lane holds the candidate in its input slot and keeps its upper state (`44_pow.md` R205). -/
theorem map_laneOf_seedLane_same (hi : i < W / 2) (t : Vector Trit Config.hashLen) :
    (seedLane W i ws t).map (laneOf · i) = overwriteSlot (ws.map (laneOf · i)) (t.map laneCode) := by
  rw [← Vector.toList_inj, Vector.toList_map, seedLane_toList,
    map_laneOf_writeLane_same hi _ _ (by simp [Config.hashLen, Config.stateLen]), overwriteSlot_toList,
    Vector.toList_map, Vector.toList_map, Vector.length_toList]

theorem map_laneOf_seedLane_other (hi : i < W / 2) (hk : k < W / 2) (hne : k ≠ i) (t : Vector Trit Config.hashLen) :
    (seedLane W i ws t).map (laneOf · k) = ws.map (laneOf · k) := by
  rw [← Vector.toList_inj, Vector.toList_map, seedLane_toList, map_laneOf_writeLane_other hi hk hne,
    Vector.toList_map]

theorem map_laneOf_seedLanes_below (ts : List (Vector Trit Config.hashLen)) (hfit : i + ts.length ≤ W / 2)
    (hk : k < i) : (seedLanes W i ws ts).map (laneOf · k) = ws.map (laneOf · k) := by
  induction ts generalizing i ws with
  | nil => rfl
  | cons t ts ih =>
    rw [List.length_cons] at hfit
    rw [seedLanes, ih (by omega) (by omega), map_laneOf_seedLane_other (by omega) (by omega) (by omega)]

/-- Seeding from lane i on puts candidate n into lane i + n: later seeds leave it, and earlier ones have not touched
it. -/
theorem map_laneOf_seedLanes (ts : List (Vector Trit Config.hashLen)) (hfit : i + ts.length ≤ W / 2) {n : Nat}
    {t : Vector Trit Config.hashLen} (ht : ts[n]? = some t) :
    (seedLanes W i ws ts).map (laneOf · (i + n)) = overwriteSlot (ws.map (laneOf · (i + n))) (t.map laneCode) := by
  induction ts generalizing i ws n with
  | nil => simp at ht
  | cons t' ts ih =>
    rw [List.length_cons] at hfit
    rw [seedLanes]
    cases n with
    | zero =>
      obtain rfl : t' = t := by simpa using ht
      rw [map_laneOf_seedLanes_below ts (by omega) (by omega), Nat.add_zero, map_laneOf_seedLane_same (by omega)]
    | succ n =>
      rw [List.getElem?_cons_succ] at ht
      have hn : n < ts.length := (List.getElem?_eq_some_iff.mp ht).1
      rw [show i + (n + 1) = i + 1 + n by omega, ih (by omega) ht,
        map_laneOf_seedLane_other (by omega) (by omega) (by omega)]

end Seeding

/-! ### One lane of a batch -/

theorem WordsValid.bounded {W : Nat} {ws : Vector LaneWord Config.stateLen} (h : WordsValid W ws) :
    WordsBounded W ws := fun w hw => (h w hw).1

section BatchLane

variable {W i : Nat} {ws : Vector LaneWord Config.stateLen} {s : Vector Trit Config.stateLen}

theorem map_laneOf_map_broadcast {n : Nat} (hi : i < W / 2) (t : Vector Trit n) :
    (t.map (broadcast W)).map (laneOf · i) = t.map laneCode := by
  simp [Function.comp_def, laneOf_broadcast _ hi]

/-- Every lane of the mid-state holds the scalar state, its input slot cleared (`44_pow.md` R202). -/
theorem laneHolds_midState (hi : i < W / 2) (s : Vector Trit Config.stateLen) :
    LaneHolds i (midState W s) (overwriteSlot s (Vector.replicate Config.hashLen .zero)) := by
  rw [laneHolds_iff, midState, ← Vector.map_replicate, map_overwriteSlot, map_overwriteSlot,
    map_laneOf_map_broadcast hi, map_laneOf_map_broadcast hi]

/-- Absorbing a field that is the same in every lane is absorbing it in each (`44_pow.md` R205). -/
theorem laneHolds_slicedAbsorb (hi : i < W / 2) (hws : WordsValid W ws) (h : LaneHolds i ws s)
    (t : Vector Trit Config.hashLen) : LaneHolds i (slicedAbsorb W ws t) (absorbChunk s t) := by
  refine laneHolds_slicedPermute hi (WordsValid.bounded (forall_mem_overwriteSlot hws (map_broadcast_valid t))) ?_
  rw [laneHolds_iff] at h ⊢
  rw [map_overwriteSlot, map_overwriteSlot, h, map_laneOf_map_broadcast hi]

end BatchLane

theorem length_candidates (lanes : Nat) (nonce : Vector Trit Config.hashLen) (o : Nat) :
    (candidates lanes nonce o).length = lanes := candidateRun_length lanes _

/-- Lane i of the seeded mid-state holds candidate i under the upper state of the header (`44_pow.md` R205). -/
theorem laneHolds_seedLanes (p : Params) (header : Vector Trit Config.stateLen) (nonce : Vector Trit Config.hashLen)
    (o : Nat) {i : Nat} (hi : i < p.lanes) :
    LaneHolds i (seedLanes p.wordBits 0 (midState p.wordBits header) (candidates p.lanes nonce o))
      (overwriteSlot header (candidateAt nonce (o + i))) := by
  have hlanes := p.lanes_le
  have hmid := laneHolds_iff.mp (laneHolds_midState (W := p.wordBits) (hi.trans_le hlanes) header)
  have hseed := map_laneOf_seedLanes (W := p.wordBits) (i := 0) (ws := midState p.wordBits header)
    (candidates p.lanes nonce o) (by rwa [length_candidates, Nat.zero_add]) (getElem?_candidates hi nonce o)
  rw [Nat.zero_add, hmid, ← map_overwriteSlot, overwriteSlot_overwriteSlot] at hseed
  exact laneHolds_iff.mpr hseed

/-- Lane i of a batch is the scalar absorb of its candidate, trunk and branch (`44_pow.md` R214). -/
theorem laneHolds_batch (p : Params) (header : Vector Trit Config.stateLen)
    (nonce trunk branch : Vector Trit Config.hashLen) (o : Nat) {i : Nat} (hi : i < p.lanes) :
    LaneHolds i (batch p (midState p.wordBits header) nonce trunk branch o)
      (absorb header [candidateAt nonce (o + i), trunk, branch]) := by
  have hlane : i < p.wordBits / 2 := hi.trans_le p.lanes_le
  have hseeded := seedLanes_valid (candidates p.lanes nonce o) 0
    (by rw [length_candidates, Nat.zero_add]; exact p.lanes_le) (midState_valid p.wordBits header)
  have hpermuted := slicedPermute_valid hseeded
  have hcandidate := laneHolds_slicedPermute hlane hseeded.bounded (laneHolds_seedLanes p header nonce o hi)
  rw [absorb_cons, absorb_cons, absorb_cons, absorb_nil]
  exact laneHolds_slicedAbsorb hlane (slicedAbsorb_valid hpermuted trunk)
    (laneHolds_slicedAbsorb hlane hpermuted hcandidate trunk) branch

/-! ### The transaction with a candidate -/

theorem symbolsToTrits_append (a b : List SymIdx) : symbolsToTrits (a ++ b) = symbolsToTrits a ++ symbolsToTrits b :=
  List.flatMap_append

/-- The trits of the transaction are those of its header, candidate, trunk and branch (`44_pow.md` R214). -/
theorem symbolsToTrits_withCandidate (tx : List Host.Cell) (o : Nat) :
    symbolsToTrits (withCandidate tx o) = cellsToTrits (txCells tx 0 2430) ++
      ((candidateAt (txField tx 2430) o).toList ++
        (cellsToTrits (txCells tx 2511 81) ++ cellsToTrits (txCells tx 2592 81))) := by
  have hrest : txCells tx 2511 162 = txCells tx 2511 81 ++ txCells tx 2592 81 := txCells_append tx 2511 81 81
  have hcandidate : (candidateAt (txField tx 2430) o).toList.length % 3 = 0 := by
    rw [Vector.length_toList, Config.hashLen]
  rw [withCandidate, symbolsToTrits_append, symbolsToTrits_append, symbolsToTrits_tritsToSymbols _ hcandidate,
    ← cellsToTrits, ← cellsToTrits, hrest, cellsToTrits_append, List.append_assoc]

theorem withCandidate_length (tx : List Host.Cell) (o : Nat) : (withCandidate tx o).length = 2673 := by
  have hcandidate := tritsToSymbols_length (candidateAt (txField tx 2430) o).toList 81 Vector.length_toList
  simp [withCandidate, txCells_length, hcandidate]

theorem fitLength_self {α : Type} {n : Nat} (fill : α) (t : Vector α n) : fitLength n fill t.toList = t := by
  rw [← Vector.toList_inj, fitLength_toList _ _ _ Vector.length_toList]

/-- Only the first n elements of a long list are kept. -/
theorem fitLength_append_of_le {α : Type} {n : Nat} (fill : α) {a : List α} (b : List α) (h : n ≤ a.length) :
    fitLength n fill (a ++ b) = fitLength n fill a := by
  have hfill : n - (a.length + b.length) = n - a.length := by omega
  simp [fitLength, List.take_append_of_le_length h, hfill]

/-- The chunks of a sequence whose front is whole chunks. -/
theorem tritChunks_append {m : Nat} (n : Nat) {a : List Trit} (b : List Trit) (ha : a.length = Config.hashLen * m) :
    tritChunks (m + n) (a ++ b) = tritChunks m a ++ tritChunks n b := by
  rw [tritChunks, List.range_add, List.map_append, List.map_map]
  congr 1
  · refine List.map_congr_left fun c hc => ?_
    have hfront : Config.hashLen * (c + 1) ≤ a.length := ha ▸ Nat.mul_le_mul_left _ (List.mem_range.mp hc)
    rw [Nat.mul_succ] at hfront
    rw [List.drop_append_of_le_length (by omega), fitLength_append_of_le _ _ (by rw [List.length_drop]; omega)]
  · refine List.map_congr_left fun c _ => ?_
    rw [Function.comp_apply, Nat.mul_add, ← ha, List.drop_length_add_append]

theorem tritChunks_cons (n : Nat) (t : Vector Trit Config.hashLen) (b : List Trit) :
    tritChunks (1 + n) (t.toList ++ b) = t :: tritChunks n b := by
  rw [tritChunks_append n b (by rw [Vector.length_toList, Nat.mul_one])]
  exact congrArg (· :: tritChunks n b) (fitLength_self .zero t)

/-- The transaction with candidate o is absorbed as the header and its three fields (`44_pow.md` R214). -/
theorem tritChunks_withCandidate (tx : List Host.Cell) (o : Nat) :
    tritChunks 33 (symbolsToTrits (withCandidate tx o)) =
      txChunks tx Config.headerLen ++ [candidateAt (txField tx 2430) o, txField tx 2511, txField tx 2592] := by
  have hfield (j : Nat) : (txField tx j).toList = cellsToTrits (txCells tx j 81) :=
    txField_toList tx j (txCells_length ..)
  have hheader : (cellsToTrits (txCells tx 0 2430)).length = Config.hashLen * 30 := by
    rw [cellsToTrits_length, txCells_length, Config.hashLen]
  rw [symbolsToTrits_withCandidate, ← hfield, ← hfield, ← List.append_nil (txField tx 2592).toList,
    tritChunks_append 3 _ hheader, tritChunks_cons 2, tritChunks_cons 1, tritChunks_cons 0, txChunks_eq]
  rfl

/-- The absorb of a lane ends the hash of its transaction. -/
theorem absorb_header_candidate (tx : List Host.Cell) (o : Nat) :
    absorb (headerState tx) [candidateAt (txField tx 2430) o, txField tx 2511, txField tx 2592] =
      absorb zeroSponge (tritChunks 33 (symbolsToTrits (withCandidate tx o))) := by
  rw [tritChunks_withCandidate, absorb_append, headerState]

theorem hashSymbols_withCandidate (tx : List Host.Cell) (o : Nat) :
    hashSymbols (withCandidate tx o) =
      finalize (absorb zeroSponge (tritChunks 33 (symbolsToTrits (withCandidate tx o)))) := by
  rw [hashSymbols, withCandidate_length, show 2673 / Config.hashSyms = 33 from rfl]

/-! ### The difficulty check -/

theorem symbolsToTrits_finalize (s : Vector Trit Config.stateLen) : symbolsToTrits (finalize s) = digestTrits s :=
  symbolsToTrits_tritsToSymbols _ (by rw [digestTrits_length, Config.hashLen])

theorem laneCode_eq_one_iff (t : Trit) : laneCode t = 1 ↔ t = .zero := by cases t <;> decide

/-- ok_i looks at the codes of the last trits of the digest of lane i (`44_pow.md` R206). -/
theorem laneSucceeds_iff {i : Nat} {work : Vector LaneWord Config.stateLen} {s : Vector Trit Config.stateLen}
    (h : LaneHolds i work s) (m : Nat) :
    laneSucceeds work m i = true ↔ ∀ t ∈ (digestTrits s).drop (Config.hashLen - m), t = .zero := by
  have hcodes : work.toList.map (laneOf · i) = s.toList.map laneCode := by
    rw [← Vector.toList_map, laneHolds_iff.mp h, Vector.toList_map]
  calc laneSucceeds work m i = true
      ↔ ∀ c ∈ ((work.toList.map (laneOf · i)).take Config.hashLen).drop (Config.hashLen - m), c = 1 := by
        rw [← List.map_take, ← List.map_drop, List.forall_mem_map, laneSucceeds, List.all_eq_true]
        simp only [beq_iff_eq]
    _ ↔ ∀ t ∈ (digestTrits s).drop (Config.hashLen - m), t = .zero := by
        rw [hcodes, ← List.map_take, ← List.map_drop, List.forall_mem_map, digestTrits]
        simp only [laneCode_eq_one_iff]

/-- Settles O30: lane i holds the absorb of its candidate, which ends the hash of the transaction; so the codes that
ok_i looks at are the last trits of that digest. -/
theorem batchLaneIsTheScalarHash : Obligations.BatchLaneIsTheScalarHash := by
  intro p tx o m i hi header nonce work final
  have hlane : LaneHolds i work final := laneHolds_batch p header nonce (txField tx 2511) (txField tx 2592) o hi
  have hfinal : final = absorb zeroSponge (tritChunks 33 (symbolsToTrits (withCandidate tx (o + i)))) :=
    absorb_header_candidate tx (o + i)
  have hdigest : finalize final = hashSymbols (withCandidate tx (o + i)) := by
    rw [hashSymbols_withCandidate, hfinal]
  refine ⟨hlane, hfinal, hdigest, ?_⟩
  rw [laneSucceeds_iff hlane, CandidateSucceeds, ← hdigest, symbolsToTrits_finalize]

end Sys2Proof.Machine

/-! The commands of the search (`44_pow.md` R201, R209 to R213), each past its latch and its checks, and what a batch
records. -/

namespace Sys2Proof.Machine

open Sys2Proof

/-! ### A batch that fits the offset bound -/

section Batch

variable {s : State} (fits : s.offset.toNat + s.params.lanes ≤ 2 ^ 64 - 1) (cmd : HostWord)
include fits

theorem searchStep_of_winner {i : Nat} (hwin : winningLane s.params s.batchWork s.mwm.toNat = some i) :
    s.searchStep cmd = { s with
      work := s.batchWork
      winLane := BitVec.ofNat 16 i
      winOffset := BitVec.ofNat 64 (s.offset.toNat + i)
      phase := .found } := by
  have hsum : s.offset + BitVec.ofNat 64 i = BitVec.ofNat 64 (s.offset.toNat + i) := by
    rw [BitVec.ofNat_add, BitVec.ofNat_toNat, BitVec.setWidth_eq]
  rw [State.searchStep, (offsetSpent_eq_false_iff s).mpr fits, if_neg (by decide), State.recordBatch, hwin, ← hsum]

theorem searchStep_of_no_winner (hnone : winningLane s.params s.batchWork s.mwm.toNat = none) :
    s.searchStep cmd = { s with
      work := s.batchWork
      offset := BitVec.ofNat 64 (s.offset.toNat + s.params.lanes) } := by
  have hsum : s.offset + BitVec.ofNat 64 s.params.lanes = BitVec.ofNat 64 (s.offset.toNat + s.params.lanes) := by
    rw [BitVec.ofNat_add, BitVec.ofNat_toNat, BitVec.setWidth_eq]
  rw [State.searchStep, (offsetSpent_eq_false_iff s).mpr fits, if_neg (by decide), State.recordBatch, hnone, ← hsum]

end Batch

theorem toNat_ofNat_offset {n : Nat} (h : n ≤ 2 ^ 64 - 1) : (BitVec.ofNat 64 n).toNat = n :=
  Nat.mod_eq_of_lt (by omega)

/-- A lane number fits WIN_LANE (`00_scope.md` R7). -/
theorem toNat_ofNat_lane {p : Params} {i : Nat} (hi : i < p.lanes) : (BitVec.ofNat 16 i).toNat = i :=
  Nat.mod_eq_of_lt (hi.trans (lanes_lt p))

/-- Settles O31: the two outcomes of `winningLane`, and the bound keeps the sums and the lane from wrapping. -/
theorem searchStepRecordsTheLeastLane : Obligations.SearchStepRecordsTheLeastLane := by
  intro s cmd fits
  refine ⟨fun i hi hok hleast => ?_, fun hnone => ?_⟩
  · have heq := searchStep_of_winner fits cmd ((winningLane_some _ _ _ i).mpr ⟨hi, hok, hleast⟩)
    exact ⟨heq, by rw [heq]; exact toNat_ofNat_offset (by omega), by rw [heq]; exact toNat_ofNat_lane hi⟩
  · have heq := searchStep_of_no_winner fits cmd ((winningLane_none _ _ _).mpr hnone)
    exact ⟨heq, by rw [heq]; exact toNat_ofNat_offset fits⟩

/-! ### The commands past their checks -/

section Commands

variable {s : State} (live : s.err = false)
include live

theorem exec_powInit {m : Nat} (idle : s.phase ≠ .searching) (hm : 1 ≤ m ∧ m ≤ 243) (hcells : CellsValid s 2673) :
    exec (.powInit m) s = .next (s.withContext m) := by
  rw [exec, execPowInit, unlessLatched_live _ _ live, checkBusy_pass _ _ _ idle,
    checkParam_pass _ _ _ _ ((mwmAccepted_iff m).mpr hm),
    checkSymbols_pass _ _ _ _ ((lowestBadCell_none s.tx 2673).mpr hcells), State.withContext]

theorem exec_powStep_ready (ready : s.phase = .ready) :
    exec .powStep s = .next (s.searchStep (encode .powStep)) := by
  rw [exec_powStep, unlessLatched_live _ _ live, checkBusy_pass _ _ _ (by simp [ready]),
    checkSequence_pass _ _ _ _ ready]

theorem exec_powRun_ready (ready : s.phase = .ready) : exec .powRun s = .next { s with phase := .searching } := by
  rw [exec, execPowRun, unlessLatched_live _ _ live, checkBusy_pass _ _ _ (by simp [ready]),
    checkSequence_pass _ _ _ _ ready]

theorem exec_powFinal_found (found : s.phase = .found) :
    exec .powFinal s = .next { s with
      tx := Memory.writeAll s.tx (txBase + Config.nonceOff) s.winningCells
      phase := .idle } := by
  rw [exec, execPowFinal, unlessLatched_live _ _ live, checkBusy_pass _ _ _ (by simp [found]),
    checkSequence_pass _ _ _ _ found]

end Commands

/-- Settles O43: POW_RUN past its checks. -/
theorem powRunResult : Obligations.PowRunResult := fun _ live ready =>
  ⟨exec_powRun_ready live ready, (searchEnabled_iff _).mpr ⟨rfl, live⟩⟩

/-- Settles O42: POW_STEP past its checks is a search step. -/
theorem powStepResult : Obligations.PowStepResult := by
  intro s live ready fits
  refine ⟨_, exec_powStep_ready live ready, ?_⟩
  cases hwin : winningLane s.params s.batchWork s.mwm.toNat with
  | some i =>
    obtain ⟨hi, hok, hleast⟩ := (winningLane_some _ _ _ i).mp hwin
    rw [searchStep_of_winner fits _ hwin]
    exact ⟨live, rfl, .inl ⟨i, hi, hok, hleast, rfl, toNat_ofNat_lane hi, toNat_ofNat_offset (by omega)⟩⟩
  | none =>
    rw [searchStep_of_no_winner fits _ hwin]
    exact ⟨live, rfl, .inr ⟨(winningLane_none _ _ _).mp hwin, rfl, toNat_ofNat_offset fits⟩⟩

/-! ### POW_INIT -/

/-- A field of TX holds the trits of its 81 cells, one by one. -/
theorem txField_eq_symbols (s : State) (j : Nat) :
    (txField s.tx j).toList = symbolsToTrits ((List.range 81).map fun k => symbolOf (s.txCell (j + k))) := by
  rw [txField_toList s.tx j (txCells_length ..), cellsToTrits, txCells_eq, List.map_map]
  simp only [Function.comp_def, txCell_eq, Nat.add_assoc]

/-- The mid-state word by word (`44_pow.md` R202). -/
theorem getElem_midState (W : Nat) (header : Vector Trit 729) {k : Nat} (hk : k < 729) :
    (midState W header : Vector LaneWord 729)[k] =
      if k < 243 then broadcast W .zero else broadcast W header[k] := by
  have hword : (midState W header).toList[k]? =
      some (if k < 243 then broadcast W .zero else broadcast W header[k]) := by
    rw [midState, overwriteSlot_toList, Vector.toList_replicate, Vector.toList_map]
    by_cases hslot : k < 243
    · rw [List.getElem?_append_left (by simpa using hslot)]
      simp [hslot]
    · rw [List.getElem?_append_right (by simpa using hslot)]
      simp [hslot, show 243 + (k - 243) = k by omega, hk]
  rw [Vector.getElem?_toList] at hword
  exact (Vector.getElem?_eq_some_iff.mp hword).2

theorem toNat_ofNat_mwm {m : Nat} (hm : m ≤ 243) : (BitVec.ofNat 8 m).toNat = m := Nat.mod_eq_of_lt (by omega)

/-- Settles O41: POW_INIT past its checks, its fields and its mid-state written out. -/
theorem powInitResult : Obligations.PowInitResult := by
  intro s m live idle hpos hle hcells
  have hheader := congrArg (absorb zeroSponge) (txChunks_eq_tritChunks s 2430)
  rw [exec_powInit live idle ⟨hpos, hle⟩ hcells, State.withContext]
  exact ⟨_, rfl, rfl, hheader, fun k hk => getElem_midState _ _ hk, txField_eq_symbols s 2430,
    txField_eq_symbols s 2511, txField_eq_symbols s 2592, toNat_ofNat_mwm hle⟩

/-! ### POW_FINAL -/

theorem winningCells_eq (s : State) : s.winningCells =
    (tritsToSymbols (candidateAt s.nonce s.winOffset.toNat).toList).map symbolCode := by
  rw [State.winningCells, addField_eq_candidateAt, tritsToCells]

/-- The cells of the nonce field are cells of TX. -/
theorem inTxWindow_nonceCell (s : State) :
    ∀ k < s.winningCells.length, inTxWindow (txBase + Config.nonceOff + k) = true := by
  intro k hk
  rw [winningCells_length, Config.hashSyms] at hk
  exact Nat.add_assoc txBase 2430 k ▸ inTxWindow_cell (by omega)

/-- Settles O44: the cells written are one run, so the laws of such a run say what each cell then reads. -/
theorem powFinalResult : Obligations.PowFinalResult := by
  intro s live found hwf
  refine ⟨_, exec_powFinal_found live found, rfl, writeAll_winningCells_wf hwf, fun k hk => ?_,
    fun a outside => Memory.read_writeAll_other _ _ _ _ (by rwa [winningCells_length])⟩
  have hlen : k < s.winningCells.length := by rwa [winningCells_length]
  have hread := Memory.read_writeAll s.tx (txBase + Config.nonceOff) k s.winningCells (inTxWindow_nonceCell s) hwf hlen
  rw [txCell_eq, ← Nat.add_assoc, hread, ← List.getElem?_map, ← List.getElem?_eq_getElem hlen, winningCells_eq,
    candidateAt_toList]

end Sys2Proof.Machine

/-! The search as a whole (`44_pow.md` R209 to R215): what each move of a search path does, said once, and the invariant
that it keeps: OFFSET counts the offsets tested, and FOUND records the least one that succeeds. -/

namespace Sys2Proof.Machine

open Sys2Proof

/-! ### The moves of a search path -/

/-- The phases in which batches are run. -/
def Phase.Running (p : Phase) : Prop := p = .ready ∨ p = .searching

theorem Phase.Running.ne_found {p : Phase} (h : p.Running) : p ≠ .found := by
  rintro rfl
  exact h.elim (fun h => nomatch h) (fun h => nomatch h)

/-- What holds at the start of a search path, after each batch, after a move between READY and SEARCHING and after a
change of TX, holds all along it. -/
theorem SearchPath.rule {c t : State} {n : Nat} {P : State → Nat → Prop} (h : SearchPath c t n) (start : P c 0)
    (batch : ∀ t n cmd, P t n → t.phase.Running → t.err = false → P (t.searchStep cmd) (n + 1))
    (phase : ∀ t n p, P t n → t.phase.Running → p.Running → P { t with phase := p } n)
    (tx : ∀ t n tx, P t n → P (t.withTx tx) n) : P t n := by
  induction h with
  | start => exact start
  | @powStep t u n path ready live run ih =>
    rw [exec_powStep_ready live ready] at run
    exact Host.Outcome.next.inj run ▸ batch t n _ ih (.inl ready) live
  | @engine t n path enabled ih =>
    obtain ⟨searching, live⟩ := (searchEnabled_iff t).mp enabled
    exact engineTurn_enabled t enabled ▸ batch t n _ ih (.inr searching) live
  | @powRun t u n path ready run ih =>
    cases latched : t.err with
    | true =>
      rw [exec, execPowRun, unlessLatched_latched _ _ latched] at run
      exact Host.Outcome.next.inj run ▸ ih
    | false =>
      rw [exec_powRun_ready latched ready] at run
      exact Host.Outcome.next.inj run ▸ phase t n .searching ih (.inl ready) (.inr rfl)
  | @abort t u n path run ih =>
    obtain rfl := Host.Outcome.next.inj ((exec_abort t).symm.trans run)
    unfold State.unlessLatched
    split
    next => exact ih
    next =>
      split
      next searching => exact phase t n .ready ih (.inr searching) (.inl rfl)
      next => exact ih
  | @txWrite t u n path addr v cell run ih =>
    obtain ⟨-, rfl⟩ | ⟨-, rfl⟩ := memWrite_cases cell run
    · exact tx t n _ ih
    · exact ih

/-! ### The search context -/

/-- t still holds the search context that POW_INIT m built in s (`44_pow.md` R201). -/
structure ContextOf (s : State) (m : Nat) (t : State) : Prop where
  params : t.params = s.params
  mid : t.mid = midState s.params.wordBits (headerState s.tx)
  nonce : t.nonce = txField s.tx Config.nonceOff
  trunk : t.trunk = txField s.tx Config.trunkOff
  branch : t.branch = txField s.tx Config.branchOff
  mwm : t.mwm = BitVec.ofNat 8 m

namespace ContextOf

variable {s t : State} {m : Nat}

theorem of_withContext (s : State) (m : Nat) : ContextOf s m (s.withContext m) := by
  rw [State.withContext]
  exact ⟨rfl, rfl, rfl, rfl, rfl, rfl⟩

theorem searchStep (h : ContextOf s m t) (cmd : HostWord) : ContextOf s m (t.searchStep cmd) :=
  ⟨(searchStep_params t cmd).trans h.params, (searchStep_mid t cmd).trans h.mid,
    (searchStep_nonce t cmd).trans h.nonce, (searchStep_trunk t cmd).trans h.trunk,
    (searchStep_branch t cmd).trans h.branch, (searchStep_mwm t cmd).trans h.mwm⟩

theorem withPhase (h : ContextOf s m t) (p : Phase) : ContextOf s m { t with phase := p } :=
  ⟨h.params, h.mid, h.nonce, h.trunk, h.branch, h.mwm⟩

theorem withTx (h : ContextOf s m t) (tx : List Host.Cell) : ContextOf s m (t.withTx tx) :=
  ⟨h.params, h.mid, h.nonce, h.trunk, h.branch, h.mwm⟩

/-- Lane i of the batch at OFFSET tests the candidate at OFFSET + i (`44_pow.md` R214). -/
theorem laneSucceeds_iff (h : ContextOf s m t) (hm : m ≤ 243) {i : Nat} (hi : i < s.params.lanes) :
    laneSucceeds t.batchWork t.mwm.toNat i = true ↔ CandidateSucceeds s.tx m (t.offset.toNat + i) := by
  obtain ⟨-, -, -, hlane⟩ := batchLaneIsTheScalarHash s.params s.tx t.offset.toNat m i hi
  rw [State.batchWork, h.params, h.mid, h.nonce, h.trunk, h.branch, h.mwm, toNat_ofNat_mwm hm]
  exact hlane

end ContextOf

/-! ### The invariant of a search -/

/-- o is the least offset whose candidate succeeds (`44_pow.md` R215). -/
def LeastSuccess (tx : List Host.Cell) (m o : Nat) : Prop :=
  CandidateSucceeds tx m o ∧ ∀ k < o, ¬ CandidateSucceeds tx m k

theorem LeastSuccess.unique {tx : List Host.Cell} {m o o' : Nat} (h : LeastSuccess tx m o) (h' : LeastSuccess tx m o') :
    o = o' := by
  rcases Nat.lt_trichotomy o o' with hlt | heq | hlt
  · exact absurd h.1 (h'.2 o hlt)
  · exact heq
  · exact absurd h'.1 (h.2 o' hlt)

/-- The registers of FOUND after n batches of L lanes, the last of which has the lane that tests the offset o. -/
structure Records (t : State) (L o n : Nat) : Prop where
  live : t.err = false
  winOffset : t.winOffset.toNat = o
  winLane : t.winLane.toNat = o % L
  offset : t.offset.toNat = L * (o / L)
  batches : n = o / L + 1

/-- t is a state of the search from POW_INIT m in s, after n batches. -/
structure SearchInv (s : State) (m : Nat) (t : State) (n : Nat) : Prop where
  context : ContextOf s m t
  /-- No offset before OFFSET succeeds, and none is skipped or repeated, as OFFSET counts LANES for each batch. -/
  untested : t.phase ≠ .found → t.err = false →
    t.offset.toNat = s.params.lanes * n ∧ ∀ k < s.params.lanes * n, ¬ CandidateSucceeds s.tx m k
  won : t.phase = .found → ∃ o, LeastSuccess s.tx m o ∧ Records t s.params.lanes o n

namespace SearchInv

variable {s t : State} {m n : Nat}

theorem of_withContext (s : State) (m : Nat) : SearchInv s m (s.withContext m) 0 where
  context := .of_withContext s m
  untested _ _ := by
    rw [State.withContext]
    exact ⟨rfl, fun k hk => absurd hk (Nat.not_lt_zero k)⟩
  won found := by
    rw [State.withContext] at found
    cases found

theorem withPhase (h : SearchInv s m t n) (running : t.phase.Running) {p : Phase} (hp : p.Running) :
    SearchInv s m { t with phase := p } n where
  context := h.context.withPhase p
  untested _ live := h.untested running.ne_found live
  won found := absurd found hp.ne_found

theorem withTx (h : SearchInv s m t n) (tx : List Host.Cell) : SearchInv s m (t.withTx tx) n where
  context := h.context.withTx tx
  untested := h.untested
  won found := by
    obtain ⟨o, least, live, hwin, hlane, hoffset, hn⟩ := h.won found
    exact ⟨o, least, live, hwin, hlane, hoffset, hn⟩

section Batch

variable (hm : m ≤ 243) (h : SearchInv s m t n) (running : t.phase.Running) (live : t.err = false)
include hm h running live

/-- Lane i of batch n tests the offset LANES·n + i. -/
theorem laneSucceeds_iff {i : Nat} (hi : i < s.params.lanes) :
    laneSucceeds t.batchWork t.mwm.toNat i = true ↔ CandidateSucceeds s.tx m (s.params.lanes * n + i) :=
  (h.untested running.ne_found live).1 ▸ h.context.laneSucceeds_iff hm hi

/-- If the lanes below i fail, no offset before that of lane i succeeds. -/
theorem not_candidateSucceeds_before {i : Nat} (hi : i ≤ s.params.lanes)
    (hlanes : ∀ k < i, laneSucceeds t.batchWork t.mwm.toNat k = false) :
    ∀ k < s.params.lanes * n + i, ¬ CandidateSucceeds s.tx m k := by
  intro k hk hsucc
  obtain ⟨-, htested⟩ := h.untested running.ne_found live
  by_cases hbefore : k < s.params.lanes * n
  · exact htested k hbefore hsucc
  · obtain ⟨j, rfl⟩ := Nat.exists_eq_add_of_le (Nat.le_of_not_lt hbefore)
    have hlane := (h.laneSucceeds_iff hm running live (by omega)).mpr hsucc
    exact nomatch (hlanes j (by omega)).symm.trans hlane

/-- A batch raises OFFSET, or has a least lane that succeeds, or none does and the next batch starts after it
(`44_pow.md` R209). -/
theorem searchStep (cmd : HostWord) : SearchInv s m (t.searchStep cmd) (n + 1) := by
  obtain ⟨hoffset, -⟩ := h.untested running.ne_found live
  have hbefore {i : Nat} := h.not_candidateSucceeds_before hm running live (i := i)
  have hcontext := h.context.searchStep cmd
  obtain ⟨-, heq⟩ | ⟨spent, i, hwin, heq⟩ | ⟨spent, hnone, heq⟩ := searchStep_cases t cmd <;>
    rw [heq] at hcontext ⊢
  · exact ⟨hcontext, fun _ herr => (nomatch herr), fun found => absurd found running.ne_found⟩
  · have fits := (offsetSpent_eq_false_iff t).mp spent
    obtain ⟨hi, hsucc, hleast⟩ := (winningLane_some _ _ _ i).mp hwin
    have hsum : (t.offset + BitVec.ofNat 64 i).toNat = s.params.lanes * n + i := by
      rw [toNat_offset_add t (by omega), hoffset]
    rw [h.context.params] at hi
    have hdiv : (s.params.lanes * n + i) / s.params.lanes = n := by
      rw [Nat.mul_add_div (by omega), Nat.div_eq_of_lt hi, Nat.add_zero]
    have hmod : (s.params.lanes * n + i) % s.params.lanes = i := by
      rw [Nat.mul_add_mod, Nat.mod_eq_of_lt hi]
    exact ⟨hcontext, fun hne => absurd rfl hne, fun _ => ⟨s.params.lanes * n + i,
      ⟨(h.laneSucceeds_iff hm running live hi).mp hsucc, hbefore hi.le hleast⟩,
      live, hsum, (toNat_ofNat_lane hi).trans hmod.symm, by rw [hdiv]; exact hoffset, by rw [hdiv]⟩⟩
  · have hlanes := (winningLane_none _ _ _).mp hnone
    rw [h.context.params] at hlanes
    have hsum : (t.offset + BitVec.ofNat 64 t.params.lanes).toNat = s.params.lanes * (n + 1) := by
      rw [toNat_offset_add t ((offsetSpent_eq_false_iff t).mp spent), hoffset, h.context.params, Nat.mul_succ]
    exact ⟨hcontext, fun _ _ => ⟨hsum, hbefore (Nat.le_refl _) hlanes⟩,
      fun found => absurd found running.ne_found⟩

end Batch

/-- A search that has not ended has not reached the batch of the least offset yet. -/
theorem batches_le {o : Nat} (h : SearchInv s m t n) (least : LeastSuccess s.tx m o) (hne : t.phase ≠ .found)
    (live : t.err = false) : n ≤ o / s.params.lanes := by
  have hlanes := s.params.lanes_ge
  obtain ⟨-, htested⟩ := h.untested hne live
  rw [Nat.le_div_iff_mul_le (by omega), Nat.mul_comm]
  exact Nat.le_of_not_lt fun hlt => htested o hlt least.1

/-- While the batch of the least offset fits the bound, no batch raises OFFSET. -/
theorem searchStep_live {o : Nat} (h : SearchInv s m t n) (least : LeastSuccess s.tx m o)
    (fits : s.params.lanes * (o / s.params.lanes) + s.params.lanes ≤ 2 ^ 64 - 1) (running : t.phase.Running)
    (live : t.err = false) (cmd : HostWord) : (t.searchStep cmd).err = false := by
  obtain ⟨hoffset, -⟩ := h.untested running.ne_found live
  have hbatches := Nat.mul_le_mul_left s.params.lanes (h.batches_le least running.ne_found live)
  have hspent : t.offsetSpent = false := by
    rw [offsetSpent_eq_false_iff, hoffset, h.context.params]
    omega
  obtain ⟨spent, -⟩ | ⟨-, i, -, heq⟩ | ⟨-, -, heq⟩ := searchStep_cases t cmd
  · cases hspent.symm.trans spent
  · rw [heq]
    exact live
  · rw [heq]
    exact live

end SearchInv

namespace SearchPath

variable {s t : State} {m n : Nat}

theorem searchInv (hm : m ≤ 243) (path : SearchPath (s.withContext m) t n) : SearchInv s m t n :=
  path.rule (.of_withContext s m) (fun _ _ cmd h running live => h.searchStep hm running live cmd)
    (fun _ _ _ h running hp => h.withPhase running hp) fun _ _ tx h => h.withTx tx

/-- FOUND records the least offset, as it records some least one and there is no other. -/
theorem records_of_found {o : Nat} (hm : m ≤ 243) (least : LeastSuccess s.tx m o)
    (path : SearchPath (s.withContext m) t n) (found : t.phase = .found) : Records t s.params.lanes o n := by
  obtain ⟨o', least', records⟩ := (path.searchInv hm).won found
  exact least'.unique least ▸ records

variable {o : Nat} (live : s.err = false) (hm : m ≤ 243) (least : LeastSuccess s.tx m o)
  (fits : s.params.lanes * (o / s.params.lanes) + s.params.lanes ≤ 2 ^ 64 - 1)
include live hm least fits

theorem err_eq_false (path : SearchPath (s.withContext m) t n) : t.err = false :=
  And.right <| path.rule (P := fun t n => SearchInv s m t n ∧ t.err = false)
    ⟨.of_withContext s m, (withContext_err s m).trans live⟩
    (fun _ _ cmd ⟨h, _⟩ running live =>
      ⟨h.searchStep hm running live cmd, h.searchStep_live least fits running live cmd⟩)
    (fun _ _ _ ⟨h, live⟩ running hp => ⟨h.withPhase running hp, live⟩)
    fun _ _ tx ⟨h, live⟩ => ⟨h.withTx tx, live⟩

/-- Before FOUND, OFFSET counts the offsets tested. -/
theorem offset_of_ne_found (path : SearchPath (s.withContext m) t n) (hne : t.phase ≠ .found) :
    t.offset.toNat = s.params.lanes * n ∧ n ≤ o / s.params.lanes := by
  have h := path.searchInv hm
  have hlive := path.err_eq_false live hm least fits
  exact ⟨(h.untested hne hlive).1, h.batches_le least hne hlive⟩

/-- The engine, left to itself, has found a lane or is on a search path of one batch for each of its turns. -/
theorem engineRun_found_or_path (path : SearchPath (s.withContext m) t 0) (searching : t.phase = .searching)
    (k : Nat) : (engineRun k t).phase = .found ∨
      (engineRun k t).phase = .searching ∧ SearchPath (s.withContext m) (engineRun k t) k := by
  induction k with
  | zero => exact .inr ⟨searching, path⟩
  | succ k ih =>
    rw [engineRun, iterate_succ, ← engineRun]
    obtain found | ⟨running, path⟩ := ih
    · have hdisabled : (engineRun k t).searchEnabled = false := by simp [State.searchEnabled, found]
      exact .inl ((congrArg State.phase (engineTurn_disabled _ hdisabled)).trans found)
    · have henabled := (searchEnabled_iff _).mpr ⟨running, path.err_eq_false live hm least fits⟩
      by_cases hkeep : (engineTurn (engineRun k t)).phase = .searching
      · exact .inr ⟨hkeep, .engine path henabled⟩
      · rw [engineTurn_enabled _ henabled] at hkeep ⊢
        exact .inl (searchStep_phase_eq_found _ _ (by rwa [running]))

end SearchPath

/-- Settles O33: every path keeps the search invariant, which leaves FOUND one offset to record, and the engine's own
turns are a path that cannot run past the batch of that offset. -/
theorem searchFindsTheLeastOffset : Obligations.SearchFindsTheLeastOffset := by
  intro s c m o live idle hpos hm hcells hinit hsucc hleast fits
  obtain rfl := Host.Outcome.next.inj ((exec_powInit live idle ⟨hpos, hm⟩ hcells).symm.trans hinit)
  have least : LeastSuccess s.tx m o := ⟨hsucc, hleast⟩
  refine ⟨fun t n path => ⟨path.err_eq_false live hm least fits, fun found => ?_,
    path.offset_of_ne_found live hm least fits⟩, ?_⟩
  · have records := path.records_of_found hm least found
    exact ⟨records.winOffset, records.winLane, records.offset, records.batches⟩
  · have ready : (s.withContext m).phase = .ready := by rw [State.withContext]
    have started := SearchPath.powRun .start ready
      (exec_powRun_ready ((withContext_err s m).trans live) ready)
    obtain found | ⟨searching, path⟩ := SearchPath.engineRun_found_or_path live hm least fits started rfl
      (o / s.params.lanes + 1)
    · exact found
    · have hbatches := (path.offset_of_ne_found live hm least fits fun found => nomatch searching.symm.trans found).2
      omega

end Sys2Proof.Machine

/-! The end of a search (`44_pow.md` R213, R217): the transaction that POW_FINAL leaves in TX is the one with the
winning candidate, so that its hash ends in the zero trits that the search looked for. -/

namespace Sys2Proof.Machine

open Sys2Proof

/-! ### Runs of cells after a run of writes -/

section WriteAll

variable {tx : List Host.Cell} {j : Nat} {vs : List Byte}

theorem txCells_writeAll_same (hwf : Memory.wf tx = true)
    (hin : ∀ k < vs.length, inTxWindow (txBase + j + k) = true) :
    txCells (Memory.writeAll tx (txBase + j) vs) j vs.length = vs := by
  refine List.ext_getElem (txCells_length ..) fun k _ hk => ?_
  simp only [txCells_eq, List.getElem_map, List.getElem_range]
  exact Memory.read_writeAll tx (txBase + j) k vs hin hwf hk

theorem txCells_writeAll_other {i n : Nat} (h : i + n ≤ j ∨ j + vs.length ≤ i) :
    txCells (Memory.writeAll tx (txBase + j) vs) i n = txCells tx i n := by
  rw [txCells_eq, txCells_eq]
  refine List.map_congr_left fun k hk => Memory.read_writeAll_other _ _ _ _ ?_
  have := List.mem_range.mp hk
  omega

end WriteAll

/-- The transaction in three parts: the header, the nonce, and trunk and branch. -/
theorem txCells_transaction (tx : List Host.Cell) :
    txCells tx 0 2673 = txCells tx 0 2430 ++ txCells tx 2430 81 ++ txCells tx 2511 162 := by
  have hheader : txCells tx 0 2511 = txCells tx 0 2430 ++ txCells tx 2430 81 := txCells_append tx 0 2430 81
  rw [← hheader]
  exact txCells_append tx 0 2511 162

theorem cellsValid_iff (s : State) (len : Nat) :
    CellsValid s len ↔ ∀ b ∈ txCells s.tx 0 len, validSymbol b = true := by
  simp [CellsValid, txCells_eq, txCell_eq]

/-! ### POW_FINAL and HASH -/

/-- s after a POW_FINAL that no check refused (`44_pow.md` R213). -/
def State.spliced (s : State) : State :=
  { s with tx := Memory.writeAll s.tx (txBase + Config.nonceOff) s.winningCells, phase := .idle }

/-- POW_FINAL replaces the nonce field alone. -/
theorem txCells_spliced {s : State} (hwf : Memory.wf s.tx = true) :
    txCells s.spliced.tx 0 2673 = txCells s.tx 0 2430 ++ s.winningCells ++ txCells s.tx 2511 162 := by
  have hlen : s.winningCells.length = 81 := winningCells_length s
  have hnonce := txCells_writeAll_same hwf (inTxWindow_nonceCell s)
  have hheader : txCells s.spliced.tx 0 2430 = txCells s.tx 0 2430 := txCells_writeAll_other (.inl (by decide))
  have hfields : txCells s.spliced.tx 2511 162 = txCells s.tx 2511 162 :=
    txCells_writeAll_other (.inr (by rw [hlen]))
  rw [hlen] at hnonce
  rw [txCells_transaction, hheader, hfields]
  exact congrArg (_ ++ · ++ _) hnonce

theorem cellsValid_spliced {s : State} (hwf : Memory.wf s.tx = true) (hcells : CellsValid s 2673) :
    CellsValid s.spliced 2673 := by
  rw [cellsValid_iff] at hcells ⊢
  rw [txCells_transaction] at hcells
  rw [txCells_spliced hwf, winningCells_eq]
  intro b hb
  simp only [List.mem_append] at hb hcells
  obtain (hheader | hnonce) | hfields := hb
  · exact hcells b (.inl (.inl hheader))
  · obtain ⟨j, -, rfl⟩ := List.mem_map.mp hnonce
    exact validSymbol_symbolCode j
  · exact hcells b (.inr hfields)

/-- The symbols of TX are then those of the transaction with the winning candidate. -/
theorem map_symbolOf_spliced {s : State} (hwf : Memory.wf s.tx = true) (hnonce : s.nonce = txField s.tx 2430) :
    (txCells s.spliced.tx 0 2673).map symbolOf = withCandidate s.tx s.winOffset.toNat := by
  rw [txCells_spliced hwf, winningCells_eq, hnonce, withCandidate, List.map_append, List.map_append, List.map_map]
  simp [Function.comp_def, symbolOf_symbolCode]

theorem cellsToTrits_map_symbolCode (symbols : List SymIdx) :
    cellsToTrits (symbols.map symbolCode) = symbolsToTrits symbols := by
  simp [cellsToTrits, Function.comp_def, symbolOf_symbolCode]

/-- What HASH 2673 writes after POW_FINAL has the trits of the hash of the winning transaction. -/
theorem cellsToTrits_digest_spliced {s : State} (hwf : Memory.wf s.tx = true)
    (hnonce : s.nonce = txField s.tx 2430) :
    cellsToTrits (digestCells (absorb zeroSponge (txChunks s.spliced.tx 2673))).toList =
      symbolsToTrits (hashSymbols (withCandidate s.tx s.winOffset.toNat)) := by
  rw [digestCells_toList, cellsToTrits_map_symbolCode, finalize_absorb_txChunks, ← map_symbolOf_txCells,
    map_symbolOf_spliced hwf hnonce]

/-- The symbols whose last trit is 0 (`44_pow.md` R217). -/
theorem symbolCode_of_last_trit_zero : ∀ j : SymIdx, (∀ x ∈ (tryte j).drop 2, x = .zero) →
    symbolCode j ∈ [0x39#8, 0x41#8, 0x42#8, 0x43#8, 0x44#8, 0x57#8, 0x58#8, 0x59#8, 0x5A#8] := by
  decide

/-- The last trit of 81 cells is the last one of the last cell. -/
theorem drop_242_cellsToTrits (cells : Vector Byte 81) :
    (cellsToTrits cells.toList).drop 242 = (tryte (symbolOf cells[80])).drop 2 := by
  have hsplit : cells.toList = cells.toList.take 80 ++ [cells[80]] := by
    rw [← Vector.getElem_toList (by simp), ← List.take_succ_eq_append_getElem, List.take_of_length_le (by simp)]
  have hfront : (cellsToTrits (cells.toList.take 80)).length = 240 := by
    rw [cellsToTrits_length]
    simp
  have hlast : cellsToTrits [cells[80]] = tryte (symbolOf cells[80]) := List.append_nil _
  rw [hsplit, cellsToTrits_append, hlast, show 242 = (cellsToTrits (cells.toList.take 80)).length + 2 by omega,
    List.drop_length_add_append]

/-- A digest whose last trit is 0 ends in one of nine symbols. -/
theorem last_digestCell_mem (final : Vector Trit Config.stateLen)
    (h : ∀ x ∈ (cellsToTrits (digestCells final).toList).drop 242, x = .zero) :
    (digestCells final : Vector Byte 81)[80] ∈
      [0x39#8, 0x41#8, 0x42#8, 0x43#8, 0x44#8, 0x57#8, 0x58#8, 0x59#8, 0x5A#8] := by
  have hmem : (digestCells final : Vector Byte 81)[80] ∈ (finalize final).map symbolCode := by
    rw [← digestCells_toList, Vector.mem_toList_iff]
    exact Vector.getElem_mem _
  obtain ⟨j, -, hj⟩ := List.mem_map.mp hmem
  rw [drop_242_cellsToTrits, ← hj, symbolOf_symbolCode] at h
  exact hj ▸ symbolCode_of_last_trit_zero j h

/-- Settles O34: the search records a succeeding offset, POW_FINAL leaves the transaction with its candidate, and HASH
2673 hashes that transaction. -/
theorem foundNonceGivesTrailingZeros : Obligations.FoundNonceGivesTrailingZeros := by
  intro s c t u w m n hwf live idle hpos hm hcells hinit path htx found hfinal hhash
  obtain rfl := Host.Outcome.next.inj ((exec_powInit live idle ⟨hpos, hm⟩ hcells).symm.trans hinit)
  have hinv := path.searchInv hm
  obtain ⟨o, ⟨hsucc, -⟩, records⟩ := hinv.won found
  have hstx : t.tx = s.tx := htx.trans (withContext_tx s m)
  have hnonce : t.nonce = txField t.tx 2430 := hstx ▸ hinv.context.nonce
  have hwft : Memory.wf t.tx = true := hstx ▸ hwf
  have hvalid : CellsValid t.spliced 2673 :=
    cellsValid_spliced hwft fun j hj => by rw [State.txCell, hstx]; exact hcells j hj
  obtain rfl : t.spliced = u := Host.Outcome.next.inj ((exec_powFinal_found records.live found).symm.trans hfinal)
  obtain rfl := Host.Outcome.next.inj ((exec_hash (s := t.spliced) records.live (nofun) rfl hvalid).symm.trans hhash)
  have hzeros : ∀ x ∈ (cellsToTrits (digestCells (absorb zeroSponge (txChunks t.spliced.tx 2673))).toList).drop
      (243 - m), x = .zero := by
    rw [cellsToTrits_digest_spliced hwft hnonce, records.winOffset, hstx]
    exact hsucc
  exact ⟨records.live, hzeros, fun hone => last_digestCell_mem _ (by rwa [hone] at hzeros)⟩

end Sys2Proof.Machine

/-! Errors (`60_exceptions.md` R240 to R248): the checks of a command word in their order, the OFFSET error of a search
step, and the latched core, which only SRESET and a hard reset leave. -/

namespace Sys2Proof.Machine

open Sys2Proof

/-! ### The checks of a command, in their order -/

/-- Check 2, BUSY, before the checks that come after it. -/
def busyElse (p : Phase) (later : Option ErrorCode) : Option ErrorCode := if p = .searching then some .busy else later

/-- The error that the checks 2 to 5 give a command, in their order (`60_exceptions.md` R242). -/
def commandError (p : Phase) : Instr → Option ErrorCode
  | .nop | .sreset | .abort => none
  | .sClear | .sPermute | .sFinalize => busyElse p none
  | .sAbsorb len | .hash len => busyElse p (if lengthAccepted len then none else some .length)
  | .powInit m => busyElse p (if mwmAccepted m then none else some .param)
  | .powStep | .powRun => busyElse p (if p = .ready then none else some .sequence)
  | .powFinal => busyElse p (if p = .found then none else some .sequence)

/-- How many cells of TX check 6 looks at. -/
def commandCells : Instr → Nat
  | .sAbsorb len | .hash len => len
  | .powInit _ => Config.txLen
  | .nop | .sreset | .abort | .sClear | .sPermute | .sFinalize | .powStep | .powRun | .powFinal => 0

theorem not_lengthAccepted_iff (len : Nat) :
    ¬ lengthAccepted len = true ↔ len = 0 ∨ ¬ len % 81 = 0 ∨ 2673 < len := by
  rw [lengthAccepted_iff]
  omega

theorem not_mwmAccepted_iff (m : Nat) : ¬ mwmAccepted m = true ↔ m = 0 ∨ 243 < m := by
  rw [mwmAccepted_iff]
  omega

namespace CarriesFields

variable {v : HostWord} {i : Instr}

theorem matchesRow_eq_true (h : CarriesFields v i) : matchesRow v = true :=
  (exists_decode_iff_matchesRow v).mp ⟨i, h.decode_eq⟩

/-- A command has one word. -/
theorem eq_encode_iff (h : CarriesFields v i) {j : Instr} (hj : j.wellFormed = true) : v = encode j ↔ i = j := by
  constructor
  · rintro rfl
    exact Except.ok.inj (h.decode_eq.symm.trans (of_encode hj).decode_eq)
  · rintro rfl
    exact h.encode_eq.symm

/-- The checks 1 to 5 of a word that has a row are those of its command. -/
theorem earlyError_eq (h : CarriesFields v i) (p : Phase) : earlyError p v = commandError p i := by
  have hopc : v.toNat % 256 = i.opcode := by rw [← h.opcode, toNat_opcField]
  have hlen : v.toNat / 2 ^ 16 % 4096 = i.lenOperand := (lenField_eq v).symm.trans h.len
  have hmwm : v.toNat / 2 ^ 8 % 256 = i.mwmOperand := (mwmField_eq v).symm.trans h.mwm
  simp only [earlyError, hopc, hlen, hmwm, h.matchesRow_eq_true]
  cases i with
  | nop | sreset | abort | sClear | sPermute | sFinalize =>
    simp [Instr.opcode, controlOpcode, commandError, busyElse]
  | sAbsorb len | hash len =>
    simp [Instr.opcode, Instr.lenOperand, controlOpcode, commandError, busyElse, ← not_lengthAccepted_iff,
      -Bool.not_eq_true]
  | powInit m =>
    simp [Instr.opcode, Instr.mwmOperand, controlOpcode, commandError, busyElse, ← not_mwmAccepted_iff,
      -Bool.not_eq_true]
  | powStep | powRun | powFinal =>
    simp [Instr.opcode, controlOpcode, commandError, busyElse]

theorem cellsRead_eq_commandCells (h : CarriesFields v i) : cellsRead v = commandCells i := by
  rw [h.cellsRead_eq]
  cases i <;> rfl

end CarriesFields

/-- A word that no row fits fails check 1, whatever PHASE. -/
theorem earlyError_of_decode_error {v : HostWord} {e : IllegalWord} (h : decode v = .error e) (p : Phase) :
    earlyError p v = some .illegalCmd := by
  have hrow : matchesRow v = false := by
    rw [← Bool.not_eq_true, ← exists_decode_iff_matchesRow, h]
    exact nofun
  simp [earlyError, hrow]

/-! ### What a command does to a core without an error -/

/-- The build and the world outside the core, which no command touches, are in t as in s. -/
structure SameOutside (s t : State) : Prop where
  params : t.params = s.params
  host : t.host = s.host
  schedule : t.schedule = s.schedule
  readData : t.readData = s.readData

theorem searchStep_sameOutside (s : State) (cmd : HostWord) : SameOutside s (s.searchStep cmd) := by
  rw [searchStep_frame]
  exact ⟨rfl, rfl, rfl, rfl⟩

theorem lowestBadCell_zero (tx : List Host.Cell) : lowestBadCell tx 0 = none := (lowestBadCell_none tx 0).mpr nofun

/-- `CheckedBy s v n batch early t`: from s, the word v has come to t through the checks of `60_exceptions.md` R242.
`early` is what the checks 1 to 5 give, n the cells that check 6 looks at, and `batch` says that the command evaluates
one, so that check 7 applies (`60_exceptions.md` R244). -/
inductive CheckedBy (s : State) (v : HostWord) (n : Nat) (batch : Prop) : Option ErrorCode → State → Prop where
  | refused (code : ErrorCode) : CheckedBy s v n batch (some code) (s.raise code v 0)
  | badCell (j : Nat) (lowest : lowestBadCell s.tx n = some j) : CheckedBy s v n batch none (s.raise .symbol v j)
  | spent (valid : lowestBadCell s.tx n = none) (evaluates : batch) (spent : s.offsetSpent = true) :
      CheckedBy s v n batch none (s.raise .offset v 0)
  | passed {t : State} (valid : lowestBadCell s.tx n = none) (fits : batch → s.offsetSpent = false)
      (live : t.err = false) (outside : SameOutside s t) : CheckedBy s v n batch none t

namespace CheckedBy

variable {s t : State} {v : HostWord} {n : Nat} {batch : Prop} {early : Option ErrorCode}

theorem unlessLatched (live : s.err = false) (h : CheckedBy s v n batch early t) :
    CheckedBy s v n batch early (s.unlessLatched t) := by
  rwa [unlessLatched_live s t live]

theorem checkBusy (h : CheckedBy s v n batch early t) :
    CheckedBy s v n batch (busyElse s.phase early) (s.checkBusy v t) := by
  unfold busyElse State.checkBusy
  split
  · exact .refused .busy
  · exact h

theorem checkLength {len : Nat} (h : CheckedBy s v n batch none t) :
    CheckedBy s v n batch (if lengthAccepted len then none else some .length) (s.checkLength v len t) := by
  unfold State.checkLength
  split
  · exact h
  · exact .refused .length

theorem checkParam {m : Nat} (h : CheckedBy s v n batch none t) :
    CheckedBy s v n batch (if mwmAccepted m then none else some .param) (s.checkParam v m t) := by
  unfold State.checkParam
  split
  · exact h
  · exact .refused .param

theorem checkSequence {p : Phase} (h : CheckedBy s v n batch none t) :
    CheckedBy s v n batch (if s.phase = p then none else some .sequence) (s.checkSequence v p t) := by
  unfold State.checkSequence
  split
  · exact h
  · exact .refused .sequence

theorem checkSymbols (h : lowestBadCell s.tx n = none → CheckedBy s v n batch none t) :
    CheckedBy s v n batch none (s.checkSymbols v n t) := by
  cases hbad : lowestBadCell s.tx n with
  | some j => exact checkSymbols_fail s v t n j hbad ▸ .badCell j hbad
  | none => exact (checkSymbols_pass s v t n hbad).symm ▸ h hbad

/-- A command that reads no cell and evaluates no batch has no check after the first five. -/
theorem of_no_cells (other : ¬ batch) (live : t.err = false) (outside : SameOutside s t) :
    CheckedBy s v 0 batch none t :=
  .passed (lowestBadCell_zero s.tx) (absurd · other) live outside

theorem searchStep (evaluates : batch) (live : s.err = false) : CheckedBy s v 0 batch none (s.searchStep v) := by
  have hvalid := lowestBadCell_zero s.tx
  have houtside := searchStep_sameOutside s v
  obtain ⟨hspent, heq⟩ | ⟨hfits, i, -, heq⟩ | ⟨hfits, -, heq⟩ := searchStep_cases s v
  · exact heq ▸ .spent hvalid evaluates hspent
  · exact .passed hvalid (fun _ => hfits) (by rw [heq]; exact live) houtside
  · exact .passed hvalid (fun _ => hfits) (by rw [heq]; exact live) houtside

/-- An error is of the core as much as an effect is. -/
theorem sameOutside (h : CheckedBy s v n batch early t) : SameOutside s t := by
  cases h with
  | passed _ _ _ outside => exact outside
  | refused | badCell | spent => exact ⟨rfl, rfl, rfl, rfl⟩

end CheckedBy

open CheckedBy in
/-- Each command is its own checks in their order, and then its effect. -/
theorem exec_checkedBy {s : State} (i : Instr) (live : s.err = false) :
    ∃ t, exec i s = .next t ∧
      CheckedBy s (encode i) (commandCells i) (i = .powStep) (commandError s.phase i) t := by
  cases i with
  | nop => exact ⟨_, rfl, unlessLatched live (of_no_cells nofun live ⟨rfl, rfl, rfl, rfl⟩)⟩
  | sreset => exact ⟨_, rfl, of_no_cells nofun (resetAll_err s s.tx) ⟨rfl, rfl, rfl, rfl⟩⟩
  | abort =>
    refine ⟨_, rfl, unlessLatched live ?_⟩
    split
    next => exact of_no_cells nofun live ⟨rfl, rfl, rfl, rfl⟩
    next => exact of_no_cells nofun live ⟨rfl, rfl, rfl, rfl⟩
  | sClear => exact ⟨_, rfl, unlessLatched live (checkBusy (of_no_cells nofun live ⟨rfl, rfl, rfl, rfl⟩))⟩
  | sAbsorb len =>
    exact ⟨_, rfl, unlessLatched live (checkBusy (checkLength (checkSymbols fun valid =>
      .passed valid nofun live ⟨rfl, rfl, rfl, rfl⟩)))⟩
  | sPermute => exact ⟨_, rfl, unlessLatched live (checkBusy (of_no_cells nofun live ⟨rfl, rfl, rfl, rfl⟩))⟩
  | sFinalize => exact ⟨_, rfl, unlessLatched live (checkBusy (of_no_cells nofun live ⟨rfl, rfl, rfl, rfl⟩))⟩
  | hash len =>
    exact ⟨_, rfl, unlessLatched live (checkBusy (checkLength (checkSymbols fun valid =>
      .passed valid nofun live ⟨rfl, rfl, rfl, rfl⟩)))⟩
  | powInit m =>
    exact ⟨_, rfl, unlessLatched live (checkBusy (checkParam (checkSymbols fun valid =>
      .passed valid nofun live ⟨rfl, rfl, rfl, rfl⟩)))⟩
  | powStep => exact ⟨_, rfl, unlessLatched live (checkBusy (checkSequence (searchStep rfl live)))⟩
  | powRun =>
    exact ⟨_, rfl, unlessLatched live (checkBusy (checkSequence
      (of_no_cells nofun live ⟨rfl, rfl, rfl, rfl⟩)))⟩
  | powFinal =>
    exact ⟨_, rfl, unlessLatched live (checkBusy (checkSequence
      (of_no_cells nofun live ⟨rfl, rfl, rfl, rfl⟩)))⟩

/-- A word written to CMD goes through its checks, and POW_STEP alone evaluates a batch (`60_exceptions.md` R242). -/
theorem issue_checkedBy {s : State} (v : HostWord) (live : s.err = false) :
    ∃ t, s.issue v = .next t ∧ CheckedBy s v (cellsRead v) (v = 0x00000021) (earlyError s.phase v) t := by
  cases hv : decode v with
  | ok i =>
    have fields := CarriesFields.of_decode hv
    have hbatch : (v = 0x00000021) = (i = .powStep) := propext (fields.eq_encode_iff (j := .powStep) rfl)
    rw [issue_ok s v i hv, fields.earlyError_eq, fields.cellsRead_eq_commandCells, hbatch, ← fields.encode_eq]
    exact exec_checkedBy i live
  | error e =>
    rw [issue_illegal s v e hv, unlessLatched_live s _ live, earlyError_of_decode_error hv]
    exact ⟨_, rfl, .refused .illegalCmd⟩

/-! ### What a command does to a latched core -/

section Latched

variable {s : State} (latched : s.err = true)
include latched

/-- Every command but SRESET lies behind the latch (`60_exceptions.md` R245). -/
theorem exec_latched {i : Instr} (other : i ≠ .sreset) : exec i s = .next s := by
  cases i with
  | sreset => exact absurd rfl other
  | _ => exact congrArg Host.Outcome.next (unlessLatched_latched s _ latched)

theorem issue_latched (v : HostWord) : s.issue v = if v = 0x00000001 then exec .sreset s else .next s := by
  cases hv : decode v with
  | ok i =>
    have hword : v = 0x00000001 ↔ i = .sreset := (CarriesFields.of_decode hv).eq_encode_iff (j := .sreset) rfl
    rw [issue_ok s v i hv]
    split
    next hsreset => rw [hword.mp hsreset]
    next other => exact exec_latched latched (other ∘ hword.mpr)
  | error e =>
    have hne : v ≠ 0x00000001 := by
      rintro rfl
      exact nomatch hv
    rw [issue_illegal s v e hv, unlessLatched_latched s _ latched, if_neg hne]

theorem searchEnabled_latched : s.searchEnabled = false := by simp [State.searchEnabled, latched]

end Latched

/-- Settles O60: a latched core ignores the command or resets, and otherwise the command goes through its checks. -/
theorem commandsAlwaysAnswer : Obligations.CommandsAlwaysAnswer := by
  intro i s
  have hanswer : ∃ t, exec i s = .next t ∧ SameOutside s t := by
    cases herr : s.err with
    | true =>
      by_cases hi : i = .sreset
      · subst hi
        exact ⟨_, exec_sreset s, rfl, rfl, rfl, rfl⟩
      · exact ⟨s, exec_latched herr hi, rfl, rfl, rfl, rfl⟩
    | false =>
      obtain ⟨t, ht, hchecked⟩ := exec_checkedBy i herr
      exact ⟨t, ht, hchecked.sameOutside⟩
  obtain ⟨t, ht, params, host, schedule, readData⟩ := hanswer
  exact ⟨t, ht, params, host, schedule, readData⟩

/-- Settles O45: the latched core by its one rule, and otherwise a split on how the word has come through its checks. -/
theorem checksApplyInOrder : Obligations.ChecksApplyInOrder := by
  refine fun s v => ⟨fun latched => issue_latched latched v, fun live => ?_⟩
  have hspent : s.offsetSpent = true ↔ 2 ^ 64 - 1 < s.offset.toNat + s.params.lanes := decide_eq_true_iff
  have hlowest (j : Nat) : lowestBadCell s.tx (cellsRead v) = some j ↔ IsLowestBad s (cellsRead v) j :=
    lowestBadCell_some s.tx _ j
  have hvalid : lowestBadCell s.tx (cellsRead v) = none ↔ CellsValid s (cellsRead v) := lowestBadCell_none s.tx _
  obtain ⟨t, hissue, hchecked⟩ := issue_checkedBy v live
  simp only [← hspent, ← hlowest, ← hvalid, hissue]
  generalize earlyError s.phase v = early at hchecked
  cases hchecked with
  | refused code => exact ⟨fun e he => by cases he; rfl, nofun⟩
  | badCell j lowest =>
    refine ⟨nofun, fun _ => ⟨fun k hk => ?_, fun valid => nomatch lowest.symm.trans valid⟩⟩
    obtain rfl := Option.some.inj (lowest.symm.trans hk)
    rfl
  | spent valid evaluates spent =>
    refine ⟨nofun, fun _ => ⟨fun j lowest => (nomatch valid.symm.trans lowest), fun _ => ?_⟩⟩
    rw [if_pos ⟨evaluates, spent⟩]
    rfl
  | passed valid fits live =>
    refine ⟨nofun, fun _ => ⟨fun j lowest => (nomatch valid.symm.trans lowest), fun _ => ?_⟩⟩
    rw [if_neg fun ⟨evaluates, spent⟩ => nomatch (fits evaluates).symm.trans spent]
    exact ⟨t, rfl, live⟩

/-! ### Past the offset bound -/

theorem searchStep_spent {s : State} (cmd : HostWord) (past : 2 ^ 64 - 1 < s.offset.toNat + s.params.lanes) :
    s.searchStep cmd = s.afterError 7 cmd 0 := if_pos (decide_eq_true past)

/-- Settles O32: the step raises the error in place of its batch, and the error takes it out of being enabled. -/
theorem offsetBoundRaisesOffset : Obligations.OffsetBoundRaisesOffset := by
  refine fun s past => ⟨fun enabled => ?_, fun ready live => ?_⟩
  · obtain ⟨searching, -⟩ := (searchEnabled_iff s).mp enabled
    rw [engineTurn_enabled s enabled, searchStep_spent _ past]
    exact ⟨rfl, searchEnabled_latched rfl, searching, rfl⟩
  · rw [exec_powStep_ready live ready, searchStep_spent _ past]
    exact ⟨rfl, ready⟩

/-! ### The latched core -/

/-- STATUS alone shows ERR. -/
theorem memRead_withErr (s : State) (err : Bool) {addr : HostAddr} (h : addr ≠ 0x0001) :
    s.memRead addr = State.memRead { s with err := err } addr := by
  have hne : addr.toNat ≠ 0x0001 := fun heq => h (BitVec.eq_of_toNat_eq heq)
  rw [State.memRead, State.memRead, if_neg hne, if_neg hne]

theorem memWrite_cell (s : State) {j : Nat} (v : HostWord) (hj : j < 2673) :
    s.memWrite (BitVec.ofNat 16 (0x1000 + j)) v =
      .next { s with tx := Memory.write s.tx (0x1000 + j) (v.setWidth 8) } := by
  have haddr : (BitVec.ofNat 16 (0x1000 + j)).toNat = 0x1000 + j := Nat.mod_eq_of_lt (by omega)
  rw [memWrite_tx s _ v (haddr.symm ▸ inTxWindow_cell hj), haddr]

/-- Settles O46: each access to a latched core by its own rule. -/
theorem latchedCoreIsQuiet : Obligations.LatchedCoreIsQuiet := fun s latched =>
  ⟨engineTurn_disabled s (searchEnabled_latched latched),
    fun v other => (issue_latched latched v).trans (if_neg other),
    (issue_latched latched 0x00000001).trans (if_pos rfl),
    fun addr ops => hostTurn_read s addr ops,
    fun _ other => memRead_withErr s false other,
    (status_err s).trans latched, status_errCode s,
    fun _ v hj => memWrite_cell s v hj⟩

/-! ### The steps of a latched core -/

theorem hostEvent_eq_command {ops : List HostOp} {v : HostWord} (h : hostEvent ops = .command v) :
    ∃ rest, ops = .write 0x0000 4 v :: rest := by
  unfold hostEvent at h
  split at h
  next addr w rest =>
    obtain ⟨rfl, hw⟩ | ⟨-, hw⟩ := ite_eq_iff.mp h
    · exact ⟨rest, by rw [Event.command.inj hw]⟩
    · cases hw
  next => cases h
  next => cases h

theorem hostEvent_eq_hardReset {ops : List HostOp} (h : hostEvent ops = .hardReset) :
    ∃ cells rest, ops = .hardReset cells :: rest := by
  unfold hostEvent at h
  split at h
  next => split at h <;> cases h
  next cells rest => exact ⟨cells, rest, rfl⟩
  next => cases h

theorem hostEvent_ne_searchStep (ops : List HostOp) : hostEvent ops ≠ .searchStep := by
  unfold hostEvent
  split
  next => split <;> nofun
  next => nofun
  next => nofun

/-- A search step is taken only while it is enabled (`44_pow.md` R212). -/
theorem searchEnabled_of_event {s : State} (h : s.event = .searchStep) : s.searchEnabled = true := by
  cases hnext : s.nextAgent with
  | host => exact absurd ((event_of_host hnext).symm.trans h) (hostEvent_ne_searchStep s.host)
  | engine =>
    rw [event_of_engine hnext] at h
    by_contra hdisabled
    exact nomatch (if_neg hdisabled).symm.trans h

/-- The engine neither writes CMD nor asserts the reset input: such an event is a turn of the host. -/
theorem step_of_host_event {s : State} (hnone : s.event ≠ .none) (hsearch : s.event ≠ .searchStep) :
    step s = hostTurn (s.movedOn s.host s.schedule.tail s.readData) ∧ hostEvent s.host = s.event := by
  cases hnext : s.nextAgent with
  | host => exact ⟨by rw [step_eq_turn, hnext]; rfl, (event_of_host hnext).symm⟩
  | engine =>
    rw [event_of_engine hnext] at hnone hsearch
    split at hnone
    next enabled => exact absurd (if_pos enabled) hsearch
    next => exact absurd rfl hnone

theorem step_of_event_command {s : State} {v : HostWord} (h : s.event = .command v) :
    ∃ ops, step s = (s.movedOn ops s.schedule.tail s.readData).issue v := by
  obtain ⟨hstep, hevent⟩ := step_of_host_event (s := s) (h ▸ nofun) (h ▸ nofun)
  obtain ⟨ops, hops⟩ := hostEvent_eq_command (hevent.trans h)
  exact ⟨ops, hstep.trans (hostTurn_write _ 0x0000 v ops hops)⟩

theorem step_of_event_hardReset {s : State} (h : s.event = .hardReset) :
    ∃ cells ops, step s = .next ((s.movedOn ops s.schedule.tail s.readData).hardReset cells) := by
  obtain ⟨hstep, hevent⟩ := step_of_host_event (s := s) (h ▸ nofun) (h ▸ nofun)
  obtain ⟨cells, ops, hops⟩ := hostEvent_eq_hardReset (hevent.trans h)
  exact ⟨cells, ops, hstep.trans (hostTurn_hardReset _ cells ops hops)⟩

/-- What neither a command, nor a search step, nor the reset input does can change TX alone. -/
theorem StepEffect.changes_tx_alone {s t : State} {e : Event} (h : StepEffect s e t)
    (hcommand : ∀ v, e ≠ .command v) (hstep : e ≠ .searchStep) (hreset : e ≠ .hardReset) :
    t = { s with tx := t.tx } := by
  cases h with
  | nothing | txWrite => rfl
  | engine => exact absurd rfl hstep
  | hardReset => exact absurd rfl hreset
  | _ => exact absurd rfl (hcommand _)

/-- Settles O49: a split on the event. A latched core ignores every command but SRESET, and takes no search step. -/
theorem errorLatchIsSticky : Obligations.ErrorLatchIsSticky := by
  intro s t h latched
  cases hevent : s.event with
  | hardReset =>
    obtain ⟨cells, ops, hstep⟩ := step_of_event_hardReset hevent
    obtain rfl := Host.Outcome.next.inj (hstep.symm.trans h)
    rw [if_pos (.inl rfl)]
    exact ⟨rfl, rfl, rfl, rfl, rfl⟩
  | command v =>
    obtain ⟨ops, hstep⟩ := step_of_event_command hevent
    rw [hstep, issue_latched (s := s.movedOn ops s.schedule.tail s.readData) latched] at h
    by_cases hv : v = 0x00000001
    · rw [if_pos hv] at h
      obtain rfl := Host.Outcome.next.inj h
      rw [if_pos (.inr (congrArg Event.command hv))]
      exact ⟨rfl, rfl, rfl, rfl, rfl⟩
    · rw [if_neg hv] at h
      obtain rfl := Host.Outcome.next.inj h
      rw [if_neg (by simpa using hv)]
      rfl
  | searchStep => exact nomatch (searchEnabled_latched latched).symm.trans (searchEnabled_of_event hevent)
  | write | none =>
    obtain ⟨ops, turns, data, heffect⟩ := step_effect h
    rw [hevent] at heffect
    rw [if_neg (by simp)]
    exact congrArg State.core (heffect.changes_tx_alone nofun nofun nofun)

end Sys2Proof.Machine

/-! What no host can observe (`70_reset_and_hazards.md` R273). Two states are alike if they differ at most in WORK, in
the draw counter and, while PHASE = IDLE, in the unread part of the search context: `Alike` is equality of
`State.observable`. Each part of a step, its latch, its checks, its effect and its turn, takes alike states to alike
states. -/

namespace Sys2Proof.Machine

open Sys2Proof

/-! ### The hidden elements and the alike states -/

/-- The part of the search context that no location of the map reads (`10_state.md` R24, R27). -/
structure UnreadContext where
  mid : Vector LaneWord Config.stateLen
  nonce : Vector Trit Config.hashLen
  trunk : Vector Trit Config.hashLen
  branch : Vector Trit Config.hashLen

def State.unreadContext (s : State) : UnreadContext := ⟨s.mid, s.nonce, s.trunk, s.branch⟩

/-- s with other values in the elements that no location of the map reads. -/
def State.withHidden (s : State) (work : Vector LaneWord Config.stateLen) (draws : Nat) (c : UnreadContext) : State :=
  { s with work := work, draws := draws, mid := c.mid, nonce := c.nonce, trunk := c.trunk, branch := c.branch }

/-- `Alike s s'`: s' is s with any WORK, any draw counter and, while PHASE = IDLE, any unread context. -/
inductive Alike (s : State) : State → Prop where
  | intro (work : Vector LaneWord Config.stateLen) (draws : Nat) (c : UnreadContext)
      (same : s.phase ≠ .idle → c = s.unreadContext) : Alike s (s.withHidden work draws c)

/-! ### Alike states are those that look the same -/

section Observable

variable (s : State)

theorem observable_phase : s.observable.phase = s.phase := by
  unfold State.observable
  split <;> rfl

theorem observable_withHidden (work : Vector LaneWord Config.stateLen) (draws : Nat) (c : UnreadContext) :
    s.observable.withHidden work draws c = s.withHidden work draws c := by
  unfold State.observable
  split <;> rfl

theorem observable_unreadContext (running : s.phase ≠ .idle) : s.observable.unreadContext = s.unreadContext := by
  rw [State.observable, if_neg running]
  rfl

end Observable

theorem Alike.of_frame {s s' : State} (frame : s' = s.withHidden s'.work s'.draws s'.unreadContext)
    (same : s.phase ≠ .idle → s'.unreadContext = s.unreadContext) : Alike s s' := by
  rw [frame]
  exact .intro _ _ _ same

theorem Alike.of_observable_eq {s s' : State} (h : s.observable = s'.observable) : Alike s s' := by
  have hphase : s.phase = s'.phase := by rw [← observable_phase s, h, observable_phase]
  have hframe : s' = s.withHidden s'.work s'.draws s'.unreadContext := by
    rw [← observable_withHidden s, h, observable_withHidden]
    rfl
  refine .of_frame hframe fun running => ?_
  rw [← observable_unreadContext s' (hphase ▸ running), ← h, observable_unreadContext s running]

theorem Alike.observable_eq {s s' : State} (h : Alike s s') : s.observable = s'.observable := by
  obtain ⟨work, draws, c, same⟩ := h
  by_cases idle : s.phase = .idle
  · exact (if_pos idle).trans (if_pos (c := (s.withHidden work draws c).phase = .idle) idle).symm
  · obtain rfl := same idle
    exact (if_neg idle).trans (if_neg (c := (s.withHidden work draws s.unreadContext).phase = .idle) idle).symm

/-! ### What alike states agree on, and their updates -/

namespace Alike

variable {s s' done done' : State} {v : HostWord}

section Fields

variable (h : Alike s s')
include h

theorem phase_eq : s'.phase = s.phase := by cases h; rfl
theorem err_eq : s'.err = s.err := by cases h; rfl
theorem tx_eq : s'.tx = s.tx := by cases h; rfl
theorem sponge_eq : s'.sponge = s.sponge := by cases h; rfl
theorem host_eq : s'.host = s.host := by cases h; rfl
theorem schedule_eq : s'.schedule = s.schedule := by cases h; rfl
theorem readData_eq : s'.readData = s.readData := by cases h; rfl
theorem status_eq : s'.status = s.status := by cases h; rfl
theorem offsetSpent_eq : s'.offsetSpent = s.offsetSpent := by cases h; rfl
theorem searchEnabled_eq : s'.searchEnabled = s.searchEnabled := by cases h; rfl
theorem nextAgent_eq : s'.nextAgent = s.nextAgent := by cases h; rfl
theorem memRead_eq (addr : HostAddr) : s'.memRead addr = s.memRead addr := by cases h; rfl

theorem winningLane_eq (work : Vector LaneWord Config.stateLen) :
    winningLane s'.params work s'.mwm.toNat = winningLane s.params work s.mwm.toNat := by cases h; rfl

end Fields

theorem raise (h : Alike s s') (code : ErrorCode) (cmd : HostWord) (info : Nat) :
    Alike (s.raise code cmd info) (s'.raise code cmd info) := by
  obtain ⟨work, draws, c, same⟩ := h
  exact .intro work draws c same

theorem withHost (h : Alike s s') {ops ops' : List HostOp} {data data' : HostWord} (hops : ops' = ops)
    (hdata : data' = data) :
    Alike { s with host := ops, readData := data } { s' with host := ops', readData := data' } := by
  obtain ⟨work, draws, c, same⟩ := h
  exact hops ▸ hdata ▸ .intro work draws c same

theorem withSchedule (h : Alike s s') {turns turns' : List Agent} (heq : turns' = turns) :
    Alike { s with schedule := turns } { s' with schedule := turns' } := by
  obtain ⟨work, draws, c, same⟩ := h
  exact heq ▸ .intro work draws c same

theorem withSponge (h : Alike s s') {sponge sponge' : Vector Trit Config.stateLen} (heq : sponge' = sponge) :
    Alike { s with sponge := sponge } { s' with sponge := sponge' } := by
  obtain ⟨work, draws, c, same⟩ := h
  exact heq ▸ .intro work draws c same

theorem withDigest (h : Alike s s') {digest digest' : Vector Byte Config.hashSyms} (heq : digest' = digest) :
    Alike { s with digest := digest } { s' with digest := digest' } := by
  obtain ⟨work, draws, c, same⟩ := h
  exact heq ▸ .intro work draws c same

theorem withTx (h : Alike s s') {tx tx' : List Host.Cell} (heq : tx' = tx) :
    Alike { s with tx := tx } { s' with tx := tx' } := by
  obtain ⟨work, draws, c, same⟩ := h
  exact heq ▸ .intro work draws c same

/-- Outside IDLE the unread context is the same, so PHASE may become any other. -/
theorem withPhase (h : Alike s s') (running : s.phase ≠ .idle) (p : Phase) :
    Alike { s with phase := p } { s' with phase := p } := by
  obtain ⟨work, draws, c, same⟩ := h
  exact .intro work draws c fun _ => same running

/-- A reset draws the hidden elements anew, in IDLE. -/
theorem resetAll (h : Alike s s') {tx tx' : List Host.Cell} (heq : tx' = tx) :
    Alike (s.resetAll tx) (s'.resetAll tx') := by
  cases h
  subst heq
  exact of_frame rfl (absurd rfl)

/-- POW_INIT writes the whole unread context, from TX (`44_pow.md` R201). -/
theorem withContext (h : Alike s s') (m : Nat) : Alike (s.withContext m) (s'.withContext m) := by
  cases h
  exact of_frame rfl fun _ => rfl

/-! ### The latch and the checks -/

theorem unlessLatched (h : Alike s s') (go : Alike done done') :
    Alike (s.unlessLatched done) (s'.unlessLatched done') := by
  unfold State.unlessLatched
  rw [h.err_eq]
  split
  · exact h
  · exact go

theorem checkBusy (h : Alike s s') (go : Alike done done') :
    Alike (s.checkBusy v done) (s'.checkBusy v done') := by
  unfold State.checkBusy
  rw [h.phase_eq]
  split
  · exact h.raise .busy v 0
  · exact go

theorem checkLength (h : Alike s s') {len : Nat} (go : Alike done done') :
    Alike (s.checkLength v len done) (s'.checkLength v len done') := by
  unfold State.checkLength
  split
  · exact go
  · exact h.raise .length v 0

theorem checkParam (h : Alike s s') {m : Nat} (go : Alike done done') :
    Alike (s.checkParam v m done) (s'.checkParam v m done') := by
  unfold State.checkParam
  split
  · exact go
  · exact h.raise .param v 0

theorem checkSequence (h : Alike s s') {p : Phase} (go : s.phase = p → Alike done done') :
    Alike (s.checkSequence v p done) (s'.checkSequence v p done') := by
  unfold State.checkSequence
  rw [h.phase_eq]
  split
  next hp => exact go hp
  next => exact h.raise .sequence v 0

theorem checkSymbols (h : Alike s s') {len : Nat} (go : Alike done done') :
    Alike (s.checkSymbols v len done) (s'.checkSymbols v len done') := by
  unfold State.checkSymbols
  rw [h.tx_eq]
  cases lowestBadCell s.tx len with
  | some j => exact h.raise .symbol v j
  | none => exact go

/-! ### The search -/

/-- WORK is hidden: a batch overwrites what it held. -/
theorem recordBatch (h : Alike s s') (running : s.phase ≠ .idle) (work : Vector LaneWord Config.stateLen) :
    Alike (s.recordBatch work) (s'.recordBatch work) := by
  unfold State.recordBatch
  rw [h.winningLane_eq work]
  obtain ⟨_, draws, c, same⟩ := h
  cases winningLane s.params work s.mwm.toNat with
  | some i => exact .intro work draws c fun _ => same running
  | none => exact .intro work draws c same

/-- A batch reads the search context, which is the same outside IDLE, and not WORK (`44_pow.md` R205). -/
theorem batchWork_eq (h : Alike s s') (running : s.phase ≠ .idle) : s'.batchWork = s.batchWork := by
  obtain ⟨work, draws, c, same⟩ := h
  obtain rfl := same running
  rfl

theorem searchStep (h : Alike s s') (running : s.phase ≠ .idle) (cmd : HostWord) :
    Alike (s.searchStep cmd) (s'.searchStep cmd) := by
  unfold State.searchStep
  rw [h.offsetSpent_eq, h.batchWork_eq running]
  split
  · exact h.raise .offset cmd 0
  · exact h.recordBatch running s.batchWork

/-- POW_FINAL reads NONCE in FOUND, where it is the same, and leaves the session (`44_pow.md` R213). -/
theorem spliced (h : Alike s s') (found : s.phase = .found) : Alike s.spliced s'.spliced := by
  obtain ⟨work, draws, c, same⟩ := h
  obtain rfl := same (found ▸ nofun)
  exact of_frame rfl fun _ => rfl

theorem engineTurn (h : Alike s s') : Alike (engineTurn s) (engineTurn s') := by
  cases enabled : s.searchEnabled with
  | true =>
    have running : s.phase ≠ .idle := ((searchEnabled_iff s).mp enabled).1 ▸ nofun
    rw [engineTurn_enabled s enabled, engineTurn_enabled s' (h.searchEnabled_eq.trans enabled)]
    exact h.searchStep running _
  | false =>
    rwa [engineTurn_disabled s enabled, engineTurn_disabled s' (h.searchEnabled_eq.trans enabled)]

end Alike

/-! ### Commands, turns and steps -/

theorem hostTurn_poll {s : State} {addr : HostAddr} {mask value : HostWord} {rest : List HostOp}
    (h : s.host = .poll addr mask value :: rest) :
    hostTurn s = .next { s with
      host := if s.memRead addr &&& mask = value then rest else s.host
      readData := s.memRead addr } := by
  by_cases hvalue : s.memRead addr &&& mask = value <;> simp [hostTurn, h, hvalue]

theorem hostTurn_finalIfFound {s : State} {rest : List HostOp} (h : s.host = .finalIfFound :: rest) :
    hostTurn s = .next { s with
      host := if foundWithoutError s.status then .write 0x0000 4 (encode .powFinal) :: rest else rest
      readData := s.status } := by
  cases hfound : foundWithoutError s.status <;> simp [hostTurn, h, hfound]

/-- The answers of the machine that a host cannot tell apart: alike states, or the same refusal. -/
inductive AlikeOutcome : Host.Outcome State Fault Refusal → Host.Outcome State Fault Refusal → Prop where
  | next {t t' : State} (h : Alike t t') : AlikeOutcome (.next t) (.next t')
  | refused (r : Refusal) : AlikeOutcome (.refused r) (.refused r)

namespace Alike

variable {s s' : State}

/-- Each command is its latch, its checks and its effect, and each of these keeps the states alike. -/
theorem exec (h : Alike s s') (i : Instr) : AlikeOutcome (exec i s) (exec i s') := by
  cases i with
  | nop => exact .next (h.unlessLatched h)
  | sreset => exact .next (h.resetAll h.tx_eq)
  | abort =>
    rw [exec_abort, exec_abort, h.phase_eq]
    refine .next (h.unlessLatched ?_)
    split
    next searching => exact h.withPhase (searching ▸ nofun) .ready
    next => exact h
  | sClear => exact .next (h.unlessLatched (h.checkBusy (h.withSponge rfl)))
  | sAbsorb len =>
    have hsponge : absorb s'.sponge (txChunks s'.tx len) = absorb s.sponge (txChunks s.tx len) := by
      rw [h.sponge_eq, h.tx_eq]
    exact .next (h.unlessLatched (h.checkBusy (h.checkLength (h.checkSymbols (h.withSponge hsponge)))))
  | sPermute => exact .next (h.unlessLatched (h.checkBusy (h.withSponge (congrArg permute h.sponge_eq))))
  | sFinalize => exact .next (h.unlessLatched (h.checkBusy (h.withDigest (congrArg digestCells h.sponge_eq))))
  | hash len =>
    have hfinal : absorb zeroSponge (txChunks s'.tx len) = absorb zeroSponge (txChunks s.tx len) := by rw [h.tx_eq]
    exact .next (h.unlessLatched (h.checkBusy (h.checkLength (h.checkSymbols
      ((h.withSponge hfinal).withDigest (congrArg digestCells hfinal))))))
  | powInit m => exact .next (h.unlessLatched (h.checkBusy (h.checkParam (h.checkSymbols (h.withContext m)))))
  | powStep =>
    exact .next (h.unlessLatched (h.checkBusy (h.checkSequence fun ready => h.searchStep (ready ▸ nofun) _)))
  | powRun =>
    exact .next (h.unlessLatched (h.checkBusy (h.checkSequence fun ready => h.withPhase (ready ▸ nofun) .searching)))
  | powFinal => exact .next (h.unlessLatched (h.checkBusy (h.checkSequence h.spliced)))

theorem issue (h : Alike s s') (v : HostWord) : AlikeOutcome (s.issue v) (s'.issue v) := by
  cases hv : decode v with
  | ok i =>
    rw [issue_ok s v i hv, issue_ok s' v i hv]
    exact h.exec i
  | error e =>
    rw [issue_illegal s v e hv, issue_illegal s' v e hv]
    exact .next (h.unlessLatched (h.raise .illegalCmd v 0))

theorem memWrite (h : Alike s s') (addr : HostAddr) (v : HostWord) :
    AlikeOutcome (s.memWrite addr v) (s'.memWrite addr v) := by
  by_cases h0 : addr = 0
  · subst h0
    exact h.issue v
  · cases hw : inTxWindow addr.toNat with
    | true =>
      rw [memWrite_tx s addr v hw, memWrite_tx s' addr v hw]
      exact .next (h.withTx (congrArg (Memory.write · _ _) h.tx_eq))
    | false =>
      rw [memWrite_ignored s addr v h0 hw, memWrite_ignored s' addr v h0 hw]
      exact .next h

/-- An operation of the host looks at STATUS and at the locations it reads, and alike states agree there. -/
theorem hostTurn (h : Alike s s') : AlikeOutcome (hostTurn s) (hostTurn s') := by
  cases hops : s.host with
  | nil =>
    rw [hostTurn_idle s hops, hostTurn_idle s' (h.host_eq.trans hops)]
    exact .next h
  | cons op rest =>
    have hops' : s'.host = op :: rest := h.host_eq.trans hops
    cases op with
    | read addr size =>
      by_cases hsize : size = 4
      · subst hsize
        rw [hostTurn_read s addr rest hops, hostTurn_read s' addr rest hops']
        exact .next (h.withHost rfl (h.memRead_eq addr))
      · rw [hostTurn_read_refused s addr size rest hops hsize, hostTurn_read_refused s' addr size rest hops' hsize]
        exact .refused _
    | write addr size v =>
      by_cases hsize : size = 4
      · subst hsize
        rw [hostTurn_write s addr v rest hops, hostTurn_write s' addr v rest hops']
        exact (h.withHost rfl h.readData_eq).memWrite addr v
      · rw [hostTurn_write_refused s addr v size rest hops hsize,
          hostTurn_write_refused s' addr v size rest hops' hsize]
        exact .refused _
    | poll addr mask value =>
      rw [hostTurn_poll hops, hostTurn_poll hops']
      exact .next (h.withHost (by rw [h.memRead_eq, h.host_eq]) (h.memRead_eq addr))
    | waitPow =>
      rw [hostTurn_waitPow hops, hostTurn_waitPow hops']
      exact .next (h.withHost (by rw [h.status_eq, h.host_eq]) h.status_eq)
    | finalIfFound =>
      rw [hostTurn_finalIfFound hops, hostTurn_finalIfFound hops']
      exact .next (h.withHost (by rw [h.status_eq]) h.status_eq)
    | hardReset cells =>
      rw [hostTurn_hardReset s cells rest hops, hostTurn_hardReset s' cells rest hops']
      exact .next ((h.withHost rfl h.readData_eq).resetAll rfl)

theorem turn (h : Alike s s') (a : Agent) : AlikeOutcome (turn a s) (turn a s') := by
  cases a with
  | host => exact h.hostTurn
  | engine => exact .next h.engineTurn

theorem step (h : Alike s s') : AlikeOutcome (step s) (step s') := by
  rw [step_eq_turn, step_eq_turn, h.nextAgent_eq]
  exact (h.withSchedule (congrArg List.tail h.schedule_eq)).turn s.nextAgent

end Alike

namespace AlikeOutcome

variable {o o' : Host.Outcome State Fault Refusal}

theorem exists_next (h : AlikeOutcome o o') {t : State} (ho : o = .next t) : ∃ t', o' = .next t' ∧ Alike t t' := by
  cases h with
  | next halike => exact ⟨_, rfl, Host.Outcome.next.inj ho ▸ halike⟩
  | refused => cases ho

theorem refused_eq (h : AlikeOutcome o o') {r : Refusal} (ho : o = .refused r) : o' = .refused r := by
  cases h with
  | next => cases ho
  | refused => exact ho

end AlikeOutcome

/-- Settles O54: states that look the same are alike, and a step takes alike states to alike states. -/
theorem unspecifiedValuesAreNeverObserved : Obligations.UnspecifiedValuesAreNeverObserved := by
  intro s s' hobservable
  have halike := Alike.of_observable_eq hobservable
  refine ⟨fun addr => (halike.memRead_eq addr).symm, fun t ht => ?_, fun _ hr => halike.step.refused_eq hr⟩
  obtain ⟨t', ht', hnext⟩ := halike.step.exists_next ht
  exact ⟨t', ht', hnext.observable_eq⟩

end Sys2Proof.Machine

/-! The two resets (`70_reset_and_hazards.md` R270 to R272): the state after a hard reset, and SRESET compared with
it. -/

namespace Sys2Proof.Machine

open Sys2Proof

/-! ### The state after a hard reset -/

section PowerOn

variable (p : Params) (tx : List Host.Cell)

theorem phase_powerOn : (State.powerOn p tx).phase = .idle := rfl
theorem err_powerOn : (State.powerOn p tx).err = false := rfl
theorem errCode_powerOn : (State.powerOn p tx).errCode = 0 := rfl
theorem offset_powerOn : (State.powerOn p tx).offset = 0 := rfl
theorem winOffset_powerOn : (State.powerOn p tx).winOffset = 0 := rfl
theorem digest_powerOn : (State.powerOn p tx).digest = Vector.replicate Config.hashSyms 0 := rfl

/-- STATUS reads 0: IDLE, and no error (`70_reset_and_hazards.md` R271). -/
theorem status_powerOn : (State.powerOn p tx).status = 0 := by
  rw [State.status, phase_powerOn, err_powerOn, errCode_powerOn]
  rfl

/-- Every register of the map but PARAMS has the reset value 0 (`70_reset_and_hazards.md` R270). -/
theorem memRead_powerOn_register : ∀ {k : Nat}, k ≤ 0x000A → k ≠ 0x0002 →
    (State.powerOn p tx).memRead (BitVec.ofNat 16 k) = 0
  | 0x0000, _, _ => memRead_cmd _
  | 0x0001, _, _ => (memRead_status _).trans (status_powerOn p tx)
  | 0x0002, _, hne => absurd rfl hne
  | 0x0003, _, _ => rfl
  | 0x0004, _, _ => (memRead_offset_low _).trans (by rw [offset_powerOn]; rfl)
  | 0x0005, _, _ => (memRead_offset_high _).trans (by rw [offset_powerOn]; rfl)
  | 0x0006, _, _ => (memRead_winOffset_low _).trans (by rw [winOffset_powerOn]; rfl)
  | 0x0007, _, _ => (memRead_winOffset_high _).trans (by rw [winOffset_powerOn]; rfl)
  | 0x0008, _, _ => rfl
  | 0x0009, _, _ => rfl
  | 0x000A, _, _ => rfl
  | k + 11, hk, _ => by omega

theorem memRead_powerOn_digest {addr : HostAddr} (h : inDigestWindow addr.toNat = true) :
    (State.powerOn p tx).memRead addr = 0 := by
  rw [memRead_digestWindow _ h, digest_powerOn, Vector.toList_replicate, List.getD_eq_getElem?_getD,
    List.getElem?_getD_replicate_default_eq]
  rfl

/-- Below TX: the registers, the DIGEST window, and the holes of the map. -/
theorem memRead_powerOn {addr : HostAddr} (hparams : addr ≠ 0x0002) (hbelow : addr.toNat < 0x1000) :
    (State.powerOn p tx).memRead addr = 0 := by
  by_cases hregister : addr.toNat ≤ 0x000A
  · rw [← BitVec.setWidth_eq addr, ← BitVec.ofNat_toNat]
    exact memRead_powerOn_register p tx hregister fun h => hparams (BitVec.eq_of_toNat_eq h)
  · cases hdigest : inDigestWindow addr.toNat with
    | true => exact memRead_powerOn_digest p tx hdigest
    | false =>
      rw [← Bool.not_eq_true, inDigestWindow_iff] at hdigest
      exact memRead_unmapped _ (by omega)

theorem searchEnabled_powerOn : (State.powerOn p tx).searchEnabled = false := rfl

/-- Nothing is scheduled, the engine is not enabled, and the host has nothing to do (log 1). -/
theorem step_powerOn : step (State.powerOn p tx) = .next (State.powerOn p tx) := by
  have hagent : (State.powerOn p tx).defaultAgent = .host := defaultAgent_disabled (searchEnabled_powerOn p tx)
  rw [step_unscheduled _ rfl, hagent, turn_host, hostTurn_idle _ rfl]

end PowerOn

/-- Settles O55: each location below TX reads its reset value, and nobody has a step to take. -/
theorem resetStateReadsZero : Obligations.ResetStateReadsZero := fun p tx =>
  ⟨rfl, rfl, rfl, rfl, fun _ => memRead_powerOn p tx, searchEnabled_powerOn p tx,
    engineTurn_disabled _ (searchEnabled_powerOn p tx), step_powerOn p tx⟩

/-! ### The reset input and SRESET -/

/-- SRESET is the reset input but for TX (`70_reset_and_hazards.md` R272). -/
theorem exec_sreset_eq_hardReset (s : State) (cells : List Host.Cell) :
    exec .sreset s = .next { s.hardReset cells with tx := s.tx } := exec_sreset s

/-- Settles O56: the reset input is `State.resetAll` in any state, and so is SRESET; the latch stops the rest. -/
theorem sresetIsAHardResetThatKeepsTx : Obligations.SresetIsAHardResetThatKeepsTx := by
  refine fun s cells => ⟨fun ops hops => ⟨_, hostTurn_hardReset s cells ops hops, ?reset⟩,
    exec_sreset_eq_hardReset s cells, resetAll_err s _, Memory.ofCells_wf cells,
    fun latched _ other => exec_latched latched other⟩
  case reset =>
    exact ⟨resetAll_sponge .., resetAll_phase .., resetAll_err .., resetAll_errCode .., resetAll_errCmd ..,
      resetAll_errIndex .., resetAll_mwm .., resetAll_offset .., resetAll_winOffset .., resetAll_winLane ..,
      resetAll_digest .., resetAll_tx .., resetAll_params .., resetAll_host .., resetAll_schedule ..,
      resetAll_readData .., resetAll_searchEnabled ..⟩

end Sys2Proof.Machine

/-! The invariant at reset, and the fairness of the model's schedule: each step takes one turn off the schedule, and past
its end an enabled engine moves (log 1). -/

namespace Sys2Proof.Machine

open Sys2Proof

/-! ### The invariant at reset -/

theorem replicate_broadcast_valid (W : Nat) (t : Trit) :
    WordsValid W (Vector.replicate Config.stateLen (broadcast W t)) := fun w hw => by
  rw [Vector.toList_replicate] at hw
  exact List.eq_of_mem_replicate hw ▸ broadcast_valid W t

/-- A hard reset that leaves TX canonical establishes the invariant (`70_reset_and_hazards.md` R270). -/
theorem Inv.powerOn (p : Params) {tx : List Host.Cell} (htx : Memory.wf tx = true) : Inv (State.powerOn p tx) where
  tx_wf := htx
  mid_valid := replicate_broadcast_valid p.wordBits .zero
  work_valid := replicate_broadcast_valid p.wordBits .zero
  error_record := ⟨fun _ => ⟨rfl, rfl, rfl⟩, fun latched => nomatch latched.symm.trans (err_powerOn p tx)⟩
  search_registers := fun running => absurd (phase_powerOn p tx) running
  digest := .inl fun b hb => by
    rw [digest_powerOn, Vector.toList_replicate] at hb
    exact List.eq_of_mem_replicate hb

/-- Settles O52: each clause of the invariant reads the reset values; TX is canonical by `Memory.ofCells`. -/
theorem invariantHoldsAtReset : Obligations.InvariantHoldsAtReset :=
  ⟨Inv.powerOn Params.default rfl, fun p cells => Inv.powerOn p (Memory.ofCells_wf cells)⟩

/-! ### The schedule along a run -/

@[simp] theorem searchStep_schedule (s : State) (cmd : HostWord) : (s.searchStep cmd).schedule = s.schedule := by
  rw [searchStep_frame]

@[simp] theorem withContext_schedule (s : State) (m : Nat) : (s.withContext m).schedule = s.schedule := by
  rw [State.withContext]

/-- The core does not write the schedule, not even by a reset. -/
theorem StepEffect.schedule_eq {s t : State} {e : Event} (h : StepEffect s e t) : t.schedule = s.schedule := by
  cases h with
  | error v code info => exact raise_schedule s code v info
  | sreset | hardReset => exact resetAll_schedule s _
  | powInit m => exact withContext_schedule s m
  | powStep | engine => exact searchStep_schedule s _
  | _ => rfl

theorem turn_schedule {a : Agent} {s t : State} (h : turn a s = .next t) : t.schedule = s.schedule := by
  cases a with
  | host =>
    obtain ⟨ops, data, heffect⟩ := hostTurn_effect h
    exact heffect.schedule_eq
  | engine =>
    obtain rfl := Host.Outcome.next.inj h
    exact (engineTurn_effect s).schedule_eq

/-- A step takes one turn off the schedule. -/
theorem step_schedule {s t : State} (h : step s = .next t) : t.schedule = s.schedule.tail :=
  turn_schedule (step_eq_turn s ▸ h)

theorem stepRun_succ_eq_next {k : Nat} {s t : State} (h : stepRun (k + 1) s = .next t) :
    ∃ u, step s = .next u ∧ stepRun k u = .next t := by
  rw [stepRun] at h
  split at h
  next u hstep => exact ⟨u, hstep, h⟩
  next => nomatch h
  next => nomatch h

theorem stepRun_schedule {k : Nat} {s t : State} (h : stepRun k s = .next t) : t.schedule = s.schedule.drop k := by
  induction k generalizing s with
  | zero =>
    obtain rfl := Host.Outcome.next.inj h
    rfl
  | succ k ih =>
    obtain ⟨u, hstep, hrun⟩ := stepRun_succ_eq_next h
    rw [ih hrun, step_schedule hstep, List.drop_tail]

/-! ### An enabled search step past the end of the schedule -/

theorem nextAgent_of_enabled {s : State} (hturns : s.schedule = []) (enabled : s.searchEnabled = true) :
    s.nextAgent = .engine := by
  simp [State.nextAgent, State.defaultAgent, hturns, enabled]

theorem step_of_engine {s : State} (h : s.nextAgent = .engine) :
    step s = .next (engineTurn { s with schedule := s.schedule.drop 1 }) := by
  rw [step_eq_turn, h, turn_engine, List.drop_one]

/-- Settles O57: as many steps as the schedule is long use it up, and then an enabled engine is the next to move. -/
theorem enabledSearchStepIsTaken : Obligations.EnabledSearchStepIsTaken := by
  refine fun s => ⟨s.schedule.length, le_rfl, fun t hrun enabled => ?_⟩
  have hturns : t.schedule = [] := (stepRun_schedule hrun).trans List.drop_length
  have hnext := nextAgent_of_enabled hturns enabled
  exact ⟨hnext, step_of_engine hnext⟩

end Sys2Proof.Machine
